-- ==== Sys2Proof/Word.lean ====
section
/-! DEFINITION. The two word types of the core (spec/00_scope.md R7, R12). -/

namespace Sys2Proof

/-- `u8`: an 8-bit value; `+` and `-` on it are the spec's `+8` and `-8` (00_scope.md R12). -/
abbrev Byte := BitVec 8

/-- `u16`: a 16-bit value; `+` and `-` on it are the spec's `+16` and `-16` (00_scope.md R12). -/
abbrev Addr := BitVec 16

end Sys2Proof
end

