-- ==== Sys2Proof/Machine/Bits.lean ====
section
/-! DEFINITION. Byte order and extension helpers (00_scope.md R12). -/

namespace Sys2Proof.Machine

/-- `lo8(v) = v mod 256` (00_scope.md R12). -/
def lo8 (v : Addr) : Byte := BitVec.ofNat 8 v.toNat

/-- `hi8(v) = floor(v / 256) mod 256` (00_scope.md R12). -/
def hi8 (v : Addr) : Byte := BitVec.ofNat 8 (v.toNat / 256)

/-- `hi:lo`: the 16-bit value `hi*256 + lo` (00_scope.md R12). -/
def cat (hi lo : Byte) : Addr := BitVec.ofNat 16 (hi.toNat * 256 + lo.toNat)

/-- `zext_16(b)` (00_scope.md R12). -/
def zext16 (b : Byte) : Addr := BitVec.ofNat 16 b.toNat

/-- `sext_16(b)`: b if b < 128, else b + 0xFF00 (00_scope.md R12). -/
def sext16 (b : Byte) : Addr := BitVec.ofNat 16 (if b.toNat < 128 then b.toNat else b.toNat + 0xFF00)

end Sys2Proof.Machine
end

