-- ==== Sys2Proof/Machine/Flags.lean ====
section
/-! DEFINITION. The status register P (10_state.md R36 to R42) and every result-and-flag computation of the
instruction rules (43_arith_logic.md, 44_shift_rotate.md), as functions on bytes. -/

namespace Sys2Proof.Machine

/-- The flags of P (10_state.md R36); bit 5 is reserved and has no name here. -/
inductive Flag where
  | c | z | i | d | b | v | n
  deriving DecidableEq, Repr

/-- The bit of P a flag is (10_state.md R36, decision D2). -/
def flagBit : Flag → Nat
  | .c => 0
  | .z => 1
  | .i => 2
  | .d => 3
  | .b => 4
  | .v => 6
  | .n => 7

/-- The value of a flag. -/
def getFlag (f : Flag) (p : Byte) : Bool := p.getLsbD (flagBit f)

/-- P with one flag written and every other bit unchanged. -/
def setFlag (f : Flag) (v : Bool) (p : Byte) : Byte :=
  if v then p ||| (1#8 <<< flagBit f) else p &&& ~~~(1#8 <<< flagBit f)

/-- `setNZ(v)`: `P.Z <- (v = 0); P.N <- v[7]` (00_scope.md R13). -/
def setNZ (v : Byte) (p : Byte) : Byte :=
  setFlag .n (v.getLsbD 7) (setFlag .z (v == 0) p)

/-- `P_push = P | 0x30`, the byte PHP and BRK write (10_state.md R37). -/
def pushImage (p : Byte) : Byte := p ||| 0x30

/-- `P_pull(b) = (b & 0xCF) | 0x20`, what PLP and RTI load (10_state.md R37). -/
def pullImage (b : Byte) : Byte := (b &&& 0xCF) ||| 0x20

/-- A result byte with the carry and overflow an addition leaves. -/
structure Sum where
  r : Byte
  carry : Bool
  overflow : Bool
  deriving DecidableEq, Repr

/-- The sum of ADC: t = A + m + C, c6 the carry out of the low 7 bits, c7 = (t >= 256), V = c6 xor c7
(43_arith_logic.md R231). -/
def addWithCarry (a m : Byte) (c : Bool) : Sum :=
  let t := a.toNat + m.toNat + c.toNat
  let c6 := decide (a.toNat % 128 + m.toNat % 128 + c.toNat ≥ 128)
  let c7 := decide (t ≥ 256)
  { r := BitVec.ofNat 8 t, carry := c7, overflow := c6 != c7 }

/-- The difference of SBC: ADC of the complemented operand (43_arith_logic.md R232). -/
def subWithBorrow (a m : Byte) (c : Bool) : Sum := addWithCarry a (~~~m) c

/-- P after ADC or SBC: C, V, Z and N of the sum (43_arith_logic.md R231, R232). -/
def sumFlags (s : Sum) (p : Byte) : Byte :=
  setNZ s.r (setFlag .v s.overflow (setFlag .c s.carry p))

/-- P after a compare of register r with m: C = (r >= m) unsigned, Z and N of the difference
(43_arith_logic.md R236 to R238). -/
def compareFlags (r m : Byte) (p : Byte) : Byte :=
  setNZ (r - m) (setFlag .c (decide (m.toNat ≤ r.toNat)) p)

/-- P after BIT: Z of A & m, N and V bits 7 and 6 of m (43_arith_logic.md R239). -/
def bitFlags (a m : Byte) (p : Byte) : Byte :=
  setFlag .v (m.getLsbD 6) (setFlag .n (m.getLsbD 7) (setFlag .z (a &&& m == 0) p))

/-- The shift function of ASL: result and new carry (44_shift_rotate.md R271). -/
def aslFn (m : Byte) (_ : Bool) : Byte × Bool := (m <<< 1, m.getLsbD 7)

/-- The shift function of LSR (44_shift_rotate.md R272). -/
def lsrFn (m : Byte) (_ : Bool) : Byte × Bool := (m >>> 1, m.getLsbD 0)

/-- The rotate function of ROL (44_shift_rotate.md R273). -/
def rolFn (m : Byte) (c : Bool) : Byte × Bool :=
  (m <<< 1 ||| BitVec.ofNat 8 c.toNat, m.getLsbD 7)

/-- The rotate function of ROR (44_shift_rotate.md R274). -/
def rorFn (m : Byte) (c : Bool) : Byte × Bool :=
  (m >>> 1 ||| BitVec.ofNat 8 c.toNat <<< 7, m.getLsbD 0)

/-- P after a shift with the given result and new carry (44_shift_rotate.md R270). -/
def shiftFlags (r : Byte × Bool) (p : Byte) : Byte :=
  setNZ r.1 (setFlag .c r.2 p)

end Sys2Proof.Machine
end

