-- ==== Sys2Proof/Config.lean ====
section
/-! DEFINITION. What an implementation fixes: the addresses the spec fixes, the parameters of the
host calls (00_scope.md R8, R9) and the one free value of the model, the byte a device answers. -/

namespace Sys2Proof

/-- The stack page: a push writes at `0x0100 + SP` (00_scope.md R9, R15; decision D3). -/
def Config.stackBase : Addr := 0x0100

/-- The reset vector, loaded by power_on and reset (20_memory.md R71). -/
def Config.resetVector : Addr := 0xFFFC

/-- The interrupt vector, loaded by BRK (20_memory.md R71; 90_conflicts.md C5). -/
def Config.irqVector : Addr := 0xFFFE

/-- The number of byte addresses of the one address space (20_memory.md R65). -/
def Config.addressSpace : Nat := 65536

/-- What a byte of plain memory that nothing has written reads as: the spec's own test convention,
"Memory not listed holds 00" (95_test_vectors.md). DESIGN CHOICE, unsafe: assumption 3. -/
def Config.unlistedByte : Byte := 0x00

/-- The parameters of the host calls that no source fixes (00_scope.md R8): `POWER_ON_SP`, with the
spec's default 0xFD, and `LOAD_ADDR`, which is OPEN and has no default. -/
structure Config.Params where
  powerOnSp : Byte := 0xFD
  loadAddr : Addr
  deriving DecidableEq, Repr

/-- The byte the n-th oracle draw, a device read that the Bus parameter does not define, answers: a FREE
VALUE, nothing constrains it ("every read is an oracle draw", 93_implementation_defined.md U2;
20_memory.md R69). Assumption 4. -/
opaque Config.deviceByte : Nat → Byte

end Sys2Proof
end

