-- ==== Sys2Proof/Syntax.lean ====
section
/-! DEFINITION. The instructions as syntax: the 57 instruction types (30_encoding.md R101), the 14
addressing modes (R102), operand forms, the instructions, and the micro-op kinds (41_scheduler.md R163). -/

namespace Sys2Proof

/-- The instruction types: the 56 documented mnemonics and Illegal (30_encoding.md R101, 90_conflicts.md C1). -/
inductive InstrType where
  | adc | and | asl | bcc | bcs | beq | bit | bmi | bne | bpl | brk | bvc | bvs
  | clc | cld | cli | clv | cmp | cpx | cpy | dec | dex | dey | eor | inc | inx | iny
  | jmp | jsr | lda | ldx | ldy | lsr | nop | ora | pha | php | pla | plp | rol | ror
  | rti | rts | sbc | sec | sed | sei | sta | stx | sty | tax | tay | tsx | txa | txs | tya
  | illegal
  deriving DecidableEq, Repr

/-- The addressing modes: the 13 modes and NONE, which only Illegal takes (30_encoding.md R102, 90_conflicts.md C2). -/
inductive Mode where
  | imp | acc | imm | zp | zpx | zpy | rel | abs | abx | aby | ind | izx | izy | none
  deriving DecidableEq, Repr

/-- An operand as a program writes it: the addressing mode with its operand bytes (30_encoding.md R105).
A 16-bit operand is `b2:b1`. The modes IMP, REL and NONE belong to instructions that have one form only. -/
inductive Operand where
  | acc
  | imm (b1 : Byte)
  | zp (b1 : Byte)
  | zpx (b1 : Byte)
  | zpy (b1 : Byte)
  | abs (w : Addr)
  | abx (w : Addr)
  | aby (w : Addr)
  | ind (w : Addr)
  | izx (b1 : Byte)
  | izy (b1 : Byte)
  deriving DecidableEq, Repr

/-- The instructions: one constructor per mnemonic of spec/opcode_table.json; where a mnemonic has
several rows, its argument is the operand form, and each row is the constructor at one form (assumption 15). -/
inductive Instr where
  -- 42_load_store_transfer.md
  | lda (o : Operand) | ldx (o : Operand) | ldy (o : Operand)
  | sta (o : Operand) | stx (o : Operand) | sty (o : Operand)
  | tax | tay | txa | tya | tsx | txs
  -- 43_arith_logic.md
  | adc (o : Operand) | sbc (o : Operand)
  | and (o : Operand) | ora (o : Operand) | eor (o : Operand)
  | cmp (o : Operand) | cpx (o : Operand) | cpy (o : Operand) | bit (o : Operand)
  | inc (o : Operand) | dec (o : Operand)
  | inx | iny | dex | dey
  -- 44_shift_rotate.md
  | asl (o : Operand) | lsr (o : Operand) | rol (o : Operand) | ror (o : Operand)
  -- 45_control.md
  | jmp (o : Operand) | jsr (w : Addr) | rts
  | bpl (b1 : Byte) | bmi (b1 : Byte) | bvc (b1 : Byte) | bvs (b1 : Byte)
  | bcc (b1 : Byte) | bcs (b1 : Byte) | bne (b1 : Byte) | beq (b1 : Byte)
  -- 46_stack_flags_system.md
  | pha | php | pla | plp | brk | rti
  | clc | sec | cli | sei | clv | cld | sed
  | nop | illegal (b : Byte)
  deriving DecidableEq, Repr

/-- The micro-op kinds; each kind has one fixed cost, so a queue entry is its kind (41_scheduler.md R161, R163). -/
inductive MicroOp where
  | resolve | read | write | idle | exec | modify | jump
  | pushA | pushP | pushPCH | pushPCL
  | pullA | pullP | pullPCL | pullPCH
  | incPC | vector
  deriving DecidableEq, Repr

/-- The addressing mode of an operand. -/
def Operand.mode : Operand → Mode
  | .acc => .acc | .imm _ => .imm
  | .zp _ => .zp | .zpx _ => .zpx | .zpy _ => .zpy
  | .abs _ => .abs | .abx _ => .abx | .aby _ => .aby
  | .ind _ => .ind | .izx _ => .izx | .izy _ => .izy

/-- The instruction type of an instruction. -/
def Instr.type : Instr → InstrType
  | .lda _ => .lda | .ldx _ => .ldx | .ldy _ => .ldy
  | .sta _ => .sta | .stx _ => .stx | .sty _ => .sty
  | .tax => .tax | .tay => .tay | .txa => .txa | .tya => .tya | .tsx => .tsx | .txs => .txs
  | .adc _ => .adc | .sbc _ => .sbc
  | .and _ => .and | .ora _ => .ora | .eor _ => .eor
  | .cmp _ => .cmp | .cpx _ => .cpx | .cpy _ => .cpy | .bit _ => .bit
  | .inc _ => .inc | .dec _ => .dec
  | .inx => .inx | .iny => .iny | .dex => .dex | .dey => .dey
  | .asl _ => .asl | .lsr _ => .lsr | .rol _ => .rol | .ror _ => .ror
  | .jmp _ => .jmp | .jsr _ => .jsr | .rts => .rts
  | .bpl _ => .bpl | .bmi _ => .bmi | .bvc _ => .bvc | .bvs _ => .bvs
  | .bcc _ => .bcc | .bcs _ => .bcs | .bne _ => .bne | .beq _ => .beq
  | .pha => .pha | .php => .php | .pla => .pla | .plp => .plp | .brk => .brk | .rti => .rti
  | .clc => .clc | .sec => .sec | .cli => .cli | .sei => .sei | .clv => .clv
  | .cld => .cld | .sed => .sed | .nop => .nop | .illegal _ => .illegal

/-- The addressing mode of an instruction. -/
def Instr.mode : Instr → Mode
  | .lda o | .ldx o | .ldy o | .sta o | .stx o | .sty o
  | .adc o | .sbc o | .and o | .ora o | .eor o
  | .cmp o | .cpx o | .cpy o | .bit o | .inc o | .dec o
  | .asl o | .lsr o | .rol o | .ror o | .jmp o => o.mode
  | .jsr _ => .abs
  | .bpl _ | .bmi _ | .bvc _ | .bvs _ | .bcc _ | .bcs _ | .bne _ | .beq _ => .rel
  | .illegal _ => .none
  | .tax | .tay | .txa | .tya | .tsx | .txs | .inx | .iny | .dex | .dey | .rts
  | .pha | .php | .pla | .plp | .brk | .rti
  | .clc | .sec | .cli | .sei | .clv | .cld | .sed | .nop => .imp

end Sys2Proof
end

