-- ==== Sys2Proof/Machine/State.lean ====
section
/-! DEFINITION. The state of the core and of the two collaborators the spec makes its parameters (the bus
and the trace sink), the reasons a run stops, and the state after power_on (10_state.md). -/

namespace Sys2Proof.Machine

/-- What answers at an address (20_memory.md R61, R63, R69, R74): plain memory, where a read returns the last
write; read-only storage, which takes a write and keeps its byte; or a device, which answers as `Device` says.
An address in no region is unmapped. -/
inductive Kind where
  | memory | rom | device | unmapped
  deriving DecidableEq, Repr

/-- One region of the bus map: the addresses `first` to `last`, both included. Its cells begin at `base`,
and a `size` other than 0 repeats them every `size` addresses: mirroring (93_implementation_defined.md U13).
Regions may share cells. Left out, `base` and `size` give each address a cell of its own number. -/
structure Region where
  first : Nat
  last : Nat
  kind : Kind
  base : Nat := first
  size : Nat := 0
  deriving DecidableEq, Repr

/-- One row of a device's read function (92_eei_decisions.md D20): in a state (`none`: in any) a read of a
cell answers a byte (`none`: any byte, an oracle draw) and goes to a state (`none`: stays). -/
structure ReadRow where
  state : Option Nat
  cell : Nat
  answer : Option Byte
  next : Option Nat
  deriving DecidableEq, Repr

/-- One row of a device's write function (92_eei_decisions.md D20): in a state (`none`: in any) a write of a
byte (`none`: of any) to a cell goes to a state (`none`: stays). -/
structure WriteRow where
  state : Option Nat
  cell : Nat
  value : Option Byte
  next : Option Nat
  deriving DecidableEq, Repr

/-- The devices of a bus: their state, and the read and write functions of the Bus parameter as tables, of
which the first row that fits decides. A read that no row fits is an oracle draw, a write that none fits
does nothing (93_implementation_defined.md U2; 92_eei_decisions.md D20; assumption 4). -/
structure Device where
  state : Nat
  reads : List ReadRow
  writes : List WriteRow
  deriving DecidableEq, Repr

/-- One bus access, with the byte it moved (20_memory.md R64). -/
inductive Access where
  | read (a : Addr) (v : Byte)
  | write (a : Addr) (v : Byte)
  deriving DecidableEq, Repr

/-- The contents of memory: (cell, byte) pairs in the canonical form of `Memory.wf`. -/
abbrev Memory := List Host.Cell

/-- The bus collaborator as plain data (00_scope.md R8; assumptions 3, 4, 5, 9).
`draws` and `log` are the model's own fields. -/
structure Bus where
  /-- the map: the first region that holds an address decides its kind -/
  map : List Region
  /-- contents of the plain memory and the read-only storage, by cell -/
  mem : Memory
  /-- the devices -/
  dev : Device
  /-- how many oracle draws have been answered: the argument of the free value `Config.deviceByte` -/
  draws : Nat
  /-- the accesses made, newest first -/
  log : List Access
  deriving DecidableEq, Repr

/-- The six programmer-visible registers (10_state.md R30), as one value. -/
structure Regs where
  a : Byte
  x : Byte
  y : Byte
  sp : Byte
  pc : Addr
  p : Byte
  deriving DecidableEq, Repr

/-- What the trace sink receives when an instruction completes (60_exceptions.md R371). -/
structure Snapshot where
  regs : Regs
  cycles : Nat
  deriving DecidableEq, Repr

/-- The state of the machine (10_state.md R30 to R46, 60_exceptions.md R371). -/
structure State where
  /-- accumulator (R31) -/
  a : Byte
  /-- index register X (R32) -/
  x : Byte
  /-- index register Y (R33) -/
  y : Byte
  /-- stack pointer (R34) -/
  sp : Byte
  /-- program counter (R35) -/
  pc : Addr
  /-- status register (R36) -/
  p : Byte
  /-- opcode slot (R43) -/
  op : Option Byte
  /-- operand buffer (R43) -/
  opnds : List Byte
  /-- instruction latch (R43) -/
  ins : InstrType × Mode
  /-- effective-address latch (R44) -/
  ea : Addr
  /-- operand latch (R44) -/
  m : Byte
  /-- store-value latch (R44) -/
  sv : Byte
  /-- return-address latch (R44) -/
  ret : Addr
  /-- micro-op queue, head first (R45) -/
  q : List MicroOp
  /-- cycle counter (R46) -/
  cycles : Nat
  /-- the bus collaborator -/
  bus : Bus
  /-- what the trace sink has received, newest first -/
  sink : List Snapshot
  deriving DecidableEq, Repr

/-- Why an internal fault was raised (41_scheduler.md R176). No state that a run reaches raises one
(`Obligations.NoInternalFault`); assumption 10. -/
inductive Defect where
  /-- Resolve finds no operand bytes that its mode can use -/
  | operands
  /-- Exec or Modify of an instruction type that has no such step -/
  | handler
  /-- a loop of the model would run longer than its bound -/
  | bound
  deriving DecidableEq, Repr

/-- The fault outcomes (00_scope.md R17). -/
inductive Fault where
  /-- `BusFault(addr)`: raised by every bus access (fetch, Read, Write, pointer, push, pull, vector, and
  the host calls) at an unmapped address. Safe: the spec ends the run there (60_exceptions.md R365). -/
  | busFault (addr : Addr)
  /-- `InternalFault(reason)`: raised by the scheduler in a state that breaks its invariants. Safe: the
  spec says to fault rather than continue (41_scheduler.md R176). -/
  | internalFault (reason : Defect)
  deriving DecidableEq, Repr

/-- The refusals. -/
inductive Refusal where
  /-- an arm of exec without a meaning; no arm of this model raises it. Safe. -/
  | notModelled (mnemonic : String)
  /-- exec of a term that no byte sequence decodes to (not well-formed); step never raises it. Safe:
  such a term is no instruction of the core. Assumption 11. -/
  | illFormed
  deriving DecidableEq, Repr

/-- The outcome of an operation of the machine. -/
abbrev Res (α : Type) := Host.Outcome α Fault Refusal

/-- The programmer-visible registers of a state (10_state.md R30). -/
def State.regs (s : State) : Regs :=
  { a := s.a, x := s.x, y := s.y, sp := s.sp, pc := s.pc, p := s.p }

/-- The machine right after power_on (10_state.md R49, 70_reset_and_hazards.md R391), over a bus whose
65536 addresses are all plain memory with nothing listed (assumptions 2, 3, 5): so PC is
read_word(0xFFFC) = 0x0000. SP is the default of POWER_ON_SP (assumption 6). The latches, which the spec
leaves unconstrained, hold zeros (assumption 7). -/
def State.reset : State where
  a := 0x00
  x := 0x00
  y := 0x00
  sp := 0xFD
  pc := 0x0000
  p := 0x24
  op := none
  opnds := []
  ins := (.illegal, .none)
  ea := 0x0000
  m := 0x00
  sv := 0x00
  ret := 0x0000
  q := []
  cycles := 0
  bus :=
    { map := [{ first := 0, last := 65535, kind := .memory }]
      mem := []
      dev := { state := 0, reads := [], writes := [] }
      draws := 0
      log := [.read 0xFFFD 0x00, .read 0xFFFC 0x00] }
  sink := []

end Sys2Proof.Machine
end

