-- ==== Sys2Proof/Machine/Ops.lean ====
section
/-! DEFINITION. The named operations over memory, bus and stack (20_memory.md, 00_scope.md R14, R15), the
bodies of the stack and vector micro-ops (41_scheduler.md R163), and trap entry and return as one operation
each (60_exceptions.md R364, R366). -/

namespace Sys2Proof.Machine

/-- Do the first operation, then the second with its result; a fault or a refusal of the first is the
outcome. -/
def andThen {α β : Type} (r : Res α) (f : α → Res β) : Res β :=
  match r with
  | .next v => f v
  | .fault e => .fault e
  | .refused e => .refused e

/-! ## Plain memory -/

/-- The byte at an address of plain memory. -/
def Memory.get : Memory → Nat → Byte
  | [], _ => Config.unlistedByte
  | (k, v) :: rest, a => if k = a then v else Memory.get rest a

/-- Write one byte, keeping the canonical form: writing what an unlisted address reads as removes the
entry. -/
def Memory.set : Memory → Nat → Byte → Memory
  | [], a, v => if v = Config.unlistedByte then [] else [(a, v)]
  | (k, w) :: rest, a, v =>
    if a < k then
      if v = Config.unlistedByte then (k, w) :: rest else (a, v) :: (k, w) :: rest
    else if a = k then
      if v = Config.unlistedByte then rest else (a, v) :: rest
    else (k, w) :: Memory.set rest a v

/-- Addresses strictly rise from `lo`, lie in the address space, and no entry is equal to what an unlisted
address reads as. -/
def Memory.wfFrom : Nat → Memory → Bool
  | _, [] => true
  | lo, (k, v) :: rest =>
    decide (lo ≤ k) && decide (k < Config.addressSpace) && v != Config.unlistedByte
      && Memory.wfFrom (k + 1) rest

/-- The canonical form of a memory. -/
def Memory.wf (mem : Memory) : Bool := Memory.wfFrom 0 mem

/-! ## The bus -/

/-- What answers at an address: the first region that holds it, and unmapped where none does. -/
def kindIn : List Region → Nat → Kind
  | [], _ => .unmapped
  | r :: rest, a => if r.first ≤ a ∧ a ≤ r.last then r.kind else kindIn rest a

/-- What answers at an address of a bus. -/
def Bus.kindAt (b : Bus) (a : Addr) : Kind := kindIn b.map a.toNat

/-- The cell of a region that an address in it names; two addresses with one cell are mirrors of each other
(93_implementation_defined.md U13). The remainder by 0 is the number itself. -/
def Region.cell (r : Region) (a : Nat) : Nat := (r.base + (a - r.first) % r.size) % Config.addressSpace

/-- The cell that an address names, by the first region that holds it. -/
def cellIn : List Region → Nat → Nat
  | [], a => a
  | r :: rest, a => if r.first ≤ a ∧ a ≤ r.last then r.cell a else cellIn rest a

/-- The cell that an address of a bus names. -/
def Bus.cellAt (b : Bus) (a : Addr) : Nat := cellIn b.map a.toNat

/-- Where a read returns the byte stored in the cell: plain memory and read-only storage. -/
def Bus.stored (b : Bus) (a : Addr) : Bool := b.kindAt a = .memory || b.kindAt a = .rom

/-- What a row asks for is `none`, or is what it meets. -/
def fits {α : Type} [DecidableEq α] (o : Option α) (v : α) : Bool := o = none || o = some v

/-- A device in its next state, where a row names one. -/
def Device.goto (d : Device) (next : Option Nat) : Device := { d with state := next.getD d.state }

/-- The row of a device's read function for a cell. -/
def Device.readRow (d : Device) (c : Nat) : Option ReadRow :=
  d.reads.find? fun r => fits r.state d.state && r.cell == c

/-- The row of a device's write function for a cell and a byte. -/
def Device.writeRow (d : Device) (c : Nat) (v : Byte) : Option WriteRow :=
  d.writes.find? fun r => fits r.state d.state && r.cell == c && fits r.value v

/-- The byte a device answers, where the Bus parameter defines it, else an oracle draw; with the devices and
the draws after it (20_memory.md R69; 92_eei_decisions.md D20). -/
def Bus.deviceRead (b : Bus) (c : Nat) : Byte × Bus :=
  let row := b.dev.readRow c
  let b1 := { b with dev := b.dev.goto (row.bind (·.next)) }
  match row.bind (·.answer) with
  | some v => (v, b1)
  | none => (Config.deviceByte b.draws, { b1 with draws := b.draws + 1 })

/-- The devices after a write (20_memory.md R61; 92_eei_decisions.md D20). -/
def Bus.deviceWrite (b : Bus) (c : Nat) (v : Byte) : Bus :=
  { b with dev := b.dev.goto ((b.dev.writeRow c v).bind (·.next)) }

/-- Read one byte: plain memory gives the last write, read-only storage its byte, a device what
`Bus.deviceRead` says, an unmapped address is fatal (20_memory.md R60, R63, R69, R74). -/
def Bus.read (b : Bus) (a : Addr) : Res (Byte × Bus) :=
  match b.kindAt a with
  | .memory | .rom =>
    let v := b.mem.get (b.cellAt a)
    .next (v, { b with log := .read a v :: b.log })
  | .device =>
    let r := b.deviceRead (b.cellAt a)
    .next (r.1, { r.2 with log := .read a r.1 :: b.log })
  | .unmapped => .fault (.busFault a)

/-- Write one byte: plain memory stores it, read-only storage keeps its byte, a device does what
`Bus.deviceWrite` says, an unmapped address is fatal (20_memory.md R61, R63). -/
def Bus.write (b : Bus) (a : Addr) (v : Byte) : Res Bus :=
  match b.kindAt a with
  | .memory => .next { b with mem := b.mem.set (b.cellAt a) v, log := .write a v :: b.log }
  | .rom => .next { b with log := .write a v :: b.log }
  | .device => .next { b.deviceWrite (b.cellAt a) v with log := .write a v :: b.log }
  | .unmapped => .fault (.busFault a)

/-- `read_word`: the low byte at a, then the high byte at a +16 1 (20_memory.md R62). -/
def Bus.readWord (b : Bus) (a : Addr) : Res (Addr × Bus) :=
  andThen (b.read a) fun lo =>
    andThen (lo.2.read (a + 1)) fun hi => .next (cat hi.1 lo.1, hi.2)

/-- Write bytes one after the other from an address on, wrapping modulo 2^16 (20_memory.md R72), the first
byte first and up to the first write that faults. R72 gives the address of each byte and no order of the
writes: DESIGN CHOICE, unsafe, assumption 17. -/
def Bus.writeAll : Bus → Addr → List Byte → Res Bus
  | b, _, [] => .next b
  | b, a, v :: rest => andThen (b.write a v) fun b' => Bus.writeAll b' (a + 1) rest

/-- The byte stored in the cell that an address names: the observer the statements use; no access is made. -/
def State.peek (s : State) (a : Addr) : Byte := s.bus.mem.get (s.bus.cellAt a)

/-! ## The stack and the micro-ops that use it (41_scheduler.md R163) -/

/-- The stack location SP names (00_scope.md R15). -/
def stackAddr (sp : Byte) : Addr := Config.stackBase + zext16 sp

/-- `push(v)` (00_scope.md R15). -/
def push (v : Byte) (s : State) : Res State :=
  andThen (s.bus.write (stackAddr s.sp) v) fun b => .next { s with bus := b, sp := s.sp - 1 }

/-- `pull()` (00_scope.md R15). -/
def pull (s : State) : Res (Byte × State) :=
  andThen (s.bus.read (stackAddr (s.sp + 1))) fun r =>
    .next (r.1, { s with bus := r.2, sp := s.sp + 1 })

/-- PushA: `push(A)`. -/
def doPushA (s : State) : Res State := push s.a s

/-- PushP: `push(P | 0x30)`. -/
def doPushP (s : State) : Res State := push (pushImage s.p) s

/-- PushPCH: `push(hi8(ret))`. -/
def doPushPCH (s : State) : Res State := push (hi8 s.ret) s

/-- PushPCL: `push(lo8(ret))`. -/
def doPushPCL (s : State) : Res State := push (lo8 s.ret) s

/-- PullA: `A <- pull(); setNZ(A)`. -/
def doPullA (s : State) : Res State :=
  andThen (pull s) fun r => .next { r.2 with a := r.1, p := setNZ r.1 r.2.p }

/-- PullP: `P <- P_pull(pull())`. -/
def doPullP (s : State) : Res State :=
  andThen (pull s) fun r => .next { r.2 with p := pullImage r.1 }

/-- PullPCL: `PC <- hi8(PC) : pull()`. -/
def doPullPCL (s : State) : Res State :=
  andThen (pull s) fun r => .next { r.2 with pc := cat (hi8 r.2.pc) r.1 }

/-- PullPCH: `PC <- pull() : lo8(PC)`. -/
def doPullPCH (s : State) : Res State :=
  andThen (pull s) fun r => .next { r.2 with pc := cat r.1 (lo8 r.2.pc) }

/-- Vector: `PC <- MemRead(0xFFFE, 2); P.I <- 1`. -/
def doVector (s : State) : Res State :=
  andThen (s.bus.readWord Config.irqVector) fun r =>
    .next { s with pc := r.1, bus := r.2, p := setFlag .i true s.p }

/-- Read: `m <- MemRead(ea, 1)`. -/
def doRead (s : State) : Res State :=
  andThen (s.bus.read s.ea) fun r => .next { s with m := r.1, bus := r.2 }

/-- Write: `MemWrite(ea, 1, sv)`. -/
def doWrite (s : State) : Res State :=
  andThen (s.bus.write s.ea s.sv) fun b => .next { s with bus := b }

/-- Jump: `PC <- ea`. -/
def doJump (s : State) : State := { s with pc := s.ea }

/-- IncPC: `PC <- PC +16 1`. -/
def doIncPC (s : State) : State := { s with pc := s.pc + 1 }

/-! ## Trap entry and return (60_exceptions.md R364, R366) -/

/-- Taking the one trap the core has, from a state whose return-address latch is staged: PC high, PC low
and P | 0x30 are pushed in this order, then PC comes from 0xFFFE and I is set (60_exceptions.md R364). -/
def takeTrap (s : State) : Res State :=
  andThen (doPushPCH s) fun s1 => andThen (doPushPCL s1) fun s2 =>
    andThen (doPushP s2) fun s3 => doVector s3

/-- Returning from it: P, then PC low, then PC high are pulled (60_exceptions.md R366). -/
def returnFromTrap (s : State) : Res State :=
  andThen (doPullP s) fun s1 => andThen (doPullPCL s1) fun s2 => doPullPCH s2

end Sys2Proof.Machine
end

