-- ==== Sys2Proof/Machine/ArithBodies.lean ====
section
/-! DEFINITION. The Exec and Modify bodies of arithmetic, logic, compare, bit test, increment and decrement
(43_arith_logic.md). -/

namespace Sys2Proof.Machine

/-- ADC: A, C, V, Z, N from A + m + C (R231). -/
def adcBody (s : State) : State :=
  let r := addWithCarry s.a s.m (getFlag .c s.p)
  { s with a := r.r, p := sumFlags r s.p }

/-- SBC: A, C, V, Z, N from A + ~m + C (R232). -/
def sbcBody (s : State) : State :=
  let r := subWithBorrow s.a s.m (getFlag .c s.p)
  { s with a := r.r, p := sumFlags r s.p }

/-- AND: `A <- A & m; setNZ(A)` (R233). -/
def andBody (s : State) : State := { s with a := s.a &&& s.m, p := setNZ (s.a &&& s.m) s.p }

/-- ORA: `A <- A | m; setNZ(A)` (R234). -/
def oraBody (s : State) : State := { s with a := s.a ||| s.m, p := setNZ (s.a ||| s.m) s.p }

/-- EOR: `A <- A ^ m; setNZ(A)` (R235). -/
def eorBody (s : State) : State := { s with a := s.a ^^^ s.m, p := setNZ (s.a ^^^ s.m) s.p }

/-- CMP: C, Z, N of A - m; A not written (R236). -/
def cmpBody (s : State) : State := { s with p := compareFlags s.a s.m s.p }

/-- CPX: C, Z, N of X - m (R237). -/
def cpxBody (s : State) : State := { s with p := compareFlags s.x s.m s.p }

/-- CPY: C, Z, N of Y - m (R238). -/
def cpyBody (s : State) : State := { s with p := compareFlags s.y s.m s.p }

/-- BIT: Z of A & m, N = m[7], V = m[6]; A not written (R239). -/
def bitBody (s : State) : State := { s with p := bitFlags s.a s.m s.p }

/-- INC, Modify: `sv <- m +8 1; setNZ(sv)` (R240). -/
def incBody (s : State) : State := { s with sv := s.m + 1, p := setNZ (s.m + 1) s.p }

/-- DEC, Modify: `sv <- m -8 1; setNZ(sv)` (R241). -/
def decBody (s : State) : State := { s with sv := s.m - 1, p := setNZ (s.m - 1) s.p }

/-- INX: `X <- X +8 1; setNZ(X)` (R242). -/
def inxBody (s : State) : State := { s with x := s.x + 1, p := setNZ (s.x + 1) s.p }

/-- INY: `Y <- Y +8 1; setNZ(Y)` (R243). -/
def inyBody (s : State) : State := { s with y := s.y + 1, p := setNZ (s.y + 1) s.p }

/-- DEX: `X <- X -8 1; setNZ(X)` (R244). -/
def dexBody (s : State) : State := { s with x := s.x - 1, p := setNZ (s.x - 1) s.p }

/-- DEY: `Y <- Y -8 1; setNZ(Y)` (R245). -/
def deyBody (s : State) : State := { s with y := s.y - 1, p := setNZ (s.y - 1) s.p }

end Sys2Proof.Machine
end

