-- ==== Sys2Proof/Machine/ControlBodies.lean ====
section
/-! DEFINITION. The Exec bodies of the eight branches (45_control.md R294 to R302); JMP, JSR and RTS have
none, their bodies are the micro-ops Jump, PushPCH, PushPCL, PullPCL, PullPCH and IncPC. -/

namespace Sys2Proof.Machine

/-- The common Exec of the branches: when taken, PC goes to ea and one Idle is appended, a second one when
the target is on another page than the next instruction (R294, 41_scheduler.md R174, 90_conflicts.md C4). -/
def branch (taken : Bool) (s : State) : State :=
  if taken then
    { s with
      pc := s.ea
      q := s.q ++ (if hi8 s.ea = hi8 s.pc then [.idle] else [.idle, .idle]) }
  else s

/-- BPL: taken if N = 0 (R295). -/
def bplCond (p : Byte) : Bool := !getFlag .n p
/-- BMI: taken if N = 1 (R296). -/
def bmiCond (p : Byte) : Bool := getFlag .n p
/-- BVC: taken if V = 0 (R297). -/
def bvcCond (p : Byte) : Bool := !getFlag .v p
/-- BVS: taken if V = 1 (R298). -/
def bvsCond (p : Byte) : Bool := getFlag .v p
/-- BCC: taken if C = 0 (R299). -/
def bccCond (p : Byte) : Bool := !getFlag .c p
/-- BCS: taken if C = 1 (R300). -/
def bcsCond (p : Byte) : Bool := getFlag .c p
/-- BNE: taken if Z = 0 (R301). -/
def bneCond (p : Byte) : Bool := !getFlag .z p
/-- BEQ: taken if Z = 1 (R302). -/
def beqCond (p : Byte) : Bool := getFlag .z p

/-- BPL's Exec (R295). -/
def bplBody (s : State) : State := branch (bplCond s.p) s
/-- BMI's Exec (R296). -/
def bmiBody (s : State) : State := branch (bmiCond s.p) s
/-- BVC's Exec (R297). -/
def bvcBody (s : State) : State := branch (bvcCond s.p) s
/-- BVS's Exec (R298). -/
def bvsBody (s : State) : State := branch (bvsCond s.p) s
/-- BCC's Exec (R299). -/
def bccBody (s : State) : State := branch (bccCond s.p) s
/-- BCS's Exec (R300). -/
def bcsBody (s : State) : State := branch (bcsCond s.p) s
/-- BNE's Exec (R301). -/
def bneBody (s : State) : State := branch (bneCond s.p) s
/-- BEQ's Exec (R302). -/
def beqBody (s : State) : State := branch (beqCond s.p) s

end Sys2Proof.Machine
end

