-- ==== Sys2Proof/Machine/LoadBodies.lean ====
section
/-! DEFINITION. The Exec bodies of loads and transfers (42_load_store_transfer.md); the stores have none,
their body is staging and Write. -/

namespace Sys2Proof.Machine

/-- LDA: `A <- m; setNZ(A)` (R201). -/
def ldaBody (s : State) : State := { s with a := s.m, p := setNZ s.m s.p }

/-- LDX: `X <- m; setNZ(X)` (R202). -/
def ldxBody (s : State) : State := { s with x := s.m, p := setNZ s.m s.p }

/-- LDY: `Y <- m; setNZ(Y)` (R203). -/
def ldyBody (s : State) : State := { s with y := s.m, p := setNZ s.m s.p }

/-- TAX: `X <- A; setNZ(X)` (R207). -/
def taxBody (s : State) : State := { s with x := s.a, p := setNZ s.a s.p }

/-- TAY: `Y <- A; setNZ(Y)` (R208). -/
def tayBody (s : State) : State := { s with y := s.a, p := setNZ s.a s.p }

/-- TXA: `A <- X; setNZ(A)` (R209). -/
def txaBody (s : State) : State := { s with a := s.x, p := setNZ s.x s.p }

/-- TYA: `A <- Y; setNZ(A)` (R210). -/
def tyaBody (s : State) : State := { s with a := s.y, p := setNZ s.y s.p }

/-- TSX: `X <- SP; setNZ(X)` (R211). -/
def tsxBody (s : State) : State := { s with x := s.sp, p := setNZ s.sp s.p }

/-- TXS: `SP <- X`, no flag (R212, 90_conflicts.md C7). -/
def txsBody (s : State) : State := { s with sp := s.x }

end Sys2Proof.Machine
end

