-- ==== Sys2Proof/Decode.lean ====
section
/-! DEFINITION. The decoder: decode_type, decode_mode and operand_count (30_encoding.md R94 to R96) from
the complete opcode matrix (R103), operand assembly (R105), the decoder of a byte list, and after it the
encoder, written from the opcode lists of the instruction rules. -/

namespace Sys2Proof

open Sys2Proof.Machine

/-- "ILL" in the matrix: (Illegal, NONE) (30_encoding.md R103). -/
def ill : InstrType × Mode := (.illegal, .none)

/-- Row 0x of the matrix (30_encoding.md R103). -/
def row0 : List (InstrType × Mode) :=
  [(.brk, .imp), (.ora, .izx), ill, ill,
   ill, (.ora, .zp), (.asl, .zp), ill,
   (.php, .imp), (.ora, .imm), (.asl, .acc), ill,
   ill, (.ora, .abs), (.asl, .abs), ill]

/-- Row 1x of the matrix (30_encoding.md R103). -/
def row1 : List (InstrType × Mode) :=
  [(.bpl, .rel), (.ora, .izy), ill, ill,
   ill, (.ora, .zpx), (.asl, .zpx), ill,
   (.clc, .imp), (.ora, .aby), ill, ill,
   ill, (.ora, .abx), (.asl, .abx), ill]

/-- Row 2x of the matrix (30_encoding.md R103). -/
def row2 : List (InstrType × Mode) :=
  [(.jsr, .abs), (.and, .izx), ill, ill,
   (.bit, .zp), (.and, .zp), (.rol, .zp), ill,
   (.plp, .imp), (.and, .imm), (.rol, .acc), ill,
   (.bit, .abs), (.and, .abs), (.rol, .abs), ill]

/-- Row 3x of the matrix (30_encoding.md R103). -/
def row3 : List (InstrType × Mode) :=
  [(.bmi, .rel), (.and, .izy), ill, ill,
   ill, (.and, .zpx), (.rol, .zpx), ill,
   (.sec, .imp), (.and, .aby), ill, ill,
   ill, (.and, .abx), (.rol, .abx), ill]

/-- Row 4x of the matrix (30_encoding.md R103). -/
def row4 : List (InstrType × Mode) :=
  [(.rti, .imp), (.eor, .izx), ill, ill,
   ill, (.eor, .zp), (.lsr, .zp), ill,
   (.pha, .imp), (.eor, .imm), (.lsr, .acc), ill,
   (.jmp, .abs), (.eor, .abs), (.lsr, .abs), ill]

/-- Row 5x of the matrix (30_encoding.md R103). -/
def row5 : List (InstrType × Mode) :=
  [(.bvc, .rel), (.eor, .izy), ill, ill,
   ill, (.eor, .zpx), (.lsr, .zpx), ill,
   (.cli, .imp), (.eor, .aby), ill, ill,
   ill, (.eor, .abx), (.lsr, .abx), ill]

/-- Row 6x of the matrix (30_encoding.md R103). -/
def row6 : List (InstrType × Mode) :=
  [(.rts, .imp), (.adc, .izx), ill, ill,
   ill, (.adc, .zp), (.ror, .zp), ill,
   (.pla, .imp), (.adc, .imm), (.ror, .acc), ill,
   (.jmp, .ind), (.adc, .abs), (.ror, .abs), ill]

/-- Row 7x of the matrix (30_encoding.md R103). -/
def row7 : List (InstrType × Mode) :=
  [(.bvs, .rel), (.adc, .izy), ill, ill,
   ill, (.adc, .zpx), (.ror, .zpx), ill,
   (.sei, .imp), (.adc, .aby), ill, ill,
   ill, (.adc, .abx), (.ror, .abx), ill]

/-- Row 8x of the matrix (30_encoding.md R103). -/
def row8 : List (InstrType × Mode) :=
  [ill, (.sta, .izx), ill, ill,
   (.sty, .zp), (.sta, .zp), (.stx, .zp), ill,
   (.dey, .imp), ill, (.txa, .imp), ill,
   (.sty, .abs), (.sta, .abs), (.stx, .abs), ill]

/-- Row 9x of the matrix (30_encoding.md R103). -/
def row9 : List (InstrType × Mode) :=
  [(.bcc, .rel), (.sta, .izy), ill, ill,
   (.sty, .zpx), (.sta, .zpx), (.stx, .zpy), ill,
   (.tya, .imp), (.sta, .aby), (.txs, .imp), ill,
   ill, (.sta, .abx), ill, ill]

/-- Row Ax of the matrix (30_encoding.md R103). -/
def rowA : List (InstrType × Mode) :=
  [(.ldy, .imm), (.lda, .izx), (.ldx, .imm), ill,
   (.ldy, .zp), (.lda, .zp), (.ldx, .zp), ill,
   (.tay, .imp), (.lda, .imm), (.tax, .imp), ill,
   (.ldy, .abs), (.lda, .abs), (.ldx, .abs), ill]

/-- Row Bx of the matrix (30_encoding.md R103). -/
def rowB : List (InstrType × Mode) :=
  [(.bcs, .rel), (.lda, .izy), ill, ill,
   (.ldy, .zpx), (.lda, .zpx), (.ldx, .zpy), ill,
   (.clv, .imp), (.lda, .aby), (.tsx, .imp), ill,
   (.ldy, .abx), (.lda, .abx), (.ldx, .aby), ill]

/-- Row Cx of the matrix (30_encoding.md R103). -/
def rowC : List (InstrType × Mode) :=
  [(.cpy, .imm), (.cmp, .izx), ill, ill,
   (.cpy, .zp), (.cmp, .zp), (.dec, .zp), ill,
   (.iny, .imp), (.cmp, .imm), (.dex, .imp), ill,
   (.cpy, .abs), (.cmp, .abs), (.dec, .abs), ill]

/-- Row Dx of the matrix (30_encoding.md R103). -/
def rowD : List (InstrType × Mode) :=
  [(.bne, .rel), (.cmp, .izy), ill, ill,
   ill, (.cmp, .zpx), (.dec, .zpx), ill,
   (.cld, .imp), (.cmp, .aby), ill, ill,
   ill, (.cmp, .abx), (.dec, .abx), ill]

/-- Row Ex of the matrix (30_encoding.md R103). -/
def rowE : List (InstrType × Mode) :=
  [(.cpx, .imm), (.sbc, .izx), ill, ill,
   (.cpx, .zp), (.sbc, .zp), (.inc, .zp), ill,
   (.inx, .imp), (.sbc, .imm), (.nop, .imp), ill,
   (.cpx, .abs), (.sbc, .abs), (.inc, .abs), ill]

/-- Row Fx of the matrix (30_encoding.md R103). -/
def rowF : List (InstrType × Mode) :=
  [(.beq, .rel), (.sbc, .izy), ill, ill,
   ill, (.sbc, .zpx), (.inc, .zpx), ill,
   (.sed, .imp), (.sbc, .aby), ill, ill,
   ill, (.sbc, .abx), (.inc, .abx), ill]

/-- The complete opcode matrix, by high nibble (30_encoding.md R103). -/
def matrix : List (List (InstrType × Mode)) :=
  [row0, row1, row2, row3, row4, row5, row6, row7] ++
  [row8, row9, rowA, rowB, rowC, rowD, rowE, rowF]

/-- The matrix entry of a byte: row its high nibble, column its low nibble (30_encoding.md R103). -/
def decodePair (b : Byte) : InstrType × Mode :=
  (matrix.getD (b.toNat / 16) []).getD (b.toNat % 16) ill

/-- `decode_type` (30_encoding.md R94). -/
def decodeType (b : Byte) : InstrType := (decodePair b).1

/-- `decode_mode` (30_encoding.md R95). -/
def decodeMode (b : Byte) : Mode := (decodePair b).2

/-- `operand_count` (30_encoding.md R96). -/
def operandCount : Mode → Nat
  | .imp | .acc | .none => 0
  | .imm | .zp | .zpx | .zpy | .rel | .izx | .izy => 1
  | .abs | .abx | .aby | .ind => 2

/-- The length of the instruction an opcode byte begins (30_encoding.md R104). -/
def instrLength (b : Byte) : Nat := 1 + operandCount (decodeMode b)

/-- Operand assembly: the operand a mode makes of its operand bytes, low byte first (30_encoding.md R105). -/
def operandOf : Mode → List Byte → Option Operand
  | .acc, [] => some .acc
  | .imm, [b1] => some (.imm b1)
  | .zp, [b1] => some (.zp b1)
  | .zpx, [b1] => some (.zpx b1)
  | .zpy, [b1] => some (.zpy b1)
  | .abs, [b1, b2] => some (.abs (cat b2 b1))
  | .abx, [b1, b2] => some (.abx (cat b2 b1))
  | .aby, [b1, b2] => some (.aby (cat b2 b1))
  | .ind, [b1, b2] => some (.ind (cat b2 b1))
  | .izx, [b1] => some (.izx b1)
  | .izy, [b1] => some (.izy b1)
  | _, _ => none

/-- The one operand byte of a relative branch. -/
def offsetOf : List Byte → Option Byte
  | [b1] => some b1
  | _ => none

/-- The 16-bit operand of JSR. -/
def targetOf : List Byte → Option Addr
  | [b1, b2] => some (cat b2 b1)
  | _ => none

/-- An instruction without operand bytes. -/
def bare (i : Instr) : List Byte → Option Instr
  | [] => some i
  | _ => none

/-- The instruction an opcode byte and its operand bytes are; none where the number of bytes is wrong. -/
def instrOf (b : Byte) (opnds : List Byte) : Option Instr :=
  let o := operandOf (decodeMode b) opnds
  match decodeType b with
  | .lda => o.map .lda
  | .ldx => o.map .ldx
  | .ldy => o.map .ldy
  | .sta => o.map .sta
  | .stx => o.map .stx
  | .sty => o.map .sty
  | .tax => bare .tax opnds
  | .tay => bare .tay opnds
  | .txa => bare .txa opnds
  | .tya => bare .tya opnds
  | .tsx => bare .tsx opnds
  | .txs => bare .txs opnds
  | .adc => o.map .adc
  | .sbc => o.map .sbc
  | .and => o.map .and
  | .ora => o.map .ora
  | .eor => o.map .eor
  | .cmp => o.map .cmp
  | .cpx => o.map .cpx
  | .cpy => o.map .cpy
  | .bit => o.map .bit
  | .inc => o.map .inc
  | .dec => o.map .dec
  | .inx => bare .inx opnds
  | .iny => bare .iny opnds
  | .dex => bare .dex opnds
  | .dey => bare .dey opnds
  | .asl => o.map .asl
  | .lsr => o.map .lsr
  | .rol => o.map .rol
  | .ror => o.map .ror
  | .jmp => o.map .jmp
  | .jsr => (targetOf opnds).map .jsr
  | .rts => bare .rts opnds
  | .bpl => (offsetOf opnds).map .bpl
  | .bmi => (offsetOf opnds).map .bmi
  | .bvc => (offsetOf opnds).map .bvc
  | .bvs => (offsetOf opnds).map .bvs
  | .bcc => (offsetOf opnds).map .bcc
  | .bcs => (offsetOf opnds).map .bcs
  | .bne => (offsetOf opnds).map .bne
  | .beq => (offsetOf opnds).map .beq
  | .pha => bare .pha opnds
  | .php => bare .php opnds
  | .pla => bare .pla opnds
  | .plp => bare .plp opnds
  | .brk => bare .brk opnds
  | .rti => bare .rti opnds
  | .clc => bare .clc opnds
  | .sec => bare .sec opnds
  | .cli => bare .cli opnds
  | .sei => bare .sei opnds
  | .clv => bare .clv opnds
  | .cld => bare .cld opnds
  | .sed => bare .sed opnds
  | .nop => bare .nop opnds
  | .illegal => bare (.illegal b) opnds

/-- Why a byte list does not begin with a whole instruction. No byte VALUE is rejected: every opcode
byte decodes (30_encoding.md R94, R108), so only a list that ends too early is. -/
inductive DecodeError where
  /-- the list is empty: there is no opcode byte -/
  | noOpcode
  /-- fewer operand bytes follow than the opcode's mode needs -/
  | operandMissing
  deriving DecidableEq, Repr

/-- The first instruction of a byte list, and the bytes after it. -/
def decode : List Byte → Except DecodeError (Instr × List Byte)
  | [] => .error .noOpcode
  | b :: rest =>
    match instrOf b (rest.take (operandCount (decodeMode b))) with
    | some i => .ok (i, rest.drop (operandCount (decodeMode b)))
    | none => .error .operandMissing

/-- The three bytes of a table word: bit 0 is the least significant bit of the first byte; every bit
above `nbits` is 0. Three bytes is the longest instruction (30_encoding.md R91). -/
def tableBytes (nbits w : Nat) : List Byte :=
  let v := w % 2 ^ nbits
  [BitVec.ofNat 8 v, BitVec.ofNat 8 (v / 256), BitVec.ofNat 8 (v / 65536)]

/-- The instruction the decoder reads from a table word (see `tableBytes`). -/
def decodeTableWord (nbits w : Nat) : Option Instr :=
  match decode (tableBytes nbits w) with
  | .ok (i, _) => some i
  | .error _ => none

/-! ## The encoder -/

/-- The opcode bytes of each instruction type by mode, as the "Opcodes:" line of each instruction's rule
lists them (42_load_store_transfer.md R201 to 46_stack_flags_system.md R334). -/
def opcodesOf : InstrType → List (Mode × Byte)
  | .lda => [(.imm, 0xA9), (.zp, 0xA5), (.zpx, 0xB5), (.abs, 0xAD), (.abx, 0xBD), (.aby, 0xB9), (.izx, 0xA1), (.izy, 0xB1)]
  | .ldx => [(.imm, 0xA2), (.zp, 0xA6), (.zpy, 0xB6), (.abs, 0xAE), (.aby, 0xBE)]
  | .ldy => [(.imm, 0xA0), (.zp, 0xA4), (.zpx, 0xB4), (.abs, 0xAC), (.abx, 0xBC)]
  | .sta => [(.zp, 0x85), (.zpx, 0x95), (.abs, 0x8D), (.abx, 0x9D), (.aby, 0x99), (.izx, 0x81), (.izy, 0x91)]
  | .stx => [(.zp, 0x86), (.zpy, 0x96), (.abs, 0x8E)]
  | .sty => [(.zp, 0x84), (.zpx, 0x94), (.abs, 0x8C)]
  | .tax => [(.imp, 0xAA)]
  | .tay => [(.imp, 0xA8)]
  | .txa => [(.imp, 0x8A)]
  | .tya => [(.imp, 0x98)]
  | .tsx => [(.imp, 0xBA)]
  | .txs => [(.imp, 0x9A)]
  | .adc => [(.imm, 0x69), (.zp, 0x65), (.zpx, 0x75), (.abs, 0x6D), (.abx, 0x7D), (.aby, 0x79), (.izx, 0x61), (.izy, 0x71)]
  | .sbc => [(.imm, 0xE9), (.zp, 0xE5), (.zpx, 0xF5), (.abs, 0xED), (.abx, 0xFD), (.aby, 0xF9), (.izx, 0xE1), (.izy, 0xF1)]
  | .and => [(.imm, 0x29), (.zp, 0x25), (.zpx, 0x35), (.abs, 0x2D), (.abx, 0x3D), (.aby, 0x39), (.izx, 0x21), (.izy, 0x31)]
  | .ora => [(.imm, 0x09), (.zp, 0x05), (.zpx, 0x15), (.abs, 0x0D), (.abx, 0x1D), (.aby, 0x19), (.izx, 0x01), (.izy, 0x11)]
  | .eor => [(.imm, 0x49), (.zp, 0x45), (.zpx, 0x55), (.abs, 0x4D), (.abx, 0x5D), (.aby, 0x59), (.izx, 0x41), (.izy, 0x51)]
  | .cmp => [(.imm, 0xC9), (.zp, 0xC5), (.zpx, 0xD5), (.abs, 0xCD), (.abx, 0xDD), (.aby, 0xD9), (.izx, 0xC1), (.izy, 0xD1)]
  | .cpx => [(.imm, 0xE0), (.zp, 0xE4), (.abs, 0xEC)]
  | .cpy => [(.imm, 0xC0), (.zp, 0xC4), (.abs, 0xCC)]
  | .bit => [(.zp, 0x24), (.abs, 0x2C)]
  | .inc => [(.zp, 0xE6), (.zpx, 0xF6), (.abs, 0xEE), (.abx, 0xFE)]
  | .dec => [(.zp, 0xC6), (.zpx, 0xD6), (.abs, 0xCE), (.abx, 0xDE)]
  | .inx => [(.imp, 0xE8)]
  | .iny => [(.imp, 0xC8)]
  | .dex => [(.imp, 0xCA)]
  | .dey => [(.imp, 0x88)]
  | .asl => [(.acc, 0x0A), (.zp, 0x06), (.zpx, 0x16), (.abs, 0x0E), (.abx, 0x1E)]
  | .lsr => [(.acc, 0x4A), (.zp, 0x46), (.zpx, 0x56), (.abs, 0x4E), (.abx, 0x5E)]
  | .rol => [(.acc, 0x2A), (.zp, 0x26), (.zpx, 0x36), (.abs, 0x2E), (.abx, 0x3E)]
  | .ror => [(.acc, 0x6A), (.zp, 0x66), (.zpx, 0x76), (.abs, 0x6E), (.abx, 0x7E)]
  | .jmp => [(.abs, 0x4C), (.ind, 0x6C)]
  | .jsr => [(.abs, 0x20)]
  | .rts => [(.imp, 0x60)]
  | .bpl => [(.rel, 0x10)]
  | .bmi => [(.rel, 0x30)]
  | .bvc => [(.rel, 0x50)]
  | .bvs => [(.rel, 0x70)]
  | .bcc => [(.rel, 0x90)]
  | .bcs => [(.rel, 0xB0)]
  | .bne => [(.rel, 0xD0)]
  | .beq => [(.rel, 0xF0)]
  | .pha => [(.imp, 0x48)]
  | .php => [(.imp, 0x08)]
  | .pla => [(.imp, 0x68)]
  | .plp => [(.imp, 0x28)]
  | .brk => [(.imp, 0x00)]
  | .rti => [(.imp, 0x40)]
  | .clc => [(.imp, 0x18)]
  | .sec => [(.imp, 0x38)]
  | .cli => [(.imp, 0x58)]
  | .sei => [(.imp, 0x78)]
  | .clv => [(.imp, 0xB8)]
  | .cld => [(.imp, 0xD8)]
  | .sed => [(.imp, 0xF8)]
  | .nop => [(.imp, 0xEA)]
  | .illegal => []

/-- The operand bytes of an operand, low byte first (30_encoding.md R105). -/
def Operand.bytes : Operand → List Byte
  | .acc => []
  | .imm b1 | .zp b1 | .zpx b1 | .zpy b1 | .izx b1 | .izy b1 => [b1]
  | .abs w | .abx w | .aby w | .ind w => [lo8 w, hi8 w]

/-- The operand bytes of an instruction, in fetch order (30_encoding.md R91). -/
def Instr.operandBytes : Instr → List Byte
  | .lda o | .ldx o | .ldy o | .sta o | .stx o | .sty o
  | .adc o | .sbc o | .and o | .ora o | .eor o
  | .cmp o | .cpx o | .cpy o | .bit o | .inc o | .dec o
  | .asl o | .lsr o | .rol o | .ror o | .jmp o => o.bytes
  | .jsr w => [lo8 w, hi8 w]
  | .bpl b1 | .bmi b1 | .bvc b1 | .bvs b1 | .bcc b1 | .bcs b1 | .bne b1 | .beq b1 => [b1]
  | .tax | .tay | .txa | .tya | .tsx | .txs | .inx | .iny | .dex | .dey | .rts
  | .pha | .php | .pla | .plp | .brk | .rti
  | .clc | .sec | .cli | .sei | .clv | .cld | .sed | .nop | .illegal _ => []

/-- The opcode byte of an instruction: from the opcode lists, and for Illegal the byte it carries if the
matrix has it as Illegal. None for a form the instruction does not have. -/
def Instr.opcode? (i : Instr) : Option Byte :=
  match i with
  | .illegal b => if decodeType b = .illegal then some b else none
  | _ => (opcodesOf i.type).lookup i.mode

/-- The bytes of an instruction; none for a term that is not well-formed. -/
def encode (i : Instr) : Option (List Byte) :=
  i.opcode?.map (· :: i.operandBytes)

end Sys2Proof
end

