-- ==== Sys2Proof/Machine/Operands.lean ====
section
/-! DEFINITION. The address-mode resolver (40_address_modes.md): the effective address of every mode, the
value an operand gives, staging, and the Resolve micro-op. -/

namespace Sys2Proof.Machine

/-- The effective address of each mode that has one, from the operand bytes, with the bus after the
pointer reads the mode makes (40_address_modes.md R132 to R138, R141). A mode without an effective
address, or the wrong number of operand bytes, is an internal fault. -/
def effAddr (md : Mode) (opnds : List Byte) (s : State) : Res (Addr × Bus) :=
  match md, opnds with
  | .zp, [b1] => .next (zext16 b1, s.bus)
  | .zpx, [b1] => .next (zext16 (b1 + s.x), s.bus)
  | .zpy, [b1] => .next (zext16 (b1 + s.y), s.bus)
  | .izx, [b1] => s.bus.readWord (zext16 (b1 + s.x))
  | .izy, [b1] => andThen (s.bus.readWord (zext16 b1)) fun r => .next (r.1 + zext16 s.y, r.2)
  | .rel, [b1] => .next (s.pc + sext16 b1, s.bus)
  | .abs, [b1, b2] => .next (cat b2 b1, s.bus)
  | .abx, [b1, b2] => .next (cat b2 b1 + zext16 s.x, s.bus)
  | .aby, [b1, b2] => .next (cat b2 b1 + zext16 s.y, s.bus)
  | .ind, [b1, b2] => s.bus.readWord (cat b2 b1)
  | _, _ => .fault (.internalFault .operands)

/-- The part of Resolve that is the mode's: `m` for IMM and ACC, nothing for IMP and NONE, `ea` for every
other mode (40_address_modes.md R131 to R141). -/
def resolveMode (md : Mode) (opnds : List Byte) (s : State) : Res State :=
  match md with
  | .imp | .none => .next s
  | .acc => .next { s with m := s.a }
  | .imm =>
    match opnds with
    | [b1] => .next { s with m := b1 }
    | _ => .fault (.internalFault .operands)
  | .zp | .zpx | .zpy | .abs | .abx | .aby | .izx | .izy | .ind | .rel =>
    andThen (effAddr md opnds s) fun r => .next { s with ea := r.1, bus := r.2 }

/-- Staging: the latch a later micro-op of the same instruction writes out (40_address_modes.md R143). -/
def stage (t : InstrType) (s : State) : State :=
  match t with
  | .sta => { s with sv := s.a }
  | .stx => { s with sv := s.x }
  | .sty => { s with sv := s.y }
  | .jsr => { s with ret := s.pc - 1 }
  | .brk => { s with ret := s.pc + 1 }
  | _ => s

/-- The Resolve micro-op (40_address_modes.md R130). -/
def resolve (s : State) : Res State :=
  andThen (resolveMode s.ins.2 s.opnds s) fun s1 => .next (stage s.ins.1 s1)

/-- The effective address of an operand form, as Resolve computes it, with the bus after its pointer
reads. -/
def operandAddr (o : Operand) (s : State) : Res (Addr × Bus) :=
  effAddr o.mode o.bytes s

/-- The value a READ or RMW instruction gets for an operand form: the immediate byte, A, or the byte read
at the effective address; with the bus after the reads (42_load_store_transfer.md R200). -/
def operandValue (o : Operand) (s : State) : Res (Byte × Bus) :=
  match o with
  | .imm b1 => .next (b1, s.bus)
  | .acc => .next (s.a, s.bus)
  | o => andThen (operandAddr o s) fun r => r.2.read r.1

end Sys2Proof.Machine
end

