-- ==== Sys2Proof/Machine/Queue.lean ====
section
/-! DEFINITION. Micro-op costs and the queue of each instruction (41_scheduler.md R161, R163, R171, R178),
with the access classes (40_address_modes.md R142). -/

namespace Sys2Proof.Machine

/-- The cost of each micro-op kind (41_scheduler.md R163). -/
def cost : MicroOp → Nat
  | .resolve | .exec | .jump => 0
  | .read | .write | .idle | .modify | .pushA | .pushP | .pushPCH | .pushPCL
  | .pullA | .pullP | .pullPCL | .pullPCH | .incPC | .vector => 1

/-- The total cost of a list of micro-ops. -/
def totalCost : List MicroOp → Nat
  | [] => 0
  | k :: rest => cost k + totalCost rest

/-- The access classes (40_address_modes.md R142). -/
inductive AccessClass where
  | read | store | rmw | jump | other
  deriving DecidableEq, Repr

/-- The access class of an instruction type in a mode; RMW applies only in a memory mode
(40_address_modes.md R142, 41_scheduler.md R178). -/
def accessClass (t : InstrType) (md : Mode) : AccessClass :=
  match t with
  | .lda | .ldx | .ldy | .and | .ora | .eor | .adc | .sbc | .cmp | .cpx | .cpy | .bit => .read
  | .sta | .stx | .sty => .store
  | .asl | .lsr | .rol | .ror => if md = .acc then .other else .rmw
  | .inc | .dec => .rmw
  | .jmp | .jsr => .jump
  | .tax | .tay | .txa | .tya | .tsx | .txs | .inx | .iny | .dex | .dey | .rts
  | .bpl | .bmi | .bvc | .bvs | .bcc | .bcs | .bne | .beq
  | .pha | .php | .pla | .plp | .brk | .rti
  | .clc | .sec | .cli | .sei | .clv | .cld | .sed | .nop | .illegal => .other

/-- `addr_ops` by mode and class (41_scheduler.md R178); a pair the table leaves out, which no opcode
uses, has none. -/
def addrOps (md : Mode) (c : AccessClass) : List MicroOp :=
  match c, md with
  | .read, .zp | .read, .abs | .read, .abx | .read, .aby => [.read]
  | .read, .zpx | .read, .zpy => [.idle, .read]
  | .read, .izx => [.idle, .idle, .idle, .read]
  | .read, .izy => [.idle, .idle, .read]
  | .store, .zp | .store, .abs => [.write]
  | .store, .zpx | .store, .zpy | .store, .abx | .store, .aby => [.idle, .write]
  | .store, .izx | .store, .izy => [.idle, .idle, .idle, .write]
  | .rmw, .zp | .rmw, .abs => [.read]
  | .rmw, .zpx | .rmw, .zpy | .rmw, .abx | .rmw, .aby => [.idle, .read]
  | .jump, .ind => [.idle, .idle]
  | _, _ => []

/-- `handler_ops` by instruction (41_scheduler.md R178). -/
def handlerOps (t : InstrType) (md : Mode) : List MicroOp :=
  match t with
  | .lda | .ldx | .ldy | .and | .ora | .eor | .adc | .sbc | .cmp | .cpx | .cpy | .bit => [.exec]
  | .sta | .stx | .sty => []
  | .asl | .lsr | .rol | .ror => if md = .acc then [.exec] else [.modify, .write]
  | .inc | .dec => [.modify, .write]
  | .jmp => [.jump]
  | .jsr => [.idle, .pushPCH, .pushPCL, .jump]
  | .rts => [.idle, .idle, .pullPCL, .pullPCH, .incPC]
  | .rti => [.idle, .idle, .pullP, .pullPCL, .pullPCH]
  | .brk => [.idle, .pushPCH, .pushPCL, .pushP, .idle, .vector]
  | .pha => [.idle, .pushA]
  | .php => [.idle, .pushP]
  | .pla => [.idle, .idle, .pullA]
  | .plp => [.idle, .idle, .pullP]
  | .bpl | .bmi | .bvc | .bvs | .bcc | .bcs | .bne | .beq => [.exec]
  | .tax | .tay | .txa | .tya | .tsx | .txs | .inx | .iny | .dex | .dey
  | .clc | .sec | .cli | .sei | .clv | .cld | .sed | .nop => [.exec]
  | .illegal => [.exec]

/-- The static list before the settle. -/
def staticOps (t : InstrType) (md : Mode) : List MicroOp :=
  [.resolve] ++ addrOps md (accessClass t md) ++ handlerOps t md

/-- `build_queue(t, md)`, with the settle Idle exactly when the instruction has no operand bytes and its
list costs 0 (41_scheduler.md R171, R178; 90_conflicts.md C3). -/
def buildQueue (t : InstrType) (md : Mode) : List MicroOp :=
  if operandCount md = 0 ∧ totalCost (staticOps t md) = 0 then staticOps t md ++ [.idle]
  else staticOps t md

end Sys2Proof.Machine
end

