-- ==== Sys2Proof/Machine/ShiftBodies.lean ====
section
/-! DEFINITION. The Exec (accumulator) and Modify (memory) bodies of the shifts and rotates
(44_shift_rotate.md R270). -/

namespace Sys2Proof.Machine

/-- Exec in Accumulator mode: the result goes to A, the carry and Z, N to P (R270). -/
def shiftExec (f : Byte → Bool → Byte × Bool) (s : State) : State :=
  let r := f s.m (getFlag .c s.p)
  { s with a := r.1, p := shiftFlags r s.p }

/-- Modify in a memory mode: the result goes to sv, the carry and Z, N to P (R270). -/
def shiftModify (f : Byte → Bool → Byte × Bool) (s : State) : State :=
  let r := f s.m (getFlag .c s.p)
  { s with sv := r.1, p := shiftFlags r s.p }

/-- ASL A (R271). -/
def aslExec (s : State) : State := shiftExec aslFn s
/-- ASL on memory (R271). -/
def aslModify (s : State) : State := shiftModify aslFn s
/-- LSR A (R272). -/
def lsrExec (s : State) : State := shiftExec lsrFn s
/-- LSR on memory (R272). -/
def lsrModify (s : State) : State := shiftModify lsrFn s
/-- ROL A (R273). -/
def rolExec (s : State) : State := shiftExec rolFn s
/-- ROL on memory (R273). -/
def rolModify (s : State) : State := shiftModify rolFn s
/-- ROR A (R274). -/
def rorExec (s : State) : State := shiftExec rorFn s
/-- ROR on memory (R274). -/
def rorModify (s : State) : State := shiftModify rorFn s

end Sys2Proof.Machine
end

