-- ==== Sys2Proof/Machine/SystemBodies.lean ====
section
/-! DEFINITION. The Exec bodies of the flag instructions, NOP and Illegal (46_stack_flags_system.md R327 to
R335); the stack and trap instructions have none, their bodies are stack and vector micro-ops. -/

namespace Sys2Proof.Machine

/-- CLC: `P.C <- 0` (R327). -/
def clcBody (s : State) : State := { s with p := setFlag .c false s.p }
/-- SEC: `P.C <- 1` (R328). -/
def secBody (s : State) : State := { s with p := setFlag .c true s.p }
/-- CLI: `P.I <- 0` (R329). -/
def cliBody (s : State) : State := { s with p := setFlag .i false s.p }
/-- SEI: `P.I <- 1` (R330). -/
def seiBody (s : State) : State := { s with p := setFlag .i true s.p }
/-- CLV: `P.V <- 0` (R331). -/
def clvBody (s : State) : State := { s with p := setFlag .v false s.p }
/-- CLD: `P.D <- 0` (R332). -/
def cldBody (s : State) : State := { s with p := setFlag .d false s.p }
/-- SED: `P.D <- 1` (R333). -/
def sedBody (s : State) : State := { s with p := setFlag .d true s.p }
/-- NOP: an empty body (R334). -/
def nopBody (s : State) : State := s
/-- Illegal: an empty body (R335). -/
def illegalBody (s : State) : State := s

end Sys2Proof.Machine
end

