-- ==== Sys2Proof/Machine/Tick.lean ====
section
/-! DEFINITION. The scheduler (41_scheduler.md): the micro-op bodies by kind (R163), the drain under the
per-tick budget (R169), completion (R170), fetch (R166), the tick in full (R162), and the run of one decoded
instruction to its completion, which the meanings call. -/

namespace Sys2Proof.Machine

/-- The Exec micro-op: the execution handler of the latched instruction type (41_scheduler.md R163). A type
whose queue holds no Exec has none. -/
def execBody (t : InstrType) (s : State) : Res State :=
  match t with
  | .lda => .next (ldaBody s)
  | .ldx => .next (ldxBody s)
  | .ldy => .next (ldyBody s)
  | .tax => .next (taxBody s)
  | .tay => .next (tayBody s)
  | .txa => .next (txaBody s)
  | .tya => .next (tyaBody s)
  | .tsx => .next (tsxBody s)
  | .txs => .next (txsBody s)
  | .adc => .next (adcBody s)
  | .sbc => .next (sbcBody s)
  | .and => .next (andBody s)
  | .ora => .next (oraBody s)
  | .eor => .next (eorBody s)
  | .cmp => .next (cmpBody s)
  | .cpx => .next (cpxBody s)
  | .cpy => .next (cpyBody s)
  | .bit => .next (bitBody s)
  | .inx => .next (inxBody s)
  | .iny => .next (inyBody s)
  | .dex => .next (dexBody s)
  | .dey => .next (deyBody s)
  | .asl => .next (aslExec s)
  | .lsr => .next (lsrExec s)
  | .rol => .next (rolExec s)
  | .ror => .next (rorExec s)
  | .bpl => .next (bplBody s)
  | .bmi => .next (bmiBody s)
  | .bvc => .next (bvcBody s)
  | .bvs => .next (bvsBody s)
  | .bcc => .next (bccBody s)
  | .bcs => .next (bcsBody s)
  | .bne => .next (bneBody s)
  | .beq => .next (beqBody s)
  | .clc => .next (clcBody s)
  | .sec => .next (secBody s)
  | .cli => .next (cliBody s)
  | .sei => .next (seiBody s)
  | .clv => .next (clvBody s)
  | .cld => .next (cldBody s)
  | .sed => .next (sedBody s)
  | .nop => .next (nopBody s)
  | .illegal => .next (illegalBody s)
  | .sta | .stx | .sty | .inc | .dec | .jmp | .jsr | .rts
  | .pha | .php | .pla | .plp | .brk | .rti => .fault (.internalFault .handler)

/-- The Modify micro-op: the read-modify-write step of the latched instruction type (41_scheduler.md
R163). -/
def modifyBody (t : InstrType) (s : State) : Res State :=
  match t with
  | .inc => .next (incBody s)
  | .dec => .next (decBody s)
  | .asl => .next (aslModify s)
  | .lsr => .next (lsrModify s)
  | .rol => .next (rolModify s)
  | .ror => .next (rorModify s)
  | _ => .fault (.internalFault .handler)

/-- `perform(k)`: the body of each micro-op kind (41_scheduler.md R163). -/
def perform (k : MicroOp) (s : State) : Res State :=
  match k with
  | .resolve => resolve s
  | .read => doRead s
  | .write => doWrite s
  | .idle => .next s
  | .exec => execBody s.ins.1 s
  | .modify => modifyBody s.ins.1 s
  | .jump => .next (doJump s)
  | .pushA => doPushA s
  | .pushP => doPushP s
  | .pushPCH => doPushPCH s
  | .pushPCL => doPushPCL s
  | .pullA => doPullA s
  | .pullP => doPullP s
  | .pullPCL => doPullPCL s
  | .pullPCH => doPullPCH s
  | .incPC => .next (doIncPC s)
  | .vector => doVector s

/-- The loop of the execute step: micro-ops run from the head while the total of costs, the head's
included, stays below the limit (41_scheduler.md R162, R169). `fuel` bounds the passes. -/
def drain : Nat → Nat → Nat → State → Res State
  | 0, limit, spent, s =>
    match s.q with
    | [] => .next s
    | k :: _ => if spent + cost k < limit then .fault (.internalFault .bound) else .next s
  | fuel + 1, limit, spent, s =>
    match s.q with
    | [] => .next s
    | k :: rest =>
      if spent + cost k < limit then
        andThen (perform k { s with q := rest }) (drain fuel limit (spent + cost k))
      else .next s

/-- What the trace sink receives of a state (60_exceptions.md R371). -/
def snapshotOf (s : State) : Snapshot := { regs := s.regs, cycles := s.cycles }

/-- The end of a tick: cycles counts it (41_scheduler.md R173), and where the execute step emptied a queue
that was not empty, the instruction is complete: the slots are cleared (R170) and the sink is called with
the values after the tick (60_exceptions.md R371). -/
def endTick (active : Bool) (s : State) : State :=
  let s1 := { s with cycles := s.cycles + 1 }
  if active && s1.q.isEmpty then
    { s1 with op := none, opnds := [], sink := snapshotOf s1 :: s1.sink }
  else s1

/-- Steps 3 and completion of the tick, with the limit of this tick (41_scheduler.md R162). A pass of the
loop pops one micro-op, and a branch can add at most one that still runs in this tick. -/
def executeStep (limit : Nat) (s : State) : Res State :=
  andThen (drain (s.q.length + 1) limit 0 s) fun s1 => .next (endTick (!s.q.isEmpty) s1)

/-- Steps 1 and 2 of the tick up to the decode: one byte is read at PC, PC advances, the byte goes to the
opcode slot or the operand buffer, and the instruction latch is decoded (41_scheduler.md R162, R166). -/
def fetchByte (s : State) : Res State :=
  andThen (s.bus.read s.pc) fun r =>
    let s1 := { s with pc := s.pc + 1, bus := r.2 }
    match s.op with
    | none => .next { s1 with op := some r.1, ins := decodePair r.1 }
    | some b => .next { s1 with opnds := s.opnds ++ [r.1], ins := decodePair b }

/-- The operand bytes of the opcode in the slot are all collected (41_scheduler.md R162). -/
def operandsComplete (s : State) : Bool :=
  match s.op with
  | none => false
  | some b => s.opnds.length == operandCount (decodeMode b)

/-- The tick, in full (41_scheduler.md R162): with an empty queue it fetches, and decodes when the operands
are complete, where the limit is 1; otherwise it only executes, where the limit is 2. -/
def tick (s : State) : Res State :=
  if s.q.isEmpty then
    andThen (fetchByte s) fun s1 =>
      if operandsComplete s1 then
        executeStep 1 { s1 with q := buildQueue s1.ins.1 s1.ins.2 }
      else executeStep 2 s1
  else executeStep 2 s

/-- Ticks until the queue is empty, at most `fuel` of them: the rest of an instruction whose queue is
built. -/
def finish : Nat → State → Res State
  | 0, s => if s.q.isEmpty then .next s else .fault (.internalFault .bound)
  | fuel + 1, s => if s.q.isEmpty then .next s else andThen (tick s) (finish fuel)

/-- A bound on the ticks a queue can still take: each tick pops at least one micro-op and each Exec appends
at most two. -/
def tickBound (s : State) : Nat := 3 * s.q.length

/-- The state at the decode of an instruction: the slots hold its bytes, the latch its type and mode, and
its queue is built (41_scheduler.md R168). -/
def loaded (i : Instr) (b : Byte) (s : State) : State :=
  { s with
    op := some b
    opnds := i.operandBytes
    ins := (i.type, i.mode)
    q := buildQueue i.type i.mode }

/-- One instruction from its decode to its completion, from a state in which its bytes are fetched (PC
after them): the decode tick's execute step, then ticks until the queue is empty (41_scheduler.md R162,
R170, R172). -/
def runInstr (i : Instr) (s : State) : Res State :=
  match i.opcode? with
  | none => .refused .illFormed
  | some b => andThen (executeStep 1 (loaded i b s)) fun s1 => finish (tickBound s1) s1

end Sys2Proof.Machine
end

