-- ==== Sys2Proof/Machine/Arith.lean ====
section
/-! DEFINITION. The meanings of arithmetic, logic, compare, bit test, increment and decrement (43_arith_logic.md):
one definition per instruction, the run of its queue from its decode to its completion (`runInstr`). -/

namespace Sys2Proof.Machine

/-- ADC (R231): the queue of its READ form, whose Exec is `adcBody`. -/
def execAdc (o : Operand) (s : State) : Res State := runInstr (.adc o) s

/-- SBC (R232): the queue of its READ form, whose Exec is `sbcBody`. -/
def execSbc (o : Operand) (s : State) : Res State := runInstr (.sbc o) s

/-- AND (R233): the queue of its READ form, whose Exec is `andBody`. -/
def execAnd (o : Operand) (s : State) : Res State := runInstr (.and o) s

/-- ORA (R234): the queue of its READ form, whose Exec is `oraBody`. -/
def execOra (o : Operand) (s : State) : Res State := runInstr (.ora o) s

/-- EOR (R235): the queue of its READ form, whose Exec is `eorBody`. -/
def execEor (o : Operand) (s : State) : Res State := runInstr (.eor o) s

/-- CMP (R236): the queue of its READ form, whose Exec is `cmpBody`. -/
def execCmp (o : Operand) (s : State) : Res State := runInstr (.cmp o) s

/-- CPX (R237): the queue of its READ form, whose Exec is `cpxBody`. -/
def execCpx (o : Operand) (s : State) : Res State := runInstr (.cpx o) s

/-- CPY (R238): the queue of its READ form, whose Exec is `cpyBody`. -/
def execCpy (o : Operand) (s : State) : Res State := runInstr (.cpy o) s

/-- BIT (R239): the queue of its READ form, whose Exec is `bitBody`. -/
def execBit (o : Operand) (s : State) : Res State := runInstr (.bit o) s

/-- INC (R240): the queue of its RMW form, whose Modify is `incBody`. -/
def execInc (o : Operand) (s : State) : Res State := runInstr (.inc o) s

/-- DEC (R241): the queue of its RMW form, whose Modify is `decBody`. -/
def execDec (o : Operand) (s : State) : Res State := runInstr (.dec o) s

/-- INX (R242): Exec `inxBody`. -/
def execInx (s : State) : Res State := runInstr .inx s

/-- INY (R243): Exec `inyBody`. -/
def execIny (s : State) : Res State := runInstr .iny s

/-- DEX (R244): Exec `dexBody`. -/
def execDex (s : State) : Res State := runInstr .dex s

/-- DEY (R245): Exec `deyBody`. -/
def execDey (s : State) : Res State := runInstr .dey s

end Sys2Proof.Machine
end

