-- ==== Sys2Proof/Machine/Control.lean ====
section
/-! DEFINITION. The meanings of jumps, call and return, branches (45_control.md):
one definition per instruction, the run of its queue from its decode to its completion (`runInstr`). -/

namespace Sys2Proof.Machine

/-- JMP (R291): the queue of its form, ending in Jump. -/
def execJmp (o : Operand) (s : State) : Res State := runInstr (.jmp o) s

/-- JSR (R292): Resolve stages ret, two pushes, Jump. -/
def execJsr (w : Addr) (s : State) : Res State := runInstr (.jsr w) s

/-- RTS (R293): PullPCL, PullPCH, IncPC. -/
def execRts (s : State) : Res State := runInstr .rts s

/-- BPL (R295): Resolve sets the target, Exec is `bplBody`. -/
def execBpl (b1 : Byte) (s : State) : Res State := runInstr (.bpl b1) s

/-- BMI (R296): Resolve sets the target, Exec is `bmiBody`. -/
def execBmi (b1 : Byte) (s : State) : Res State := runInstr (.bmi b1) s

/-- BVC (R297): Resolve sets the target, Exec is `bvcBody`. -/
def execBvc (b1 : Byte) (s : State) : Res State := runInstr (.bvc b1) s

/-- BVS (R298): Resolve sets the target, Exec is `bvsBody`. -/
def execBvs (b1 : Byte) (s : State) : Res State := runInstr (.bvs b1) s

/-- BCC (R299): Resolve sets the target, Exec is `bccBody`. -/
def execBcc (b1 : Byte) (s : State) : Res State := runInstr (.bcc b1) s

/-- BCS (R300): Resolve sets the target, Exec is `bcsBody`. -/
def execBcs (b1 : Byte) (s : State) : Res State := runInstr (.bcs b1) s

/-- BNE (R301): Resolve sets the target, Exec is `bneBody`. -/
def execBne (b1 : Byte) (s : State) : Res State := runInstr (.bne b1) s

/-- BEQ (R302): Resolve sets the target, Exec is `beqBody`. -/
def execBeq (b1 : Byte) (s : State) : Res State := runInstr (.beq b1) s

end Sys2Proof.Machine
end

