-- ==== Sys2Proof/Machine/LoadStore.lean ====
section
/-! DEFINITION. The meanings of loads, stores and transfers (42_load_store_transfer.md):
one definition per instruction, the run of its queue from its decode to its completion (`runInstr`). -/

namespace Sys2Proof.Machine

/-- LDA (R201): the queue of its READ form, whose Exec is `ldaBody`. -/
def execLda (o : Operand) (s : State) : Res State := runInstr (.lda o) s

/-- LDX (R202): the queue of its READ form, whose Exec is `ldxBody`. -/
def execLdx (o : Operand) (s : State) : Res State := runInstr (.ldx o) s

/-- LDY (R203): the queue of its READ form, whose Exec is `ldyBody`. -/
def execLdy (o : Operand) (s : State) : Res State := runInstr (.ldy o) s

/-- STA (R204): the queue of its STORE form: `stage` fills sv, Write stores it. -/
def execSta (o : Operand) (s : State) : Res State := runInstr (.sta o) s

/-- STX (R205): the queue of its STORE form: `stage` fills sv, Write stores it. -/
def execStx (o : Operand) (s : State) : Res State := runInstr (.stx o) s

/-- STY (R206): the queue of its STORE form: `stage` fills sv, Write stores it. -/
def execSty (o : Operand) (s : State) : Res State := runInstr (.sty o) s

/-- TAX (R207): Exec `taxBody`. -/
def execTax (s : State) : Res State := runInstr .tax s

/-- TAY (R208): Exec `tayBody`. -/
def execTay (s : State) : Res State := runInstr .tay s

/-- TXA (R209): Exec `txaBody`. -/
def execTxa (s : State) : Res State := runInstr .txa s

/-- TYA (R210): Exec `tyaBody`. -/
def execTya (s : State) : Res State := runInstr .tya s

/-- TSX (R211): Exec `tsxBody`. -/
def execTsx (s : State) : Res State := runInstr .tsx s

/-- TXS (R212): Exec `txsBody`. -/
def execTxs (s : State) : Res State := runInstr .txs s

end Sys2Proof.Machine
end

