-- ==== Sys2Proof/Machine/Shift.lean ====
section
/-! DEFINITION. The meanings of shifts and rotates (44_shift_rotate.md):
one definition per instruction, the run of its queue from its decode to its completion (`runInstr`). -/

namespace Sys2Proof.Machine

/-- ASL (R271): Exec `aslExec` on A, or the queue of its RMW form with Modify `aslModify`. -/
def execAsl (o : Operand) (s : State) : Res State := runInstr (.asl o) s

/-- LSR (R272): Exec `lsrExec` on A, or the queue of its RMW form with Modify `lsrModify`. -/
def execLsr (o : Operand) (s : State) : Res State := runInstr (.lsr o) s

/-- ROL (R273): Exec `rolExec` on A, or the queue of its RMW form with Modify `rolModify`. -/
def execRol (o : Operand) (s : State) : Res State := runInstr (.rol o) s

/-- ROR (R274): Exec `rorExec` on A, or the queue of its RMW form with Modify `rorModify`. -/
def execRor (o : Operand) (s : State) : Res State := runInstr (.ror o) s

end Sys2Proof.Machine
end

