-- ==== Sys2Proof/Machine/System.lean ====
section
/-! DEFINITION. The meanings of stack, status-flag and system instructions, NOP and Illegal (46_stack_flags_system.md):
one definition per instruction, the run of its queue from its decode to its completion (`runInstr`). -/

namespace Sys2Proof.Machine

/-- PHA (R321): PushA. -/
def execPha (s : State) : Res State := runInstr .pha s

/-- PHP (R322): PushP. -/
def execPhp (s : State) : Res State := runInstr .php s

/-- PLA (R323): PullA. -/
def execPla (s : State) : Res State := runInstr .pla s

/-- PLP (R324): PullP. -/
def execPlp (s : State) : Res State := runInstr .plp s

/-- BRK (R325): trap entry: Resolve stages ret, then PushPCH, PushPCL, PushP, Vector (`takeTrap`). -/
def execBrk (s : State) : Res State := runInstr .brk s

/-- RTI (R326): trap return: PullP, PullPCL, PullPCH (`returnFromTrap`). -/
def execRti (s : State) : Res State := runInstr .rti s

/-- CLC (R327): Exec `clcBody`. -/
def execClc (s : State) : Res State := runInstr .clc s

/-- SEC (R328): Exec `secBody`. -/
def execSec (s : State) : Res State := runInstr .sec s

/-- CLI (R329): Exec `cliBody`. -/
def execCli (s : State) : Res State := runInstr .cli s

/-- SEI (R330): Exec `seiBody`. -/
def execSei (s : State) : Res State := runInstr .sei s

/-- CLV (R331): Exec `clvBody`. -/
def execClv (s : State) : Res State := runInstr .clv s

/-- CLD (R332): Exec `cldBody`. -/
def execCld (s : State) : Res State := runInstr .cld s

/-- SED (R333): Exec `sedBody`. -/
def execSed (s : State) : Res State := runInstr .sed s

/-- NOP (R334): Exec `nopBody`. -/
def execNop (s : State) : Res State := runInstr .nop s

/-- Illegal (R335): Exec `illegalBody`. -/
def execIllegal (b : Byte) (s : State) : Res State := runInstr (.illegal b) s

end Sys2Proof.Machine
end

