-- ==== Sys2Proof/Machine/Fetch.lean ====
section
/-! DEFINITION. The fetch phase of an instruction (41_scheduler.md R165 to R167) and placing an
instruction's bytes where it fetches next. -/

namespace Sys2Proof.Machine

/-- The fetch phase: one byte per tick until the operands are complete. Every tick but the last, whose
execute step is the meaning's, is counted here (41_scheduler.md R167, R173). `fuel` bounds the bytes. -/
def fetchPhase : Nat → State → Res State
  | 0, _ => .fault (.internalFault .bound)
  | fuel + 1, s =>
    andThen (fetchByte s) fun s1 =>
      if operandsComplete s1 then .next s1
      else fetchPhase fuel { s1 with cycles := s1.cycles + 1 }

/-- The longest instruction, in bytes (30_encoding.md R91). -/
def maxLength : Nat := 3

/-- The instruction in the slots. -/
def slotInstr (s : State) : Option Instr :=
  match s.op with
  | none => none
  | some b => instrOf b s.opnds

/-- A bus on which an address is plain memory with a cell of its own number, its other addresses as before. -/
def Bus.asMemory (b : Bus) (a : Addr) : Bus :=
  if b.kindAt a = .memory ∧ b.cellAt a = a.toNat then b
  else { b with map := { first := a.toNat, last := a.toNat, kind := .memory } :: b.map }

/-- A bus with bytes placed in plain memory from an address on; no access is made. -/
def Bus.place : Bus → Addr → List Byte → Bus
  | b, _, [] => b
  | b, a, v :: rest =>
    let b1 := b.asMemory a
    Bus.place { b1 with mem := b1.mem.set (b1.cellAt a) v } (a + 1) rest

end Sys2Proof.Machine
end

