-- ==== Sys2Proof/Machine/Step.lean ====
section
/-! DEFINITION. One step of the machine as the host runs it: one instruction, that is the ticks from the
fetch of its opcode to its completion (41_scheduler.md R160, R170, R177; assumption 1). -/

namespace Sys2Proof.Machine

/-- One instruction: fetch its bytes, then its meaning; in a state whose queue is built, the rest of that
instruction. -/
def step (s : State) : Host.Outcome State Fault Refusal :=
  if s.q.isEmpty then
    andThen (fetchPhase maxLength s) fun s1 =>
      match slotInstr s1 with
      | some i => exec i s1
      | none => .fault (.internalFault .operands)
  else finish (tickBound s) s

/-- The state with an instruction's bytes placed where `step` fetches next (assumption 12). -/
def State.withFetchWord (s : State) (nbits w : Nat) : State :=
  { s with
    op := none
    opnds := []
    q := []
    bus := s.bus.place s.pc (tableBytes nbits w) }

end Sys2Proof.Machine
end

