-- ==== Sys2Proof/Machine/Lifecycle.lean ====
section
/-! DEFINITION. The host's calls into the core (70_reset_and_hazards.md R390 to R395). -/

namespace Sys2Proof.Machine

/-- `power_on` (70_reset_and_hazards.md R391). The latches keep their values (R393), and so do the
collaborators. -/
def powerOn (cfg : Config.Params) (s : State) : Res State :=
  let s1 : State :=
    { s with
      a := 0x00
      x := 0x00
      y := 0x00
      sp := cfg.powerOnSp
      p := 0x24
      op := none
      opnds := []
      q := []
      cycles := 0 }
  andThen (s1.bus.readWord Config.resetVector) fun r => .next { s1 with pc := r.1, bus := r.2 }

/-- `reset` (70_reset_and_hazards.md R392): SP down by 3 without an access, I set, the slots and the queue
cleared, PC from the reset vector; A, X, Y and cycles unchanged. -/
def hostReset (s : State) : Res State :=
  let s1 : State :=
    { s with
      sp := s.sp - 3
      p := setFlag .i true s.p
      op := none
      opnds := []
      q := [] }
  andThen (s1.bus.readWord Config.resetVector) fun r => .next { s1 with pc := r.1, bus := r.2 }

/-- `load_program(bytes)`: bus writes from LOAD_ADDR on, and no change of the core
(20_memory.md R72, 70_reset_and_hazards.md R395). The order of the writes is the model's: assumption 17. -/
def loadProgram (cfg : Config.Params) (bytes : List Byte) (s : State) : Res State :=
  andThen (s.bus.writeAll cfg.loadAddr bytes) fun b => .next { s with bus := b }

/-- The four calls of the host (70_reset_and_hazards.md R390). -/
inductive HostCall where
  | tick
  | powerOn
  | reset
  | loadProgram (bytes : List Byte)
  deriving DecidableEq, Repr

/-- One call of the host (70_reset_and_hazards.md R390). -/
def hostCall (cfg : Config.Params) (c : HostCall) (s : State) : Res State :=
  match c with
  | .tick => tick s
  | .powerOn => powerOn cfg s
  | .reset => hostReset s
  | .loadProgram bytes => loadProgram cfg bytes s

end Sys2Proof.Machine
end

