-- ==== Sys2Proof/WellFormed.lean ====
section
/-! DEFINITION. Which instruction terms the core has: the operand forms each instruction's rule lists
(42 to 46, "Opcodes:") and the 105 Illegal bytes (30_encoding.md R106). Written from those lists, not
from the decoder. -/

namespace Sys2Proof

/-- The eight forms of the accumulator-ALU group (30_encoding.md R97). -/
def aluModes : List Mode := [.imm, .zp, .zpx, .abs, .abx, .aby, .izx, .izy]

/-- The addressing modes each instruction type has. -/
def InstrType.modes : InstrType → List Mode
  | .lda | .adc | .sbc | .and | .ora | .eor | .cmp => aluModes
  | .sta => [.zp, .zpx, .abs, .abx, .aby, .izx, .izy]
  | .ldx => [.imm, .zp, .zpy, .abs, .aby]
  | .ldy => [.imm, .zp, .zpx, .abs, .abx]
  | .stx => [.zp, .zpy, .abs]
  | .sty => [.zp, .zpx, .abs]
  | .cpx | .cpy => [.imm, .zp, .abs]
  | .bit => [.zp, .abs]
  | .inc | .dec => [.zp, .zpx, .abs, .abx]
  | .asl | .lsr | .rol | .ror => [.acc, .zp, .zpx, .abs, .abx]
  | .jmp => [.abs, .ind]
  | .jsr => [.abs]
  | .bpl | .bmi | .bvc | .bvs | .bcc | .bcs | .bne | .beq => [.rel]
  | .illegal => [.none]
  | .tax | .tay | .txa | .tya | .tsx | .txs | .inx | .iny | .dex | .dey | .rts
  | .pha | .php | .pla | .plp | .brk | .rti
  | .clc | .sec | .cli | .sei | .clv | .cld | .sed | .nop => [.imp]

/-- The Illegal bytes outside column group 11, as 30_encoding.md R106 lists them. -/
def illegalListed : List Byte :=
  [0x02, 0x12, 0x22, 0x32, 0x42, 0x52, 0x62, 0x72, 0x82, 0x92, 0xB2, 0xC2, 0xD2, 0xE2, 0xF2,
   0x1A, 0x3A, 0x5A, 0x7A, 0xDA, 0xFA, 0x9E] ++
  [0x89] ++
  [0x04, 0x0C, 0x14, 0x1C, 0x34, 0x3C, 0x44, 0x54, 0x5C, 0x64, 0x74, 0x7C, 0x80, 0x9C,
   0xD4, 0xDC, 0xF4, 0xFC]

/-- A byte that 30_encoding.md R106 lists as Illegal: column group 11, or one of the listed bytes. -/
def isIllegalByte (b : Byte) : Bool := b &&& 3 == 3 || illegalListed.contains b

/-- The operand form is one the instruction has. -/
def Instr.formOk (i : Instr) : Bool := i.type.modes.contains i.mode

/-- An Illegal instruction carries an Illegal byte. -/
def Instr.byteOk : Instr → Bool
  | .illegal b => isIllegalByte b
  | _ => true

/-- Well-formed: a term that some byte sequence decodes to. -/
def Instr.wf (i : Instr) : Bool := i.formOk && i.byteOk

end Sys2Proof
end

