-- ==== Sys2Proof/Safety.lean ====
section
/-! DEFINITION. What a legal state is (10_state.md R48) and what a safe run is: the terms the statements
use. -/

namespace Sys2Proof.Machine

/-- An instruction boundary: queue, opcode slot and operand buffer all empty (00_scope.md R20). -/
def State.boundary (s : State) : Prop := s.op = none ∧ s.opnds = [] ∧ s.q = []

/-- The head of a queue costs 1, where it has one (10_state.md R48 (c)). -/
def headCostsOne : List MicroOp → Prop
  | [] => True
  | k :: _ => cost k = 1

/-- The scheduler's slots (10_state.md R43, R47, R48 (a), (b), (c), (e)). The last three clauses are read
from R43 ("valid whenever op is present"), from R47 (the three conceptual states), and from
41_scheduler.md R168, R169 and R174 (a queue is what is left of the one that was built); assumption 13. -/
structure State.SlotsOk (s : State) : Prop where
  /-- (a) -/
  idle : s.op = none → s.opnds = [] ∧ s.q = []
  /-- (b) -/
  operands : ∀ b, s.op = some b → s.opnds.length ≤ operandCount (decodeMode b)
  /-- (c) -/
  head : headCostsOne s.q
  /-- (e) -/
  queued : ∀ b, s.op = some b → s.q ≠ [] → s.opnds.length = operandCount (decodeMode b)
  /-- the latch holds the decode of the opcode slot -/
  latch : ∀ b, s.op = some b → s.ins = decodePair b
  /-- an instruction with an empty queue still awaits operands -/
  awaiting : ∀ b, s.op = some b → s.q = [] → s.opnds.length < operandCount (decodeMode b)
  /-- a queue is a proper tail of the latched instruction's, with at most two Idles appended -/
  program : s.q ≠ [] → ∃ n k, 1 ≤ n ∧ k ≤ 2 ∧
    s.q = (buildQueue s.ins.1 s.ins.2 ++ List.replicate k MicroOp.idle).drop n

/-- The fixed bits of P: the reserved bit is 1 (10_state.md R39, R48 (d)) and B is 0 (R40, R48 (f)). -/
structure State.StatusOk (s : State) : Prop where
  /-- (d) -/
  reserved : s.p.getLsbD 5 = true
  /-- (f) -/
  breakClear : s.p.getLsbD 4 = false

/-- The invariant of 10_state.md R48, with the canonical form of memory. -/
structure State.Inv (s : State) : Prop where
  slots : s.SlotsOk
  status : s.StatusOk
  memory : s.bus.mem.wf = true

/-- A bus that maps every address, so that no access can fault (20_memory.md R63). -/
def Bus.total (b : Bus) : Prop := ∀ a : Addr, b.kindAt a ≠ .unmapped

/-- The run of `n` steps ends in a state: no step of it faults or is refused. -/
def SafeRun (n : Nat) (s : State) : Prop := ∃ t, Sys2Proof.core.run n s = .next t

/-- `n` ticks, stopping at the first fault (41_scheduler.md R160). -/
def tickN : Nat → State → Res State
  | 0, s => .next s
  | n + 1, s => andThen (tick s) (tickN n)

end Sys2Proof.Machine
end

