-- ==== Sys2Proof/Certificates/Slice0/Obligations.lean ====
section
/-! DEFINITION. The statements for the provers. Each docstring names the rules of spec/ it formalises.
First the terms they share: what it is for an instruction to complete, the tick table, and one shape of
statement for each kind of instruction. -/

namespace Sys2Proof.Machine

/-- Instruction `i`, run from its decode in state `s`, completes: the next state has the registers `r` and
the bus `b` (memory, map and every access made), is an instruction boundary, is `n` ticks later, and the
trace sink has received exactly one snapshot more, of that state (41_scheduler.md R170, R173;
60_exceptions.md R371). Only the latches are left open (10_state.md R44). -/
def EndsIn (n : Nat) (i : Instr) (s : State) (r : Regs) (b : Bus) : Prop :=
  ∃ t, exec i s = .next t ∧ t.regs = r ∧ t.bus = b ∧ t.boundary ∧ t.cycles = s.cycles + n ∧
    t.sink = { regs := r, cycles := s.cycles + n } :: s.sink

/-- Ticks of the READ class by mode (41_scheduler.md R179). -/
def readTicks : Mode → Nat
  | .imm => 2
  | .zp => 3
  | .zpx | .zpy | .abs | .abx | .aby => 4
  | .izx => 6
  | .izy => 5
  | _ => 0

/-- Ticks of the STORE class by mode (41_scheduler.md R179). -/
def storeTicks : Mode → Nat
  | .zp => 3
  | .zpx | .zpy | .abs => 4
  | .abx | .aby => 5
  | .izx | .izy => 6
  | _ => 0

/-- Ticks of the RMW class by mode, and of the accumulator forms (41_scheduler.md R179). -/
def rmwTicks : Mode → Nat
  | .acc => 2
  | .zp => 5
  | .zpx | .abs => 6
  | .abx => 7
  | _ => 0

/-- The tick count of every instruction, a branch's when it is not taken (41_scheduler.md R179). -/
def tableTicks : Instr → Nat
  | .lda o | .ldx o | .ldy o | .adc o | .sbc o | .and o | .ora o | .eor o
  | .cmp o | .cpx o | .cpy o | .bit o => readTicks o.mode
  | .sta o | .stx o | .sty o => storeTicks o.mode
  | .asl o | .lsr o | .rol o | .ror o | .inc o | .dec o => rmwTicks o.mode
  | .jmp o => if o.mode = .ind then 5 else 3
  | .jsr _ | .rts | .rti => 6
  | .brk => 7
  | .pha | .php => 3
  | .pla | .plp => 4
  | .tax | .tay | .txa | .tya | .tsx | .txs | .inx | .iny | .dex | .dey
  | .clc | .sec | .cli | .sei | .clv | .cld | .sed | .nop | .illegal _ => 2
  | .bpl _ | .bmi _ | .bvc _ | .bvs _ | .bcc _ | .bcs _ | .bne _ | .beq _ => 2

/-- `EndsIn` with the ticks of the table; the operand bytes' ticks lie before the decode. -/
def Ends (i : Instr) (s : State) (r : Regs) (b : Bus) : Prop :=
  EndsIn (tableTicks i - operandCount i.mode) i s r b

/-- The opcode bytes of an instruction type are exactly these (30_encoding.md R103). -/
def HasOpcodes (t : InstrType) (l : List (Mode × Byte)) : Prop :=
  ∀ (b : Byte) (md : Mode), decodePair b = (t, md) ↔ (md, b) ∈ l

/-- The queue of an instruction type in each mode it has (41_scheduler.md R178), and its access class
(40_address_modes.md R142). -/
def HasQueue (t : InstrType) (c : AccessClass) (l : List (Mode × List MicroOp)) : Prop :=
  ∀ x ∈ l, accessClass t x.1 = c ∧ buildQueue t x.1 = x.2

/-- An instruction of class READ: where its operand can be read, giving `v` and the bus `b`, it completes
with that bus and with registers that `post` allows; where a read of the operand faults, it ends in that
fault. -/
def ReadRule (mk : Operand → Instr) (post : Byte → Regs → Regs → Prop) : Prop :=
  ∀ (o : Operand) (s : State), (mk o).wf = true →
    accessClass (mk o).type o.mode = .read ∧
    (∀ v b, operandValue o s = .next (v, b) → ∃ r, post v s.regs r ∧ Ends (mk o) s r b) ∧
    (∀ f, operandValue o s = .fault f → exec (mk o) s = .fault f)

/-- An instruction of class STORE: the byte `v` is written at the operand's address, no register changes; a
fault of the address or of the write is the outcome. -/
def StoreRule (mk : Operand → Instr) (v : State → Byte) : Prop :=
  ∀ (o : Operand) (s : State), (mk o).wf = true →
    accessClass (mk o).type o.mode = .store ∧
    (∃ idles, (∀ k ∈ idles, k = .idle) ∧
      buildQueue (mk o).type o.mode = .resolve :: idles ++ [.write]) ∧
    (∀ ea b b', operandAddr o s = .next (ea, b) → b.write ea (v s) = .next b' →
      Ends (mk o) s s.regs b') ∧
    (∀ f, operandAddr o s = .fault f → exec (mk o) s = .fault f) ∧
    (∀ ea b f, operandAddr o s = .next (ea, b) → b.write ea (v s) = .fault f →
      exec (mk o) s = .fault f)

/-- A read-modify-write form in memory, of class RMW: its queue reads, modifies and writes, after idles if
any, and Modify computes from the latch m into sv and P; its address needs no bus access; the location is read
once, giving `m`, and `res m` is written back once; P becomes a value that `post` allows and no other
register changes; a fault of the read is the outcome. -/
def RmwRule (mk : Operand → Instr) (res : Byte → State → Byte)
    (post : Byte → Byte → Byte → Byte → Prop) : Prop :=
  ∀ (o : Operand) (s : State), (mk o).wf = true → o ≠ .acc →
    accessClass (mk o).type o.mode = .rmw ∧
    (∃ idles, (∀ k ∈ idles, k = .idle) ∧
      buildQueue (mk o).type o.mode = .resolve :: idles ++ [.read, .modify, .write]) ∧
    (s.ins.1 = (mk o).type → ∃ p, post s.m (res s.m s) s.p p ∧
      perform .modify s = .next { s with sv := res s.m s, p := p }) ∧
    ∃ ea, operandAddr o s = .next (ea, s.bus) ∧
      (∀ m b1 b2, s.bus.read ea = .next (m, b1) → b1.write ea (res m s) = .next b2 →
        ∃ p, post m (res m s) s.p p ∧ Ends (mk o) s { s.regs with p := p } b2) ∧
      (∀ f, s.bus.read ea = .fault f → exec (mk o) s = .fault f)

/-- An instruction that makes no bus access: in every state it completes, the bus unchanged. -/
def BareRule (i : Instr) (post : Regs → Regs → Prop) : Prop :=
  ∀ s : State, ∃ r, post s.regs r ∧ Ends i s r s.bus

/-- N and Z of P are those of `v` (00_scope.md R13). -/
def NZof (v p : Byte) : Prop := getFlag .n p = v.getLsbD 7 ∧ getFlag .z p = decide (v = 0)

/-- P and P' agree in every bit but those of the flags listed (42_load_store_transfer.md R200: "Flags not
named in a rule are unchanged"). -/
def OnlyFlags (fs : List Flag) (p p' : Byte) : Prop :=
  ∀ k < 8, k ∉ fs.map flagBit → p'.getLsbD k = p.getLsbD k

/-- A register takes `v`, with N and Z of it; `rest` says which register. -/
def LoadPost (upd : Byte → Regs → Regs) (v : Byte) (r r' : Regs) : Prop :=
  r' = { upd v r with p := r'.p } ∧ NZof v r'.p ∧ OnlyFlags [.n, .z] r.p r'.p

/-- P after a compare of `x` with `m`; no register but P changes (43_arith_logic.md R236 to R238). -/
def ComparePost (x m : Byte) (r r' : Regs) : Prop :=
  r' = { r with p := r'.p } ∧ getFlag .c r'.p = decide (x.toNat ≥ m.toNat) ∧
    getFlag .z r'.p = decide (x = m) ∧ getFlag .n r'.p = (x - m).getLsbD 7 ∧
    OnlyFlags [.n, .z, .c] r.p r'.p

/-- A, C, V, Z and N after an addition of `n` and the carry to A (43_arith_logic.md R231): `t`, `c6`
and `c7` as the rule has them, and the rule's second form of V. -/
def AddPost (n : Byte) (r r' : Regs) : Prop :=
  let c := (getFlag .c r.p).toNat
  let t := r.a.toNat + n.toNat + c
  let c6 := decide ((r.a &&& 0x7F).toNat + (n &&& 0x7F).toNat + c ≥ 0x80)
  let c7 := decide (t ≥ 256)
  r' = { r with a := r'.a, p := r'.p } ∧ r'.a.toNat = t % 256 ∧ NZof r'.a r'.p ∧
    getFlag .c r'.p = c7 ∧ getFlag .v r'.p = (c6 ^^ c7) ∧
    getFlag .v r'.p = decide ((r.a ^^^ r'.a) &&& (n ^^^ r'.a) &&& 0x80 ≠ 0) ∧
    OnlyFlags [.n, .v, .z, .c] r.p r'.p

/-- A shift on a byte: result and new carry from `m` and the old carry (44_shift_rotate.md R271 to R274),
as numbers. -/
structure ShiftFn where
  result : Nat → Nat → Nat
  carry : Nat → Bool

/-- P after a shift of `m` with the result `r` (44_shift_rotate.md R270). -/
def ShiftPost (f : ShiftFn) (m r p p' : Byte) : Prop :=
  NZof r p' ∧ getFlag .c p' = f.carry m.toNat ∧ OnlyFlags [.n, .z, .c] p p'

/-- Both forms of a shift (44_shift_rotate.md R270): on A, and on a memory location. -/
def ShiftRule (mk : Operand → Instr) (f : ShiftFn) : Prop :=
  let res (m : Byte) (p : Byte) := BitVec.ofNat 8 (f.result m.toNat (getFlag .c p).toNat)
  buildQueue (mk .acc).type .acc = [.resolve, .exec, .idle] ∧
  BareRule (mk .acc) (fun r r' =>
    r' = { r with a := res r.a r.p, p := r'.p } ∧ ShiftPost f r.a (res r.a r.p) r.p r'.p) ∧
  RmwRule mk (fun m s => res m s.p) (ShiftPost f)

/-- A branch (45_control.md R294): 2 ticks not taken, 3 taken to the page of the next instruction, 4 to
another page, one of them before the decode; no flag, no bus access. Last, its Exec micro-op, from any state:
it appends one Idle where the branch is taken, and a second where the target is on another page. -/
def BranchRule (mk : Byte → Instr) (taken : Byte → Prop) : Prop :=
  ∀ (b1 : Byte) (s : State),
    (¬ taken s.p → EndsIn (2 - 1) (mk b1) s s.regs s.bus) ∧
    (taken s.p → hi8 (s.pc + sext16 b1) = hi8 s.pc →
      EndsIn (3 - 1) (mk b1) s { s.regs with pc := s.pc + sext16 b1 } s.bus) ∧
    (taken s.p → hi8 (s.pc + sext16 b1) ≠ hi8 s.pc →
      EndsIn (4 - 1) (mk b1) s { s.regs with pc := s.pc + sext16 b1 } s.bus) ∧
    buildQueue (mk b1).type .rel = [.resolve, .exec] ∧
    (s.ins.1 = (mk b1).type →
      (¬ taken s.p → perform .exec s = .next s) ∧
      (taken s.p → hi8 s.ea = hi8 s.pc →
        perform .exec s = .next { s with pc := s.ea, q := s.q ++ [.idle] }) ∧
      (taken s.p → hi8 s.ea ≠ hi8 s.pc →
        perform .exec s = .next { s with pc := s.ea, q := s.q ++ [.idle, .idle] }))

/-- One flag becomes `v`, and nothing else changes (46_stack_flags_system.md, section 3). -/
def FlagRule (i : Instr) (f : Flag) (v : Bool) : Prop :=
  BareRule i (fun r r' => r' = { r with p := r'.p } ∧ getFlag f r'.p = v ∧ OnlyFlags [f] r.p r'.p)

/-- The forms that store nothing: every instruction but the stores, the read-modify-write forms in memory,
JSR, BRK, PHA and PHP. -/
def storesNothing : Instr → Bool
  | .sta _ | .stx _ | .sty _ | .inc _ | .dec _ | .jsr _ | .brk | .pha | .php => false
  | .asl o | .lsr o | .rol o | .ror o => o = .acc
  | _ => true

/-- The operand whose address a store or a read-modify-write form stores to. -/
def storeOperand : Instr → Option Operand
  | .sta o | .stx o | .sty o | .inc o | .dec o => some o
  | .asl o | .lsr o | .rol o | .ror o => if o = .acc then none else some o
  | _ => none

/-- The byte that a store or a read-modify-write form in memory stores, over the byte `m` of its location
(42_load_store_transfer.md R204 to R206, 43_arith_logic.md R240, R241, 44_shift_rotate.md R271 to R274). -/
def storedByte (i : Instr) (s : State) (m : Byte) : Byte :=
  match i with
  | .sta _ => s.a
  | .stx _ => s.x
  | .sty _ => s.y
  | .inc _ => m + 1
  | .dec _ => m - 1
  | .asl _ => BitVec.ofNat 8 (m.toNat * 2)
  | .lsr _ => BitVec.ofNat 8 (m.toNat / 2)
  | .rol _ => BitVec.ofNat 8 (m.toNat * 2 + (getFlag .c s.p).toNat)
  | .ror _ => BitVec.ofNat 8 (m.toNat / 2 + (getFlag .c s.p).toNat * 128)
  | _ => m

/-- What the pushing forms write, in order (45_control.md R292, 46_stack_flags_system.md R321, R322, R325). -/
def pushedBytes (i : Instr) (s : State) : List (Addr × Byte) :=
  match i with
  | .pha => [(stackAddr s.sp, s.a)]
  | .php => [(stackAddr s.sp, s.p ||| 0x30)]
  | .jsr _ => [(stackAddr s.sp, hi8 (s.pc - 1)), (stackAddr (s.sp - 1), lo8 (s.pc - 1))]
  | .brk =>
    [(stackAddr s.sp, hi8 (s.pc + 1)), (stackAddr (s.sp - 1), lo8 (s.pc + 1)),
      (stackAddr (s.sp - 2), s.p ||| 0x30)]
  | _ => []

/-- Every address an instruction writes and the byte it writes there, in order. -/
def writesOf (i : Instr) (s : State) : List (Addr × Byte) :=
  match storeOperand i with
  | none => pushedBytes i s
  | some o =>
    match operandAddr o s with
    | .next r => [(r.1, storedByte i s (s.peek r.1))]
    | _ => []

/-- The flags each instruction type may write: the table of 10_state.md R38. -/
def flagsWritten : InstrType → List Flag
  | .adc | .sbc => [.c, .z, .v, .n]
  | .cmp | .cpx | .cpy | .asl | .lsr | .rol | .ror => [.c, .z, .n]
  | .clc | .sec => [.c]
  | .plp | .rti => [.c, .z, .i, .d, .b, .v, .n]
  | .bit => [.z, .v, .n]
  | .sei | .cli | .brk => [.i]
  | .sed | .cld => [.d]
  | .clv => [.v]
  | .lda | .ldx | .ldy | .tax | .tay | .txa | .tya | .tsx | .pla | .and | .ora | .eor
  | .inc | .dec | .inx | .iny | .dex | .dey => [.z, .n]
  | _ => []

/-- A is written by these only (10_state.md R31). -/
def writesA : Instr → Bool
  | .lda _ | .pla | .txa | .tya | .adc _ | .sbc _ | .and _ | .ora _ | .eor _ => true
  | .asl o | .lsr o | .rol o | .ror o => o = .acc
  | _ => false

/-- X is written by these only (10_state.md R32). -/
def writesX : Instr → Bool
  | .ldx _ | .tax | .tsx | .inx | .dex => true
  | _ => false

/-- Y is written by these only (10_state.md R33). -/
def writesY : Instr → Bool
  | .ldy _ | .tay | .iny | .dey => true
  | _ => false

/-- SP is written by TXS and by the pushes and pulls (10_state.md R34). -/
def writesSP : Instr → Bool
  | .txs | .jsr _ | .rts | .brk | .rti | .pha | .php | .pla | .plp => true
  | _ => false

/-- PC is written, after the fetch, by these only (10_state.md R35). -/
def writesPC : Instr → Bool
  | .jmp _ | .jsr _ | .rts | .brk | .rti
  | .bpl _ | .bmi _ | .bvc _ | .bvs _ | .bcc _ | .bcs _ | .bne _ | .beq _ => true
  | _ => false

/-- Whether a branch is taken (45_control.md R295 to R302); no other instruction is one. -/
def takes : Instr → Byte → Bool
  | .bpl _, p => !getFlag .n p
  | .bmi _, p => getFlag .n p
  | .bvc _, p => !getFlag .v p
  | .bvs _, p => getFlag .v p
  | .bcc _, p => !getFlag .c p
  | .bcs _, p => getFlag .c p
  | .bne _, p => !getFlag .z p
  | .beq _, p => getFlag .z p
  | _, _ => false

/-- Two outcomes that differ at most in the latches and in flag `f`: the same accesses, memory, ticks and
registers, or the same fault. -/
def SameButFlag (f : Flag) (x y : Res State) : Prop :=
  match x, y with
  | .next t, .next u =>
    u.bus = t.bus ∧ u.cycles = t.cycles ∧ u.boundary ∧ t.boundary ∧
      u.regs = { t.regs with p := u.p } ∧ OnlyFlags [f] t.p u.p
  | .fault e, .fault e' => e = e'
  | _, _ => False

/-- Two outcomes that differ at most in the latches ins, ea, m, sv and ret. -/
def SameButLatches (x y : Res State) : Prop :=
  match x, y with
  | .next t, .next u => u = { t with ins := u.ins, ea := u.ea, m := u.m, sv := u.sv, ret := u.ret }
  | .fault e, .fault e' => e = e'
  | _, _ => False

/-- The bytes at PC on are stored, in plain memory or read-only storage, and are `bytes`. -/
def HoldsAtPC (s : State) (bytes : List Byte) : Prop :=
  ∀ k < bytes.length,
    s.bus.stored (s.pc + BitVec.ofNat 16 k) = true ∧
      s.peek (s.pc + BitVec.ofNat 16 k) = bytes.getD k 0

/-- The state in which the meaning of an instruction starts, when its bytes were fetched from plain memory
or read-only storage at a boundary: PC after the bytes, one fetch access for each byte, one tick counted for
each byte but the last. -/
def afterFetch (s : State) (bytes : List Byte) : State :=
  { s with
    pc := s.pc + BitVec.ofNat 16 bytes.length
    op := bytes.head?
    opnds := bytes.tail
    ins := decodePair (bytes.headD 0)
    cycles := s.cycles + (bytes.length - 1)
    bus :=
      { s.bus with
        log := (bytes.zipIdx.map fun bk => Access.read (s.pc + BitVec.ofNat 16 bk.2) bk.1).reverse
          ++ s.bus.log } }

/-- The round trip of R293, the stacked bytes plain memory and not mirrors of each other: a JSR, and later
an RTS in a state with the SP the JSR left and the two stacked bytes still there, return PC to the
instruction after the JSR and SP to its value before. -/
def JsrThenRtsReturns : Prop :=
  ∀ (w : Addr) (s t u v : State), s.bus.mem.wf = true → s.bus.kindAt (0x0100 + zext16 s.sp) = .memory →
    s.bus.kindAt (0x0100 + zext16 (s.sp - 1)) = .memory →
    s.bus.cellAt (0x0100 + zext16 s.sp) ≠ s.bus.cellAt (0x0100 + zext16 (s.sp - 1)) →
    exec (.jsr w) s = .next t → u.sp = t.sp → u.bus.map = t.bus.map →
    u.peek (0x0100 + zext16 s.sp) = t.peek (0x0100 + zext16 s.sp) →
    u.peek (0x0100 + zext16 (s.sp - 1)) = t.peek (0x0100 + zext16 (s.sp - 1)) →
    exec .rts u = .next v → v.pc = s.pc ∧ v.sp = s.sp

/-- The round trip of R324, the stacked byte plain memory and still there: PHP and later PLP: every flag but
B comes back, B is 0 and the reserved bit 1. -/
def PhpThenPlpRestoresStatus : Prop :=
  ∀ s t u v : State, s.bus.mem.wf = true → s.bus.kindAt (0x0100 + zext16 s.sp) = .memory →
    exec .php s = .next t → u.sp = t.sp → u.bus.map = t.bus.map →
    u.peek (0x0100 + zext16 s.sp) = t.peek (0x0100 + zext16 s.sp) →
    exec .plp u = .next v →
      v.sp = s.sp ∧ OnlyFlags [.b] (s.p ||| 0x20) v.p ∧ getFlag .b v.p = false ∧
        v.p.getLsbD 5 = true

/-- The round trip of R326, the stacked bytes plain memory and not mirrors of each other: a BRK, and later
an RTI in a state with the SP the BRK left and the three stacked bytes still there: PC is the BRK's address
+ 2, SP is as before, and P is the P before the BRK with B = 0 and the reserved bit 1. -/
def BrkThenRtiReturns : Prop :=
  ∀ s t u v : State, s.bus.mem.wf = true →
    (∀ k : Byte, k = 0 ∨ k = 1 ∨ k = 2 → s.bus.kindAt (0x0100 + zext16 (s.sp - k)) = .memory) →
    s.bus.cellAt (0x0100 + zext16 s.sp) ≠ s.bus.cellAt (0x0100 + zext16 (s.sp - 1)) →
    s.bus.cellAt (0x0100 + zext16 s.sp) ≠ s.bus.cellAt (0x0100 + zext16 (s.sp - 2)) →
    s.bus.cellAt (0x0100 + zext16 (s.sp - 1)) ≠ s.bus.cellAt (0x0100 + zext16 (s.sp - 2)) →
    exec .brk s = .next t → u.sp = t.sp → u.bus.map = t.bus.map →
    (∀ k : Byte, k = 0 ∨ k = 1 ∨ k = 2 →
      u.peek (0x0100 + zext16 (s.sp - k)) = t.peek (0x0100 + zext16 (s.sp - k))) →
    exec .rti u = .next v →
      v.pc = s.pc + 1 ∧ v.sp = s.sp ∧ v.p = (s.p &&& 0xCF) ||| 0x20

end Sys2Proof.Machine

open Sys2Proof Sys2Proof.Machine

/-! ## Encoding -/

/-- Words written out from the matrix of 30_encoding.md R103 and the operand assembly of R105 decode to the
instructions they stand for, one or more for each family. -/
def Obligations.KnownWordsDecode : Prop :=
  decode [0xA9, 0x05] = .ok (.lda (.imm 0x05), []) ∧
  decode [0x96, 0xFF, 0xEA] = .ok (.stx (.zpy 0xFF), [0xEA]) ∧
  decode [0xB1, 0x20] = .ok (.lda (.izy 0x20), []) ∧
  decode [0x9A] = .ok (.txs, []) ∧
  decode [0x6D, 0x34, 0x12] = .ok (.adc (.abs 0x1234), []) ∧
  decode [0x61, 0x20] = .ok (.adc (.izx 0x20), []) ∧
  decode [0xFE, 0x00, 0x20] = .ok (.inc (.abx 0x2000), []) ∧
  decode [0x0A] = .ok (.asl .acc, []) ∧
  decode [0x6C, 0xFF, 0x02] = .ok (.jmp (.ind 0x02FF), []) ∧
  decode [0x20, 0x00, 0x07] = .ok (.jsr 0x0700, []) ∧
  decode [0xB0, 0x80] = .ok (.bcs 0x80, []) ∧
  decode [0x00] = .ok (.brk, []) ∧
  decode [0x40] = .ok (.rti, []) ∧
  decode [0xF8] = .ok (.sed, []) ∧
  decode [0x02] = .ok (.illegal 0x02, []) ∧
  decode [0x0C, 0x34, 0x12] = .ok (.illegal 0x0C, [0x34, 0x12])

/-- The regular structure of the matrix by column group (30_encoding.md R97 to R100): the mnemonic by row
and the mode by mode field for groups 01 and 10, with R98's exceptions, the rows of group 00 as R99 lists
them, and group 11 Illegal throughout. -/
def Obligations.ColumnGroupsGiveTheMatrix : Prop :=
  let byte (aaa bbb cc : Nat) : Byte := BitVec.ofNat 8 (aaa * 32 + bbb * 4 + cc)
  (∀ aaa < 8, ∀ bbb < 8, decodePair (byte aaa bbb 1) =
    if aaa = 4 ∧ bbb = 2 then (.illegal, .none)
    else
      (([.ora, .and, .eor, .adc, .sta, .lda, .cmp, .sbc] : List InstrType).getD aaa .illegal,
       ([.izx, .zp, .imm, .abs, .izy, .zpx, .aby, .abx] : List Mode).getD bbb .none)) ∧
  (∀ aaa < 8, ∀ bbb < 8, decodePair (byte aaa bbb 2) =
    let t := ([.asl, .rol, .lsr, .ror, .stx, .ldx, .dec, .inc] : List InstrType).getD aaa .illegal
    match bbb with
    | 0 => if aaa = 5 then (.ldx, .imm) else (.illegal, .none)
    | 1 => (t, .zp)
    | 2 =>
      if aaa < 4 then (t, .acc)
      else (([.txa, .tax, .dex, .nop] : List InstrType).getD (aaa - 4) .illegal, .imp)
    | 3 => (t, .abs)
    | 5 => (t, if aaa = 4 ∨ aaa = 5 then .zpy else .zpx)
    | 6 => if aaa = 4 then (.txs, .imp) else if aaa = 5 then (.tsx, .imp) else (.illegal, .none)
    | 7 => if aaa = 4 then (.illegal, .none) else (t, if aaa = 5 then .aby else .abx)
    | _ => (.illegal, .none)) ∧
  (∀ aaa < 8, ∀ bbb < 8, decodePair (byte aaa bbb 0) =
    match bbb with
    | 0 =>
      ([(.brk, .imp), (.jsr, .abs), (.rti, .imp), (.rts, .imp), (.illegal, .none), (.ldy, .imm),
        (.cpy, .imm), (.cpx, .imm)] : List (InstrType × Mode)).getD aaa (.illegal, .none)
    | 1 =>
      ([(.illegal, .none), (.bit, .zp), (.illegal, .none), (.illegal, .none), (.sty, .zp), (.ldy, .zp),
        (.cpy, .zp), (.cpx, .zp)] : List (InstrType × Mode)).getD aaa (.illegal, .none)
    | 2 => (([.php, .plp, .pha, .pla, .dey, .tay, .iny, .inx] : List InstrType).getD aaa .illegal, .imp)
    | 3 =>
      ([(.illegal, .none), (.bit, .abs), (.jmp, .abs), (.jmp, .ind), (.sty, .abs), (.ldy, .abs),
        (.cpy, .abs), (.cpx, .abs)] : List (InstrType × Mode)).getD aaa (.illegal, .none)
    | 4 => (([.bpl, .bmi, .bvc, .bvs, .bcc, .bcs, .bne, .beq] : List InstrType).getD aaa .illegal, .rel)
    | 5 => if aaa = 4 then (.sty, .zpx) else if aaa = 5 then (.ldy, .zpx) else (.illegal, .none)
    | 6 => (([.clc, .sec, .cli, .sei, .tya, .clv, .cld, .sed] : List InstrType).getD aaa .illegal, .imp)
    | _ => if aaa = 5 then (.ldy, .abx) else (.illegal, .none)) ∧
  (∀ aaa < 8, ∀ bbb < 8, decodePair (byte aaa bbb 3) = (.illegal, .none))

/-- Decoding the bytes of a well-formed instruction, whatever follows them, gives it back, with every
operand at every value; and a term that is not well-formed has no bytes (30_encoding.md R103, R105). -/
def Obligations.DecodeOfEncode : Prop :=
  ∀ i : Instr,
    (i.wf = true → ∃ bytes, encode i = some bytes ∧ ∀ rest, decode (bytes ++ rest) = .ok (i, rest)) ∧
    (i.wf = false → encode i = none)

/-- What is decoded is well-formed, and its bytes are exactly those that were read (30_encoding.md R94,
R105). -/
def Obligations.EncodeOfDecode : Prop :=
  ∀ (bytes rest : List Byte) (i : Instr), decode bytes = .ok (i, rest) →
    i.wf = true ∧ ∃ front, encode i = some front ∧ bytes = front ++ rest

/-- The length comes from the opcode alone, and decoding is total on whole instructions
(30_encoding.md R104): a list that begins with the byte b decodes exactly when
`operand_count(decode_mode(b))` bytes follow, and that many are taken. -/
def Obligations.LengthFromTheOpcodeAlone : Prop :=
  ∀ (b : Byte) (tail : List Byte),
    (operandCount (decodeMode b) ≤ tail.length →
      ∃ i, decode (b :: tail) = .ok (i, tail.drop (operandCount (decodeMode b))) ∧
        i.type = decodeType b ∧ i.mode = decodeMode b) ∧
    (tail.length < operandCount (decodeMode b) → decode (b :: tail) = .error .operandMissing)

/-! ## Status register, memory, addresses -/

/-- The bytes pushed and the status pulled (10_state.md R37): pushing sets bits 4 and 5, pulling clears bit
4 and sets bit 5, and no other bit changes. -/
def Obligations.PushAndPullImages : Prop :=
  ∀ (b : Byte) (k : Nat), k < 8 →
    (pushImage b).getLsbD k = (if k = 4 ∨ k = 5 then true else b.getLsbD k) ∧
    (pullImage b).getLsbD k = (if k = 4 then false else if k = 5 then true else b.getLsbD k)

/-- What a bus access does (20_memory.md R60, R61, R69, R74; 92_eei_decisions.md D20). In plain memory a write
keeps the canonical form, the map and the devices; a read at its address, or at a mirror of it that stores,
gives the byte written, and every other cell is as before. Read-only storage answers its byte and keeps it.
A device answers the byte the Bus parameter defines for its state and its cell, and any byte, a free value,
where it defines none; a read or write takes it to the state the parameter names, and touches no memory. -/
def Obligations.ReadAfterWrite : Prop :=
  ∀ (b : Bus) (a : Addr) (v : Byte),
    (∀ b' : Bus, b.mem.wf = true → b.kindAt a = .memory → b.write a v = .next b' →
      b'.mem.wf = true ∧ b'.map = b.map ∧ b'.dev = b.dev ∧ b'.draws = b.draws ∧
      b'.log = .write a v :: b.log ∧
      (∀ c : Addr, b.cellAt c = b.cellAt a → b.stored c = true → ∃ b2, b'.read c = .next (v, b2)) ∧
      (∀ c : Addr, b.cellAt c ≠ b.cellAt a → b'.mem.get (b'.cellAt c) = b.mem.get (b.cellAt c))) ∧
    (b.kindAt a = .rom →
      b.read a = .next (b.mem.get (b.cellAt a),
        { b with log := .read a (b.mem.get (b.cellAt a)) :: b.log }) ∧
      b.write a v = .next { b with log := .write a v :: b.log }) ∧
    (∀ (r : ReadRow) (u : Byte), b.kindAt a = .device → b.dev.readRow (b.cellAt a) = some r →
      r.answer = some u →
      b.read a = .next (u,
        { b with dev := { b.dev with state := r.next.getD b.dev.state }, log := .read a u :: b.log })) ∧
    (b.kindAt a = .device → (b.dev.readRow (b.cellAt a)).bind (·.answer) = none →
      b.read a = .next (Config.deviceByte b.draws,
        { b with
          dev :=
            { b.dev with
              state := ((b.dev.readRow (b.cellAt a)).bind (·.next)).getD b.dev.state }
          draws := b.draws + 1
          log := .read a (Config.deviceByte b.draws) :: b.log })) ∧
    (b.kindAt a = .device →
      b.write a v = .next
        { b with
          dev :=
            { b.dev with
              state := ((b.dev.writeRow (b.cellAt a) v).bind (·.next)).getD b.dev.state }
          log := .write a v :: b.log })

/-- An access is answered exactly where the bus maps its address, and ends in BusFault of that address
where it does not (20_memory.md R63); a fetch at an unmapped PC ends the tick, and the instruction, in it,
and so does a micro-op whose access faults: the head of a queue, or Resolve in a decode tick. -/
def Obligations.UnmappedAccessFaults : Prop :=
  (∀ (b : Bus) (a : Addr) (v : Byte), b.kindAt a = .unmapped →
    b.read a = .fault (.busFault a) ∧ b.write a v = .fault (.busFault a)) ∧
  (∀ (b : Bus) (a : Addr) (v : Byte), b.kindAt a ≠ .unmapped →
    (∃ r, b.read a = .next r) ∧ (∃ b', b.write a v = .next b')) ∧
  (∀ s : State, s.q = [] → s.bus.kindAt s.pc = .unmapped →
    tick s = .fault (.busFault s.pc) ∧ step s = .fault (.busFault s.pc)) ∧
  (∀ (s : State) (k : MicroOp) (rest : List MicroOp) (f : Fault), s.q = k :: rest →
    perform k { s with q := rest } = .fault f → tick s = .fault f) ∧
  (∀ (s u : State) (f : Fault), s.q = [] → fetchByte s = .next u → operandsComplete u = true →
    perform .resolve { u with q := (buildQueue u.ins.1 u.ins.2).tail } = .fault f → tick s = .fault f)

/-- A word read (20_memory.md R62): the low byte at `a` is read first, then the high byte at `a +16 1`,
which wraps modulo 2^16 and never inside a page; a fault of either is the outcome. -/
def Obligations.WordReadIsLittleEndian : Prop :=
  ∀ (b : Bus) (a : Addr),
    (∀ lo b1 hi b2, b.read a = .next (lo, b1) → b1.read (a + 1) = .next (hi, b2) →
      ∃ w : Addr, b.readWord a = .next (w, b2) ∧ w.toNat = hi.toNat * 256 + lo.toNat ∧
        (a + 1).toNat = (a.toNat + 1) % 65536) ∧
    (∀ f, b.read a = .fault f → b.readWord a = .fault f) ∧
    (∀ r f, b.read a = .next r → r.2.read (a + 1) = .fault f → b.readWord a = .fault f)

/-- The operand of every mode (40_address_modes.md R131 to R139, R141): the value of IMM and ACC, and the
effective address of the others, as numbers: zero-page sums wrap in page 0, 16-bit sums modulo 2^16, and a
pointer is one word read at the address given, whose fault is the outcome. Byte 0x6C alone has mode IND. -/
def Obligations.AddressModes : Prop :=
  (∀ b : Byte, decodeMode b = .ind ↔ b = 0x6C) ∧
  ∀ (s : State) (b1 : Byte) (w : Addr),
    operandValue (.imm b1) s = .next (b1, s.bus) ∧
    operandValue .acc s = .next (s.a, s.bus) ∧
    (∃ ea, operandAddr (.zp b1) s = .next (ea, s.bus) ∧ ea.toNat = b1.toNat) ∧
    (∃ ea, operandAddr (.zpx b1) s = .next (ea, s.bus) ∧ ea.toNat = (b1.toNat + s.x.toNat) % 256) ∧
    (∃ ea, operandAddr (.zpy b1) s = .next (ea, s.bus) ∧ ea.toNat = (b1.toNat + s.y.toNat) % 256) ∧
    operandAddr (.abs w) s = .next (w, s.bus) ∧
    (∃ ea, operandAddr (.abx w) s = .next (ea, s.bus) ∧ ea.toNat = (w.toNat + s.x.toNat) % 65536) ∧
    (∃ ea, operandAddr (.aby w) s = .next (ea, s.bus) ∧ ea.toNat = (w.toNat + s.y.toNat) % 65536) ∧
    (∃ ea, effAddr .rel [b1] s = .next (ea, s.bus) ∧
      (ea.toNat : Int) = ((s.pc.toNat : Int) + b1.toInt) % 65536) ∧
    operandAddr (.ind w) s = s.bus.readWord w ∧
    (∃ p : Addr, p.toNat = (b1.toNat + s.x.toNat) % 256 ∧ operandAddr (.izx b1) s = s.bus.readWord p) ∧
    (∃ p : Addr, p.toNat = b1.toNat ∧
      (∀ v b, s.bus.readWord p = .next (v, b) →
        ∃ ea, operandAddr (.izy b1) s = .next (ea, b) ∧ ea.toNat = (v.toNat + s.y.toNat) % 65536) ∧
      (∀ f, s.bus.readWord p = .fault f → operandAddr (.izy b1) s = .fault f))

/-! ## The scheduler -/

/-- At a boundary, where the bytes at PC are stored and are those of a well-formed instruction, a step
is the meaning of that instruction in the state after its fetch (41_scheduler.md R166 to R168). -/
def Obligations.StepRunsTheDecodedInstruction : Prop :=
  ∀ (s : State) (i : Instr) (bytes : List Byte),
    s.boundary → i.wf = true → encode i = some bytes → HoldsAtPC s bytes →
      step s = exec i (afterFetch s bytes)

/-- The invariants of 10_state.md R48 hold at the end of every tick that does not fault, if they hold
before it; with them the canonical form of memory, and the clauses of assumption 13. -/
def Obligations.TickKeepsInvariant : Prop :=
  ∀ s t : State, s.Inv → tick s = .next t → t.Inv

/-- The same for a whole instruction: `step` keeps the invariant. -/
def Obligations.StepKeepsInvariant : Prop :=
  ∀ s t : State, s.Inv → step s = .next t → t.Inv

/-- The invariant holds after reset (the model's reset state: assumptions 2, 3, 6, 7). -/
def Obligations.ResetHasInvariant : Prop :=
  State.reset.Inv ∧ State.reset.boundary

/-- From a state with the invariant, no tick, no step and no run of ticks ends in an internal fault or a
refusal: the only stop is a bus fault (41_scheduler.md R176, 00_scope.md R17). -/
def Obligations.NoInternalFault : Prop :=
  ∀ s : State, s.Inv → ∀ n : Nat,
    ((∃ t, tickN n s = .next t) ∨ ∃ a, tickN n s = .fault (.busFault a)) ∧
    ((∃ t, step s = .next t) ∨ ∃ a, step s = .fault (.busFault a))

/-- On a bus that maps every address, no step faults, and the machine never stops: from every state with the
invariant, a run of any number of steps ends in a state (70_reset_and_hazards.md R401: "The core has no
halt instruction and no halted state"). -/
def Obligations.TotalBusNeverStops : Prop :=
  ∀ (s : State) (n : Nat), s.Inv → s.bus.total → SafeRun n s

/-- A tick that begins with a queue runs exactly one micro-op of cost 1, the head, and then every cost-0
micro-op up to the next one of cost 1 (41_scheduler.md R172): what it ran and what it left make up the
queue it began with. -/
def Obligations.QueuedTickRunsOneCostlyMicroOp : Prop :=
  ∀ s t : State, s.Inv → s.q ≠ [] → tick s = .next t →
    ∃ k free, s.q = k :: free ++ t.q ∧ cost k = 1 ∧ (∀ f ∈ free, cost f = 0) ∧ headCostsOne t.q

/-- The class (40_address_modes.md R142) and the queue of every opcode byte, written out by class and mode
(41_scheduler.md R178), the settle Idle of
R171 among it: after every list that costs nothing and has no operand bytes, and after no other. -/
def Obligations.QueueTable : Prop :=
  ∀ b : Byte,
    let t := decodeType b
    let md := decodeMode b
    accessClass t md =
      (if t ∈ ([.lda, .ldx, .ldy, .and, .ora, .eor, .adc, .sbc, .cmp, .cpx, .cpy, .bit] : List InstrType)
        then .read
      else if t ∈ ([.sta, .stx, .sty] : List InstrType) then .store
      else if t = .inc ∨ t = .dec then .rmw
      else if t ∈ ([.asl, .lsr, .rol, .ror] : List InstrType) ∧ md ≠ .acc then .rmw
      else if t = .jmp ∨ t = .jsr then .jump
      else .other) ∧
    buildQueue t md =
      match accessClass t md with
      | .read =>
        match md with
        | .imm => [.resolve, .exec]
        | .zp | .abs | .abx | .aby => [.resolve, .read, .exec]
        | .zpx | .zpy => [.resolve, .idle, .read, .exec]
        | .izx => [.resolve, .idle, .idle, .idle, .read, .exec]
        | .izy => [.resolve, .idle, .idle, .read, .exec]
        | _ => []
      | .store =>
        match md with
        | .zp | .abs => [.resolve, .write]
        | .zpx | .zpy | .abx | .aby => [.resolve, .idle, .write]
        | .izx | .izy => [.resolve, .idle, .idle, .idle, .write]
        | _ => []
      | .rmw =>
        match md with
        | .zp | .abs => [.resolve, .read, .modify, .write]
        | .zpx | .abx => [.resolve, .idle, .read, .modify, .write]
        | _ => []
      | .jump =>
        match t, md with
        | .jsr, .abs => [.resolve, .idle, .pushPCH, .pushPCL, .jump]
        | .jmp, .abs => [.resolve, .jump]
        | .jmp, .ind => [.resolve, .idle, .idle, .jump]
        | _, _ => []
      | .other =>
        match t with
        | .rts => [.resolve, .idle, .idle, .pullPCL, .pullPCH, .incPC]
        | .rti => [.resolve, .idle, .idle, .pullP, .pullPCL, .pullPCH]
        | .brk => [.resolve, .idle, .pushPCH, .pushPCL, .pushP, .idle, .vector]
        | .pha => [.resolve, .idle, .pushA]
        | .php => [.resolve, .idle, .pushP]
        | .pla => [.resolve, .idle, .idle, .pullA]
        | .plp => [.resolve, .idle, .idle, .pullP]
        | _ => if md = .rel then [.resolve, .exec] else [.resolve, .exec, .idle]

/-- The micro-ops that touch the bus are the twelve of 41_scheduler.md R164; Exec, Modify, Jump, IncPC and
Idle make no bus access, whatever the instruction. -/
def Obligations.OnlyTheListedMicroOpsTouchTheBus : Prop :=
  ∀ (k : MicroOp) (s t : State),
    k ∉ ([.resolve, .read, .write, .pushA, .pushP, .pushPCH, .pushPCL, .pullA, .pullP, .pullPCL, .pullPCH,
      .vector] : List MicroOp) →
    perform k s = .next t → t.bus = s.bus

/-- The bodies of the micro-ops that are not an instruction's own (41_scheduler.md R163): each has the effect
of its row where its bus access is answered, and ends in the fault where it is not. -/
def Obligations.MicroOpBodies : Prop :=
  ∀ s : State,
    perform .idle s = .next s ∧
    perform .jump s = .next { s with pc := s.ea } ∧
    perform .incPC s = .next { s with pc := s.pc + 1 } ∧
    (∀ v b, s.bus.read s.ea = .next (v, b) → perform .read s = .next { s with m := v, bus := b }) ∧
    (∀ f, s.bus.read s.ea = .fault f → perform .read s = .fault f) ∧
    (∀ b, s.bus.write s.ea s.sv = .next b → perform .write s = .next { s with bus := b }) ∧
    (∀ f, s.bus.write s.ea s.sv = .fault f → perform .write s = .fault f) ∧
    (∀ x ∈ ([(.pushA, s.a), (.pushP, s.p ||| 0x30), (.pushPCH, hi8 s.ret), (.pushPCL, lo8 s.ret)] :
        List (MicroOp × Byte)),
      (∀ b, s.bus.write (0x0100 + zext16 s.sp) x.2 = .next b →
        perform x.1 s = .next { s with sp := s.sp - 1, bus := b }) ∧
      (∀ f, s.bus.write (0x0100 + zext16 s.sp) x.2 = .fault f → perform x.1 s = .fault f)) ∧
    (∀ v b, s.bus.read (0x0100 + zext16 (s.sp + 1)) = .next (v, b) →
      (∃ p, perform .pullA s = .next { s with sp := s.sp + 1, a := v, p := p, bus := b } ∧
        NZof v p ∧ OnlyFlags [.n, .z] s.p p) ∧
      perform .pullP s = .next { s with sp := s.sp + 1, p := (v &&& 0xCF) ||| 0x20, bus := b } ∧
      perform .pullPCL s = .next { s with sp := s.sp + 1, pc := cat (hi8 s.pc) v, bus := b } ∧
      perform .pullPCH s = .next { s with sp := s.sp + 1, pc := cat v (lo8 s.pc), bus := b }) ∧
    (∀ f, s.bus.read (0x0100 + zext16 (s.sp + 1)) = .fault f →
      ∀ k ∈ ([.pullA, .pullP, .pullPCL, .pullPCH] : List MicroOp), perform k s = .fault f) ∧
    (∀ w b, s.bus.readWord 0xFFFE = .next (w, b) →
      perform .vector s = .next { s with pc := w, p := s.p ||| 0x04, bus := b }) ∧
    (∀ f, s.bus.readWord 0xFFFE = .fault f → perform .vector s = .fault f)

/-- Resolve (40_address_modes.md R130, R143): it writes latches and the bus, and no register, memory, slot
or queue; of the latches `sv` and `ret`, it fills `sv` for the stores, with the register they store, and
`ret` for JSR and BRK, with PC -16 1 and PC +16 1, and leaves them otherwise. -/
def Obligations.ResolveStagesTheLatches : Prop :=
  ∀ s t : State, perform .resolve s = .next t →
    t = { s with ea := t.ea, m := t.m, sv := t.sv, ret := t.ret, bus := t.bus } ∧ t.bus.mem = s.bus.mem ∧
    t.bus.map = s.bus.map ∧
    t.sv = (match s.ins.1 with | .sta => s.a | .stx => s.x | .sty => s.y | _ => s.sv) ∧
    t.ret = (match s.ins.1 with | .jsr => s.pc - 1 | .brk => s.pc + 1 | _ => s.ret)

/-- Every tick that does not fault adds 1 to `cycles` (41_scheduler.md R173). -/
def Obligations.EveryTickIsCounted : Prop :=
  ∀ s t : State, tick s = .next t → t.cycles = s.cycles + 1

/-- The trace sink receives one snapshot at the end of each tick that completes an instruction, with the
values after that tick, and nothing in any other tick (60_exceptions.md R371). -/
def Obligations.SinkIsCalledOncePerInstruction : Prop :=
  ∀ s t : State, s.Inv → tick s = .next t →
    (t.boundary ∧ t.sink = { regs := t.regs, cycles := t.cycles } :: s.sink) ∨
    (t.op ≠ none ∧ t.sink = s.sink)

/-- A step is the ticks up to the first that completes an instruction, no more and no fewer, and ends in the
fault that the ticks end in (41_scheduler.md R160, R162, R170). -/
def Obligations.StepIsTicksToCompletion : Prop :=
  ∀ s : State, s.Inv →
    (∀ t, step s = .next t →
      ∃ n, 0 < n ∧ tickN n s = .next t ∧ t.boundary ∧
        ∀ m u, 0 < m → m < n → tickN m s = .next u → u.op ≠ none) ∧
    (∀ f, step s = .fault f → ∃ n, tickN n s = .fault f)

/-- The ticks of every instruction are those of the table of 41_scheduler.md R179: counted from the decode,
with one tick for each operand byte before it; a taken branch takes one more, and two more to another
page. -/
def Obligations.TickCountsAreTheTable : Prop :=
  ∀ (i : Instr) (s t : State), exec i s = .next t →
    (i.mode ≠ .rel → t.cycles + operandCount i.mode = s.cycles + tableTicks i) ∧
    (i.mode = .rel → t.cycles + 1 = s.cycles +
      (if takes i s.p then (if hi8 t.pc = hi8 s.pc then 3 else 4) else 2))

/-- `LDA $1234` at 0x0600, tick by tick, as 41_scheduler.md R181 works it out. -/
def Obligations.WorkedExampleLda1234 : Prop :=
  ∀ s : State, s.boundary → s.pc = 0x0600 → HoldsAtPC s [0xAD, 0x34, 0x12] →
    s.bus.stored 0x1234 = true → s.peek 0x1234 = 0x80 →
    (∃ t, tickN 1 s = .next t ∧ t.op = some 0xAD ∧ t.pc = 0x0601 ∧ t.opnds = [] ∧ t.q = []) ∧
    (∃ t, tickN 2 s = .next t ∧ t.opnds = [0x34] ∧ t.pc = 0x0602 ∧ t.q = []) ∧
    (∃ t, tickN 3 s = .next t ∧ t.opnds = [0x34, 0x12] ∧ t.pc = 0x0603 ∧ t.ea = 0x1234 ∧
      t.q = [.read, .exec] ∧ t.a = s.a) ∧
    (∃ t, tickN 4 s = .next t ∧ t.m = 0x80 ∧ t.a = 0x80 ∧ getFlag .z t.p = false ∧
      getFlag .n t.p = true ∧ t.boundary ∧ t.pc = 0x0603 ∧ t.cycles = s.cycles + 4) ∧
    ∃ t, step s = .next t ∧ tickN 4 s = .next t

/-- No instruction reads a latch that an earlier instruction wrote (41_scheduler.md R175): whatever the
latches hold at a boundary, a step does the same. -/
def Obligations.LatchesCarryNothingAcrossInstructions : Prop :=
  ∀ (s : State) (ins : InstrType × Mode) (ea ret : Addr) (m sv : Byte), s.boundary →
    SameButLatches (step s) (step { s with ins := ins, ea := ea, m := m, sv := sv, ret := ret })

/-! ## Loads, stores, transfers (42_load_store_transfer.md) -/

/-- LDA, LDX and LDY: opcode bytes, the loaded register, N and Z, and nothing else (R201 to R203). -/
def Obligations.LoadsFillTheirRegister : Prop :=
  HasOpcodes .lda [(.imm, 0xA9), (.zp, 0xA5), (.zpx, 0xB5), (.abs, 0xAD), (.abx, 0xBD), (.aby, 0xB9),
    (.izx, 0xA1), (.izy, 0xB1)] ∧
  ReadRule .lda (LoadPost fun v r => { r with a := v }) ∧
  HasOpcodes .ldx [(.imm, 0xA2), (.zp, 0xA6), (.zpy, 0xB6), (.abs, 0xAE), (.aby, 0xBE)] ∧
  ReadRule .ldx (LoadPost fun v r => { r with x := v }) ∧
  HasOpcodes .ldy [(.imm, 0xA0), (.zp, 0xA4), (.zpx, 0xB4), (.abs, 0xAC), (.abx, 0xBC)] ∧
  ReadRule .ldy (LoadPost fun v r => { r with y := v })

/-- STA, STX and STY: opcode bytes, one write of the register at the effective address, no flag and no
register changed (R204 to R206). -/
def Obligations.StoresWriteTheirRegister : Prop :=
  HasOpcodes .sta [(.zp, 0x85), (.zpx, 0x95), (.abs, 0x8D), (.abx, 0x9D), (.aby, 0x99), (.izx, 0x81),
    (.izy, 0x91)] ∧
  StoreRule .sta (fun s => s.a) ∧
  HasOpcodes .stx [(.zp, 0x86), (.zpy, 0x96), (.abs, 0x8E)] ∧
  StoreRule .stx (fun s => s.x) ∧
  HasOpcodes .sty [(.zp, 0x84), (.zpx, 0x94), (.abs, 0x8C)] ∧
  StoreRule .sty (fun s => s.y)

/-- The six transfers (R207 to R212): the register copied, N and Z of it; TXS writes no flag. -/
def Obligations.TransfersCopyTheirRegister : Prop :=
  HasOpcodes .tax [(.imp, 0xAA)] ∧
  BareRule .tax (fun r => LoadPost (fun v r => { r with x := v }) r.a r) ∧
  HasOpcodes .tay [(.imp, 0xA8)] ∧
  BareRule .tay (fun r => LoadPost (fun v r => { r with y := v }) r.a r) ∧
  HasOpcodes .txa [(.imp, 0x8A)] ∧
  BareRule .txa (fun r => LoadPost (fun v r => { r with a := v }) r.x r) ∧
  HasOpcodes .tya [(.imp, 0x98)] ∧
  BareRule .tya (fun r => LoadPost (fun v r => { r with a := v }) r.y r) ∧
  HasOpcodes .tsx [(.imp, 0xBA)] ∧
  BareRule .tsx (fun r => LoadPost (fun v r => { r with x := v }) r.sp r) ∧
  HasOpcodes .txs [(.imp, 0x9A)] ∧
  BareRule .txs (fun r r' => r' = { r with sp := r.x })

/-! ## Arithmetic and logic (43_arith_logic.md) -/

/-- ADC (R231): opcode bytes, A, C, V, Z and N, and nothing else; D is not looked at. -/
def Obligations.AdcAddsWithCarry : Prop :=
  HasOpcodes .adc [(.imm, 0x69), (.zp, 0x65), (.zpx, 0x75), (.abs, 0x6D), (.abx, 0x7D), (.aby, 0x79),
    (.izx, 0x61), (.izy, 0x71)] ∧
  ReadRule .adc AddPost

/-- SBC (R232): opcode bytes, and the sum of ADC with the complemented operand; so A is A - m - (1 - C)
modulo 256, and C says that no borrow was needed. -/
def Obligations.SbcSubtractsWithBorrow : Prop :=
  HasOpcodes .sbc [(.imm, 0xE9), (.zp, 0xE5), (.zpx, 0xF5), (.abs, 0xED), (.abx, 0xFD), (.aby, 0xF9),
    (.izx, 0xE1), (.izy, 0xF1)] ∧
  ReadRule .sbc (fun m r r' =>
    AddPost (~~~m) r r' ∧
    (r'.a.toNat : Int) = ((r.a.toNat : Int) - m.toNat - (1 - (getFlag .c r.p).toNat)) % 256 ∧
    getFlag .c r'.p = decide (r.a.toNat ≥ m.toNat + (1 - (getFlag .c r.p).toNat)))

/-- AND, ORA and EOR (R233 to R235): opcode bytes, the bitwise result in A, N and Z of it. -/
def Obligations.LogicCombinesBitwise : Prop :=
  HasOpcodes .and [(.imm, 0x29), (.zp, 0x25), (.zpx, 0x35), (.abs, 0x2D), (.abx, 0x3D), (.aby, 0x39),
    (.izx, 0x21), (.izy, 0x31)] ∧
  ReadRule .and (fun m r => LoadPost (fun v r => { r with a := v }) (r.a &&& m) r) ∧
  HasOpcodes .ora [(.imm, 0x09), (.zp, 0x05), (.zpx, 0x15), (.abs, 0x0D), (.abx, 0x1D), (.aby, 0x19),
    (.izx, 0x01), (.izy, 0x11)] ∧
  ReadRule .ora (fun m r => LoadPost (fun v r => { r with a := v }) (r.a ||| m) r) ∧
  HasOpcodes .eor [(.imm, 0x49), (.zp, 0x45), (.zpx, 0x55), (.abs, 0x4D), (.abx, 0x5D), (.aby, 0x59),
    (.izx, 0x41), (.izy, 0x51)] ∧
  ReadRule .eor (fun m r => LoadPost (fun v r => { r with a := v }) (r.a ^^^ m) r)

/-- CMP, CPX and CPY (R236 to R238): opcode bytes, C, Z and N of the unsigned comparison; no register and
no other flag. -/
def Obligations.ComparesSetCarryZeroNegative : Prop :=
  HasOpcodes .cmp [(.imm, 0xC9), (.zp, 0xC5), (.zpx, 0xD5), (.abs, 0xCD), (.abx, 0xDD), (.aby, 0xD9),
    (.izx, 0xC1), (.izy, 0xD1)] ∧
  ReadRule .cmp (fun m r => ComparePost r.a m r) ∧
  HasOpcodes .cpx [(.imm, 0xE0), (.zp, 0xE4), (.abs, 0xEC)] ∧
  ReadRule .cpx (fun m r => ComparePost r.x m r) ∧
  HasOpcodes .cpy [(.imm, 0xC0), (.zp, 0xC4), (.abs, 0xCC)] ∧
  ReadRule .cpy (fun m r => ComparePost r.y m r)

/-- BIT (R239): Z of A & m, N and V bits 7 and 6 of m, nothing else. -/
def Obligations.BitTestsTheOperand : Prop :=
  HasOpcodes .bit [(.zp, 0x24), (.abs, 0x2C)] ∧
  ReadRule .bit (fun m r r' =>
    r' = { r with p := r'.p } ∧ getFlag .z r'.p = decide (r.a &&& m = 0) ∧
      getFlag .n r'.p = m.getLsbD 7 ∧ getFlag .v r'.p = m.getLsbD 6 ∧ OnlyFlags [.n, .v, .z] r.p r'.p)

/-- INC and DEC (R240, R241): one read, one write of m +8 1 or m -8 1, N and Z of it. -/
def Obligations.IncAndDecModifyMemory : Prop :=
  HasOpcodes .inc [(.zp, 0xE6), (.zpx, 0xF6), (.abs, 0xEE), (.abx, 0xFE)] ∧
  RmwRule .inc (fun m _ => BitVec.ofNat 8 (m.toNat + 1))
    (fun _ r p p' => NZof r p' ∧ OnlyFlags [.n, .z] p p') ∧
  HasOpcodes .dec [(.zp, 0xC6), (.zpx, 0xD6), (.abs, 0xCE), (.abx, 0xDE)] ∧
  RmwRule .dec (fun m _ => BitVec.ofNat 8 (m.toNat + 255))
    (fun _ r p p' => NZof r p' ∧ OnlyFlags [.n, .z] p p')

/-- INX, INY, DEX and DEY (R242 to R245): the register up or down by one modulo 256, N and Z of it. -/
def Obligations.IndexRegistersCount : Prop :=
  HasOpcodes .inx [(.imp, 0xE8)] ∧
  BareRule .inx (fun r => LoadPost (fun v r => { r with x := v }) (BitVec.ofNat 8 (r.x.toNat + 1)) r) ∧
  HasOpcodes .iny [(.imp, 0xC8)] ∧
  BareRule .iny (fun r => LoadPost (fun v r => { r with y := v }) (BitVec.ofNat 8 (r.y.toNat + 1)) r) ∧
  HasOpcodes .dex [(.imp, 0xCA)] ∧
  BareRule .dex (fun r => LoadPost (fun v r => { r with x := v }) (BitVec.ofNat 8 (r.x.toNat + 255)) r) ∧
  HasOpcodes .dey [(.imp, 0x88)] ∧
  BareRule .dey (fun r => LoadPost (fun v r => { r with y := v }) (BitVec.ofNat 8 (r.y.toNat + 255)) r)

/-! ## Shifts and rotates (44_shift_rotate.md) -/

/-- ASL, LSR, ROL and ROR (R270 to R274): opcode bytes; result and carry as numbers; the accumulator form
writes A, a memory form reads and writes its location once; N, Z and C, nothing else. -/
def Obligations.ShiftsAndRotates : Prop :=
  HasOpcodes .asl [(.acc, 0x0A), (.zp, 0x06), (.zpx, 0x16), (.abs, 0x0E), (.abx, 0x1E)] ∧
  ShiftRule .asl { result := fun m _ => m * 2, carry := fun m => decide (m ≥ 128) } ∧
  HasOpcodes .lsr [(.acc, 0x4A), (.zp, 0x46), (.zpx, 0x56), (.abs, 0x4E), (.abx, 0x5E)] ∧
  ShiftRule .lsr { result := fun m _ => m / 2, carry := fun m => decide (m % 2 = 1) } ∧
  HasOpcodes .rol [(.acc, 0x2A), (.zp, 0x26), (.zpx, 0x36), (.abs, 0x2E), (.abx, 0x3E)] ∧
  ShiftRule .rol { result := fun m c => m * 2 + c, carry := fun m => decide (m ≥ 128) } ∧
  HasOpcodes .ror [(.acc, 0x6A), (.zp, 0x66), (.zpx, 0x76), (.abs, 0x6E), (.abx, 0x7E)] ∧
  ShiftRule .ror { result := fun m c => m / 2 + c * 128, carry := fun m => decide (m % 2 = 1) }

/-! ## Control (45_control.md) -/

/-- JMP (R291): PC becomes the operand, or the word at the operand; no flag, no other register. -/
def Obligations.JmpSetsPC : Prop :=
  HasOpcodes .jmp [(.abs, 0x4C), (.ind, 0x6C)] ∧
  HasQueue .jmp .jump [(.abs, [.resolve, .jump]), (.ind, [.resolve, .idle, .idle, .jump])] ∧
  ∀ (w : Addr) (s : State),
    Ends (.jmp (.abs w)) s { s.regs with pc := w } s.bus ∧
    (∀ v b, s.bus.readWord w = .next (v, b) → Ends (.jmp (.ind w)) s { s.regs with pc := v } b) ∧
    (∀ f, s.bus.readWord w = .fault f → exec (.jmp (.ind w)) s = .fault f)

/-- JSR (R292): the address of its last byte is pushed, high byte first, and PC becomes the operand; SP
wraps; a fault of either push is the outcome. -/
def Obligations.JsrPushesAndJumps : Prop :=
  HasOpcodes .jsr [(.abs, 0x20)] ∧
  HasQueue .jsr .jump [(.abs, [.resolve, .idle, .pushPCH, .pushPCL, .jump])] ∧
  ∀ (w : Addr) (s : State),
    (∀ b1 b2, s.bus.write (0x0100 + zext16 s.sp) (hi8 (s.pc - 1)) = .next b1 →
      b1.write (0x0100 + zext16 (s.sp - 1)) (lo8 (s.pc - 1)) = .next b2 →
      Ends (.jsr w) s { s.regs with sp := s.sp - 2, pc := w } b2) ∧
    (∀ f, s.bus.write (0x0100 + zext16 s.sp) (hi8 (s.pc - 1)) = .fault f →
      exec (.jsr w) s = .fault f) ∧
    (∀ b1 f, s.bus.write (0x0100 + zext16 s.sp) (hi8 (s.pc - 1)) = .next b1 →
      b1.write (0x0100 + zext16 (s.sp - 1)) (lo8 (s.pc - 1)) = .fault f → exec (.jsr w) s = .fault f)

/-- RTS (R293): low and high byte of PC are pulled and PC is incremented; a fault of either pull is the
outcome; with the queue and the round trip with JSR. -/
def Obligations.RtsPullsPC : Prop :=
  HasOpcodes .rts [(.imp, 0x60)] ∧
  HasQueue .rts .other [(.imp, [.resolve, .idle, .idle, .pullPCL, .pullPCH, .incPC])] ∧
  JsrThenRtsReturns ∧
  ∀ s : State,
    (∀ lo b1 hi b2, s.bus.read (0x0100 + zext16 (s.sp + 1)) = .next (lo, b1) →
      b1.read (0x0100 + zext16 (s.sp + 2)) = .next (hi, b2) →
      Ends .rts s { s.regs with sp := s.sp + 2, pc := cat hi lo + 1 } b2) ∧
    (∀ f, s.bus.read (0x0100 + zext16 (s.sp + 1)) = .fault f → exec .rts s = .fault f) ∧
    (∀ r f, s.bus.read (0x0100 + zext16 (s.sp + 1)) = .next r →
      r.2.read (0x0100 + zext16 (s.sp + 2)) = .fault f → exec .rts s = .fault f)

/-- The eight branches (R294 to R302): opcode bytes, the condition of each, the target, and the ticks. -/
def Obligations.BranchesTestOneFlag : Prop :=
  HasOpcodes .bpl [(.rel, 0x10)] ∧ BranchRule .bpl (fun p => getFlag .n p = false) ∧
  HasOpcodes .bmi [(.rel, 0x30)] ∧ BranchRule .bmi (fun p => getFlag .n p = true) ∧
  HasOpcodes .bvc [(.rel, 0x50)] ∧ BranchRule .bvc (fun p => getFlag .v p = false) ∧
  HasOpcodes .bvs [(.rel, 0x70)] ∧ BranchRule .bvs (fun p => getFlag .v p = true) ∧
  HasOpcodes .bcc [(.rel, 0x90)] ∧ BranchRule .bcc (fun p => getFlag .c p = false) ∧
  HasOpcodes .bcs [(.rel, 0xB0)] ∧ BranchRule .bcs (fun p => getFlag .c p = true) ∧
  HasOpcodes .bne [(.rel, 0xD0)] ∧ BranchRule .bne (fun p => getFlag .z p = false) ∧
  HasOpcodes .beq [(.rel, 0xF0)] ∧ BranchRule .beq (fun p => getFlag .z p = true)

/-! ## Stack, trap, flags (46_stack_flags_system.md, 60_exceptions.md) -/

/-- PHA and PHP (R321, R322): one byte is written at 0x0100 + SP, A or P with bits 4 and 5 set, and SP goes
down by one, wrapping; no flag changes. -/
def Obligations.PushesWriteTheStack : Prop :=
  HasOpcodes .pha [(.imp, 0x48)] ∧ HasOpcodes .php [(.imp, 0x08)] ∧
  HasQueue .pha .other [(.imp, [.resolve, .idle, .pushA])] ∧
  HasQueue .php .other [(.imp, [.resolve, .idle, .pushP])] ∧
  ∀ s : State,
    (∀ b, s.bus.write (0x0100 + zext16 s.sp) s.a = .next b →
      Ends .pha s { s.regs with sp := s.sp - 1 } b) ∧
    (∀ f, s.bus.write (0x0100 + zext16 s.sp) s.a = .fault f → exec .pha s = .fault f) ∧
    (∀ b, s.bus.write (0x0100 + zext16 s.sp) (s.p ||| 0x30) = .next b →
      Ends .php s { s.regs with sp := s.sp - 1 } b) ∧
    (∀ f, s.bus.write (0x0100 + zext16 s.sp) (s.p ||| 0x30) = .fault f → exec .php s = .fault f)

/-- PLA and PLP (R323, R324): SP goes up by one, wrapping, and the byte at 0x0100 + SP goes to A, with N
and Z of it, or through the pull path to P; with the queues and the round trip of PHP and PLP. -/
def Obligations.PullsReadTheStack : Prop :=
  HasOpcodes .pla [(.imp, 0x68)] ∧ HasOpcodes .plp [(.imp, 0x28)] ∧
  HasQueue .pla .other [(.imp, [.resolve, .idle, .idle, .pullA])] ∧
  HasQueue .plp .other [(.imp, [.resolve, .idle, .idle, .pullP])] ∧
  PhpThenPlpRestoresStatus ∧
  ∀ s : State,
    (∀ v b, s.bus.read (0x0100 + zext16 (s.sp + 1)) = .next (v, b) →
      (∃ r, LoadPost (fun v r => { r with a := v, sp := r.sp + 1 }) v s.regs r ∧ Ends .pla s r b) ∧
      Ends .plp s { s.regs with sp := s.sp + 1, p := (v &&& 0xCF) ||| 0x20 } b) ∧
    (∀ f, s.bus.read (0x0100 + zext16 (s.sp + 1)) = .fault f →
      exec .pla s = .fault f ∧ exec .plp s = .fault f)

/-- BRK (R325, 60_exceptions.md R364): its address + 2 is pushed, high byte first, then P with bits 4 and 5
set; PC comes from 0xFFFE, I becomes 1, SP goes down by 3, and nothing else changes; the first access that
faults is the outcome. -/
def Obligations.BrkTakesTheTrap : Prop :=
  HasOpcodes .brk [(.imp, 0x00)] ∧
  HasQueue .brk .other [(.imp, [.resolve, .idle, .pushPCH, .pushPCL, .pushP, .idle, .vector])] ∧
  ∀ s : State,
    (∀ b1 b2 b3 pc b4, s.bus.write (0x0100 + zext16 s.sp) (hi8 (s.pc + 1)) = .next b1 →
      b1.write (0x0100 + zext16 (s.sp - 1)) (lo8 (s.pc + 1)) = .next b2 →
      b2.write (0x0100 + zext16 (s.sp - 2)) (s.p ||| 0x30) = .next b3 →
      b3.readWord 0xFFFE = .next (pc, b4) →
      Ends .brk s { s.regs with sp := s.sp - 3, pc := pc, p := s.p ||| 0x04 } b4) ∧
    (∀ f, s.bus.write (0x0100 + zext16 s.sp) (hi8 (s.pc + 1)) = .fault f → exec .brk s = .fault f) ∧
    (∀ b1 f, s.bus.write (0x0100 + zext16 s.sp) (hi8 (s.pc + 1)) = .next b1 →
      b1.write (0x0100 + zext16 (s.sp - 1)) (lo8 (s.pc + 1)) = .fault f → exec .brk s = .fault f) ∧
    (∀ b1 b2 f, s.bus.write (0x0100 + zext16 s.sp) (hi8 (s.pc + 1)) = .next b1 →
      b1.write (0x0100 + zext16 (s.sp - 1)) (lo8 (s.pc + 1)) = .next b2 →
      b2.write (0x0100 + zext16 (s.sp - 2)) (s.p ||| 0x30) = .fault f → exec .brk s = .fault f) ∧
    (∀ b1 b2 b3 f, s.bus.write (0x0100 + zext16 s.sp) (hi8 (s.pc + 1)) = .next b1 →
      b1.write (0x0100 + zext16 (s.sp - 1)) (lo8 (s.pc + 1)) = .next b2 →
      b2.write (0x0100 + zext16 (s.sp - 2)) (s.p ||| 0x30) = .next b3 →
      b3.readWord 0xFFFE = .fault f → exec .brk s = .fault f)

/-- RTI (R326): P is pulled, through the pull path, then PC low, then PC high; no increment follows;
with the queue and the round trip with BRK. -/
def Obligations.RtiReturnsFromTheTrap : Prop :=
  HasOpcodes .rti [(.imp, 0x40)] ∧
  HasQueue .rti .other [(.imp, [.resolve, .idle, .idle, .pullP, .pullPCL, .pullPCH])] ∧
  BrkThenRtiReturns ∧
  ∀ s : State,
    (∀ v b1 lo b2 hi b3, s.bus.read (0x0100 + zext16 (s.sp + 1)) = .next (v, b1) →
      b1.read (0x0100 + zext16 (s.sp + 2)) = .next (lo, b2) →
      b2.read (0x0100 + zext16 (s.sp + 3)) = .next (hi, b3) →
      Ends .rti s { s.regs with sp := s.sp + 3, pc := cat hi lo, p := (v &&& 0xCF) ||| 0x20 } b3) ∧
    (∀ f, s.bus.read (0x0100 + zext16 (s.sp + 1)) = .fault f → exec .rti s = .fault f) ∧
    (∀ r f, s.bus.read (0x0100 + zext16 (s.sp + 1)) = .next r →
      r.2.read (0x0100 + zext16 (s.sp + 2)) = .fault f → exec .rti s = .fault f) ∧
    (∀ r r' f, s.bus.read (0x0100 + zext16 (s.sp + 1)) = .next r →
      r.2.read (0x0100 + zext16 (s.sp + 2)) = .next r' →
      r'.2.read (0x0100 + zext16 (s.sp + 3)) = .fault f → exec .rti s = .fault f)

/-- BRK and RTI, spread over ticks by the scheduler, are the trap entry and the trap return of
60_exceptions.md R364 and R366 as single operations. -/
def Obligations.TrapEntryAndReturnAreOneOperation : Prop :=
  ∀ s : State,
    (∀ u, takeTrap { s with ret := s.pc + 1 } = .next u → Ends .brk s u.regs u.bus) ∧
    (∀ f, takeTrap { s with ret := s.pc + 1 } = .fault f → exec .brk s = .fault f) ∧
    (∀ u, returnFromTrap s = .next u → Ends .rti s u.regs u.bus) ∧
    (∀ f, returnFromTrap s = .fault f → exec .rti s = .fault f)

/-- The seven flag instructions (R327 to R333): opcode byte, the one flag, and nothing else. -/
def Obligations.FlagInstructionsWriteOneFlag : Prop :=
  HasOpcodes .clc [(.imp, 0x18)] ∧ FlagRule .clc .c false ∧
  HasOpcodes .sec [(.imp, 0x38)] ∧ FlagRule .sec .c true ∧
  HasOpcodes .cli [(.imp, 0x58)] ∧ FlagRule .cli .i false ∧
  HasOpcodes .sei [(.imp, 0x78)] ∧ FlagRule .sei .i true ∧
  HasOpcodes .clv [(.imp, 0xB8)] ∧ FlagRule .clv .v false ∧
  HasOpcodes .cld [(.imp, 0xD8)] ∧ FlagRule .cld .d false ∧
  HasOpcodes .sed [(.imp, 0xF8)] ∧ FlagRule .sed .d true

/-- NOP (R334) and Illegal (R335): the 105 bytes of 30_encoding.md R106, and no register, flag, memory
byte or bus access beyond the fetch. -/
def Obligations.NopAndIllegalDoNothing : Prop :=
  HasQueue .nop .other [(.imp, [.resolve, .exec, .idle])] ∧
  HasQueue .illegal .other [(.none, [.resolve, .exec, .idle])] ∧
  HasOpcodes .nop [(.imp, 0xEA)] ∧ BareRule .nop (fun r r' => r' = r) ∧
  (∀ b : Byte, decodePair b = (.illegal, .none) ↔ isIllegalByte b = true) ∧
  (∀ b : Byte, decodeType b = .illegal ↔ isIllegalByte b = true) ∧
  ∀ b : Byte, isIllegalByte b = true → BareRule (.illegal b) (fun r r' => r' = r)

/-! ## Frames and whole-machine rules -/

/-- A form that stores nothing leaves every byte of memory as it was. -/
def Obligations.NonStoringFormsLeaveMemory : Prop :=
  ∀ (i : Instr) (s t : State), storesNothing i = true → exec i s = .next t →
    ∀ a : Addr, t.peek a = s.peek a

/-- A store or a read-modify-write form changes no byte of memory but the one at its effective address,
the address Resolve computes, and its mirrors. -/
def Obligations.StoringFormsWriteOneByte : Prop :=
  ∀ (i : Instr) (o : Operand) (s t : State), storeOperand i = some o → exec i s = .next t →
    ∀ (ea : Addr) (b : Bus), operandAddr o s = .next (ea, b) →
      ∀ a : Addr, s.bus.cellAt a ≠ s.bus.cellAt ea → t.peek a = s.peek a

/-- PHA and PHP change no byte but the one at 0x0100 + SP, JSR none but the two, and BRK none but the three,
at 0x0100 + SP and below, wrapping in the stack page, and the mirrors of those. -/
def Obligations.PushingFormsWriteOnlyTheStack : Prop :=
  ∀ (s t : State) (w a : Addr),
    let apart (sp : Byte) : Prop := s.bus.cellAt a ≠ s.bus.cellAt (stackAddr sp)
    (exec .pha s = .next t ∨ exec .php s = .next t → apart s.sp → t.peek a = s.peek a) ∧
    (exec (.jsr w) s = .next t → apart s.sp → apart (s.sp - 1) → t.peek a = s.peek a) ∧
    (exec .brk s = .next t → apart s.sp → apart (s.sp - 1) → apart (s.sp - 2) → t.peek a = s.peek a)

/-- The flag table (10_state.md R38): no instruction changes a flag that the table does not give it; the
reserved bit changes only where PLP or RTI set it. -/
def Obligations.OnlyTheTableWritesFlags : Prop :=
  ∀ (i : Instr) (s t : State), exec i s = .next t →
    (∀ f, f ∉ flagsWritten i.type → getFlag f t.p = getFlag f s.p) ∧
    (t.p.getLsbD 5 = s.p.getLsbD 5 ∨ (t.p.getLsbD 5 = true ∧ (i = .plp ∨ i = .rti)))

/-- The register writers (10_state.md R31 to R35): A, X, Y, SP and, after the fetch, PC are unchanged by
every instruction that is not listed as writing them. -/
def Obligations.OnlyTheListedInstructionsWriteRegisters : Prop :=
  ∀ (i : Instr) (s t : State), exec i s = .next t →
    (writesA i = false → t.a = s.a) ∧ (writesX i = false → t.x = s.x) ∧
    (writesY i = false → t.y = s.y) ∧ (writesSP i = false → t.sp = s.sp) ∧
    (writesPC i = false → t.pc = s.pc)

/-- D and I change no instruction's behaviour (10_state.md R41, R42): for every instruction but PHP and BRK,
which push them, changing D or I beforehand changes nothing in the outcome but that flag. -/
def Obligations.DecimalAndInterruptFlagsHaveNoEffect : Prop :=
  ∀ (i : Instr) (s : State) (f : Flag) (v : Bool), i.wf = true → i ≠ .php → i ≠ .brk →
    f = .d ∨ f = .i →
    SameButFlag f (exec i s) (exec i { s with p := setFlag f v s.p })

/-- A write is seen by every later fetch (20_memory.md R77, 70_reset_and_hazards.md R399): after a store, a
read-modify-write form in memory or a pushing form, a byte it wrote to plain memory, and did not write over
itself, is what a fetch takes from that address or a mirror of it that stores, in the next state (`u` is `t`)
and in any later one before another write: as an opcode, or as an operand byte. -/
def Obligations.StoreIsSeenByTheNextFetch : Prop :=
  ∀ (i : Instr) (s t u : State) (a : Addr) (v : Byte) (before after : List (Addr × Byte)),
    s.bus.mem.wf = true → exec i s = .next t →
    writesOf i s = before ++ (a, v) :: after → s.bus.kindAt a = .memory →
    (∀ w ∈ after, s.bus.cellAt w.1 ≠ s.bus.cellAt a) →
    u.bus.map = t.bus.map → u.bus.mem = t.bus.mem →
    u.bus.stored u.pc = true → u.bus.cellAt u.pc = s.bus.cellAt a →
    ∃ f, fetchByte u = .next f ∧ f.pc = u.pc + 1 ∧
      (u.op = none → f.op = some v) ∧
      (u.op ≠ none → f.op = u.op ∧ f.opnds = u.opnds ++ [v])

/-! ## Host calls (70_reset_and_hazards.md) -/

/-- power_on (R391, 10_state.md R49): from any state, the registers, slots and counter it leaves, PC from
0xFFFC with the low byte read first, no memory written; a fault of the vector read is the outcome; and the
default of POWER_ON_SP is 0xFD. -/
def Obligations.PowerOnSetsEverything : Prop :=
  (∀ a : Addr, ({ loadAddr := a } : Config.Params).powerOnSp = 0xFD) ∧
  ∀ (cfg : Config.Params) (s : State),
    (∀ pc b, s.bus.readWord 0xFFFC = .next (pc, b) →
      ∃ t, powerOn cfg s = .next t ∧
        t.regs = { a := 0, x := 0, y := 0, sp := cfg.powerOnSp, pc := pc, p := 0x24 } ∧
        t.boundary ∧ t.cycles = 0 ∧ t.bus = b ∧ (∀ a, t.peek a = s.peek a) ∧ t.sink = s.sink) ∧
    (∀ f, s.bus.readWord 0xFFFC = .fault f → powerOn cfg s = .fault f)

/-- reset (R392, 10_state.md R50), from any state, in mid-instruction too (R393): SP down by 3, I set and
every other bit of P kept, A, X, Y and cycles kept, slots and queue cleared, PC from 0xFFFC, no memory
written. -/
def Obligations.ResetKeepsRegisters : Prop :=
  ∀ s : State,
    (∀ pc b, s.bus.readWord 0xFFFC = .next (pc, b) →
      ∃ t, hostReset s = .next t ∧
        t.regs = { s.regs with sp := s.sp - 3, pc := pc, p := t.p } ∧
        getFlag .i t.p = true ∧ OnlyFlags [.i] s.p t.p ∧
        t.boundary ∧ t.cycles = s.cycles ∧ t.bus = b ∧ (∀ a, t.peek a = s.peek a) ∧
        t.sink = s.sink) ∧
    (∀ f, s.bus.readWord 0xFFFC = .fault f → hostReset s = .fault f)

/-- load_program (20_memory.md R72, 70_reset_and_hazards.md R395), over plain memory in which no two bytes of
the image share a cell: byte k is at LOAD_ADDR +16 k afterwards, every other cell and everything of the core
is as before. -/
def Obligations.LoadProgramWritesTheImage : Prop :=
  ∀ (cfg : Config.Params) (bytes : List Byte) (s : State), s.bus.mem.wf = true →
    let at_ (k : Nat) : Addr := cfg.loadAddr + BitVec.ofNat 16 k
    (∀ k < bytes.length, s.bus.kindAt (at_ k) = .memory) →
    (∀ j < bytes.length, ∀ k < bytes.length, j ≠ k →
      s.bus.cellAt (at_ j) ≠ s.bus.cellAt (at_ k)) →
    ∃ t, loadProgram cfg bytes s = .next t ∧ t = { s with bus := t.bus } ∧ t.bus.map = s.bus.map ∧
      (∀ k < bytes.length, t.peek (at_ k) = bytes.getD k 0) ∧
      (∀ a : Addr, (∀ k < bytes.length, s.bus.cellAt a ≠ s.bus.cellAt (at_ k)) → t.peek a = s.peek a)

/-- The model's reset state is the one power_on leaves over the model's blank bus, with the default of
POWER_ON_SP (assumptions 2, 3, 6 and 7: the bus, its contents, SP and the latches are the model's choice). -/
def Obligations.ResetStateIsPowerOn : Prop :=
  ∀ (s : State) (l : Addr), s.bus = { State.reset.bus with log := [] } → s.sink = [] →
    s.ins = (.illegal, .none) → s.ea = 0 → s.m = 0 → s.sv = 0 → s.ret = 0 →
    powerOn { loadAddr := l } s = .next State.reset
end

