-- ==== Sys2Proof/Laws/Decode.lean ====
section
/-! SUPPORT. The laws of the decoder and the encoder: byte halves, the opcode of an instruction, and what
`instrOf` answers on the operand bytes of an instruction and on any bytes. -/

namespace Sys2Proof.Machine

theorem cat_hi8_lo8 (w : Addr) : cat (hi8 w) (lo8 w) = w := by
  unfold cat hi8 lo8; apply BitVec.eq_of_toNat_eq; simp; omega

@[simp] theorem lo8_cat (h l : Byte) : lo8 (cat h l) = l := by
  unfold cat lo8; apply BitVec.eq_of_toNat_eq; simp; omega

@[simp] theorem hi8_cat (h l : Byte) : hi8 (cat h l) = h := by
  unfold cat hi8; apply BitVec.eq_of_toNat_eq; simp; omega

theorem cat_toNat (h l : Byte) : (cat h l).toNat = h.toNat * 256 + l.toNat := by
  unfold cat; simp; omega

theorem zext16_toNat (b : Byte) : (zext16 b).toNat = b.toNat := by
  unfold zext16; simp; omega

end Sys2Proof.Machine

namespace Sys2Proof

open Sys2Proof.Machine

/-- What the matrix gives each byte: an Illegal byte only to Illegal, a form its type has, and the byte the
opcode lists give that form. -/
theorem decodePair_facts (b : Byte) :
    (decodeType b = .illegal ↔ isIllegalByte b = true) ∧
    (decodeType b).modes.contains (decodeMode b) = true ∧
    (decodeType b ≠ .illegal → (opcodesOf (decodeType b)).lookup (decodeMode b) = some b) := by
  revert b; decide +kernel

/-- A well-formed instruction has an opcode byte, and the matrix gives that byte its type and mode. -/
theorem Instr.opcode_of_wf {i : Instr} (h : i.wf = true) :
    ∃ b, i.opcode? = some b ∧ decodePair b = (i.type, i.mode) := by
  cases i
  case illegal b =>
    have hw : isIllegalByte b = true := by
      simp only [Instr.wf, Instr.byteOk, Bool.and_eq_true] at h
      exact h.2
    have hi : decodeType b = .illegal := (decodePair_facts b).1.mpr hw
    have hm : decodeMode b = .none := by
      have := (decodePair_facts b).2.1
      rw [hi] at this
      simpa [InstrType.modes] using this
    exact ⟨b, by simp [Instr.opcode?, hi], Prod.ext hi hm⟩
  all_goals first
    | exact ⟨_, rfl, rfl⟩
    | (rename_i o
       cases o <;> first
        | exact ⟨_, rfl, rfl⟩
        | (exact absurd h (by simp [Instr.wf, Instr.formOk, Instr.type, Instr.mode, InstrType.modes,
            aluModes, Operand.mode])))

/-- A term that is not well-formed has none. -/
theorem Instr.opcode_of_not_wf {i : Instr} (h : i.wf = false) : i.opcode? = none := by
  cases i
  case illegal b =>
    have hb : isIllegalByte b = false := by
      simpa [Instr.wf, Instr.formOk, Instr.type, Instr.mode, InstrType.modes, Instr.byteOk] using h
    have hi : decodeType b ≠ .illegal := fun e => by
      have := (decodePair_facts b).1.mp e
      rw [hb] at this; cases this
    simp [Instr.opcode?, hi]
  all_goals first
    | (revert h
       simp [Instr.wf, Instr.formOk, Instr.type, Instr.mode, InstrType.modes, Instr.byteOk]
       done)
    | (rename_i o
       cases o <;> first
        | rfl
        | (revert h
           simp [Instr.wf, Instr.formOk, Instr.type, Instr.mode, InstrType.modes, aluModes,
            Operand.mode, Instr.byteOk]))

theorem Instr.operandBytes_length (i : Instr) : i.operandBytes.length = operandCount i.mode := by
  cases i <;> first | rfl | (rename_i o; cases o <;> rfl)

/-- The operand bytes of an instruction assemble to it again. -/
theorem instrOf_operandBytes {i : Instr} {b : Byte} (h : decodePair b = (i.type, i.mode))
    (hill : ∀ c, i = .illegal c → c = b) : instrOf b i.operandBytes = some i := by
  have ht : decodeType b = i.type := by simp [decodeType, h]
  have hm : decodeMode b = i.mode := by simp [decodeMode, h]
  cases i
  case illegal c =>
    have := hill c rfl; subst this
    simp [instrOf, ht, Instr.type, bare, Instr.operandBytes]
  all_goals first
    | (simp [instrOf, ht, Instr.type, bare, Instr.operandBytes, targetOf, offsetOf, cat_hi8_lo8]; done)
    | (rename_i o
       cases o <;> simp [instrOf, ht, hm, Instr.type, Instr.operandBytes, Instr.mode, Operand.mode,
        Operand.bytes, operandOf, cat_hi8_lo8])

/-- What `instrOf` answers has the type and mode of the opcode byte and exactly the operand bytes given. -/
theorem instrOf_eq_some {b : Byte} {l : List Byte} {i : Instr} (h : instrOf b l = some i) :
    i.type = decodeType b ∧ i.mode = decodeMode b ∧ i.operandBytes = l ∧
      ∀ c, i = .illegal c → c = b := by
  have hbare : ∀ j, bare j l = some i → i = j ∧ l = [] := by
    intro j; unfold bare; split <;> simp; intro h; exact h.symm
  have htg : ∀ j, targetOf l = some j → l = [lo8 j, hi8 j] := by
    intro j; unfold targetOf; split <;> simp; intro h; subst h; simp
  have hof : ∀ j, offsetOf l = some j → l = [j] := by
    intro j; unfold offsetOf; split <;> simp
  have hop : ∀ j, operandOf (decodeMode b) l = some j → l = j.bytes ∧ j.mode = decodeMode b := by
    intro j; unfold operandOf
    split <;> simp <;> rintro rfl <;> simp [Operand.bytes, Operand.mode, *]
  have hb := (decodePair_facts b).2.1
  unfold instrOf at h
  split at h <;> rename_i hty <;> rw [hty] at hb <;>
    simp only [InstrType.modes, List.contains_cons, List.contains_nil, Bool.or_false, beq_iff_eq] at hb
  all_goals first
    | (obtain ⟨rfl, rfl⟩ := hbare _ h
       simp [Instr.type, Instr.mode, hty, hb, Instr.operandBytes])
    | (simp only [Option.map_eq_some_iff] at h
       obtain ⟨j, hj, rfl⟩ := h
       first
        | (obtain ⟨h1, h2⟩ := hop j hj
           simp [Instr.type, Instr.mode, hty, h1, h2, Instr.operandBytes]; done)
        | (have := htg j hj; simp [Instr.type, Instr.mode, hty, this, hb, Instr.operandBytes])
        | (have := hof j hj; simp [Instr.type, Instr.mode, hty, this, hb, Instr.operandBytes]))

/-- With the number of operand bytes its mode needs, every opcode byte is an instruction. -/
theorem instrOf_some {b : Byte} {l : List Byte} (h : l.length = operandCount (decodeMode b)) :
    ∃ i, instrOf b l = some i := by
  have hb := (decodePair_facts b).2.1
  unfold instrOf
  generalize decodeType b = t at *
  generalize decodeMode b = md at *
  rcases l with _ | ⟨x, _ | ⟨y, _ | ⟨z, l⟩⟩⟩ <;> cases md <;> simp [operandCount] at h <;>
    cases t <;> simp [InstrType.modes, aluModes] at hb <;> exact ⟨_, rfl⟩

/-- The opcode of an instruction that an opcode byte and operand bytes are, is that byte. -/
theorem opcode_of_instrOf {b : Byte} {l : List Byte} {i : Instr} (h : instrOf b l = some i) :
    i.opcode? = some b := by
  obtain ⟨h1, h2, h3, h4⟩ := instrOf_eq_some h
  cases i
  case illegal c =>
    have := h4 c rfl; subst this; simp [Instr.opcode?, ← h1, Instr.type]
  all_goals
    simp only [Instr.opcode?]
    rw [h1, h2]
    exact (decodePair_facts b).2.2 (by rw [← h1]; simp [Instr.type])

theorem operandCount_le (md : Mode) : operandCount md ≤ 2 := by cases md <;> decide

end Sys2Proof
end

