-- ==== Sys2Proof/Laws/Flags.lean ====
section
/-! SUPPORT. The laws of the status register: every bit of P after a flag is written, and after N and Z are
set from a byte. -/

namespace Sys2Proof.Machine

theorem flagBit_lt (f : Flag) : flagBit f < 8 := by cases f <;> decide

theorem flagBit_inj {f g : Flag} (h : flagBit f = flagBit g) : f = g := by
  cases f <;> cases g <;> first | rfl | (exact absurd h (by decide))

/-- Every bit of P after one flag is written. -/
theorem setFlag_getLsbD (f : Flag) (v : Bool) (p : Byte) {k : Nat} (hk : k < 8) :
    (setFlag f v p).getLsbD k = if k = flagBit f then v else p.getLsbD k := by
  have h1 : (1#8 <<< flagBit f).getLsbD k = decide (k = flagBit f) := by
    have hf := flagBit_lt f
    rw [BitVec.getLsbD_shiftLeft]
    by_cases h : k = flagBit f
    · subst h; simp [hf]
    · by_cases hlt : k < flagBit f
      · simp [hlt, h]
      · have : k - flagBit f ≠ 0 := by omega
        simp [hlt, h, this, BitVec.getLsbD_one]
  cases v with
  | true =>
    simp only [setFlag, if_true, BitVec.getLsbD_or, h1]
    by_cases h : k = flagBit f <;> simp [h]
  | false =>
    simp only [setFlag, Bool.false_eq_true, if_false, BitVec.getLsbD_and, BitVec.getLsbD_not, h1, hk,
      decide_true, Bool.true_and]
    by_cases h : k = flagBit f <;> simp [h]

/-- The flag written has the value written. -/
@[simp] theorem getFlag_setFlag (f : Flag) (v : Bool) (p : Byte) : getFlag f (setFlag f v p) = v := by
  simp only [getFlag, setFlag_getLsbD f v p (flagBit_lt f), if_true]

/-- Another flag keeps its value. -/
theorem getFlag_setFlag_ne {f g : Flag} (h : g ≠ f) (v : Bool) (p : Byte) :
    getFlag g (setFlag f v p) = getFlag g p := by
  simp only [getFlag, setFlag_getLsbD f v p (flagBit_lt g)]
  exact if_neg fun e => h (flagBit_inj e)

/-- Every bit of P after N and Z are set from a byte (00_scope.md R13). -/
theorem setNZ_getLsbD (r p : Byte) {k : Nat} (hk : k < 8) :
    (setNZ r p).getLsbD k =
      if k = 7 then r.getLsbD 7 else if k = 1 then decide (r = 0) else p.getLsbD k := by
  simp only [setNZ, setFlag_getLsbD _ _ _ hk]
  rfl

end Sys2Proof.Machine
end

