-- ==== Sys2Proof/Laws/Outcome.lean ====
section
/-! SUPPORT. The laws of `andThen`, the sequencing of operations that can fault. -/

namespace Sys2Proof.Machine

@[simp] theorem andThen_next {α β : Type} (x : α) (f : α → Res β) : andThen (.next x) f = f x := rfl

@[simp] theorem andThen_fault {α β : Type} (e : Fault) (f : α → Res β) :
    andThen (.fault e) f = .fault e := rfl

@[simp] theorem andThen_refused {α β : Type} (e : Refusal) (f : α → Res β) :
    andThen (.refused e) f = .refused e := rfl

@[simp] theorem andThen_assoc {α β γ : Type} (r : Res α) (f : α → Res β) (g : β → Res γ) :
    andThen (andThen r f) g = andThen r fun v => andThen (f v) g := by
  cases r <;> rfl

/-- When a sequence answers a next state. -/
theorem andThen_eq_next {α β : Type} (r : Res α) (f : α → Res β) (v : β) :
    andThen r f = .next v ↔ ∃ u, r = .next u ∧ f u = .next v := by
  cases r <;> simp

/-- When a sequence faults. -/
theorem andThen_eq_fault {α β : Type} (r : Res α) (f : α → Res β) (e : Fault) :
    andThen r f = .fault e ↔ r = .fault e ∨ ∃ u, r = .next u ∧ f u = .fault e := by
  cases r <;> simp

/-- When a sequence is refused. -/
theorem andThen_eq_refused {α β : Type} (r : Res α) (f : α → Res β) (e : Refusal) :
    andThen r f = .refused e ↔ r = .refused e ∨ ∃ u, r = .next u ∧ f u = .refused e := by
  cases r <;> simp

/-- Two continuations that agree on the answers of the first operation. -/
theorem andThen_congr {α β : Type} {r : Res α} {f g : α → Res β}
    (h : ∀ u, r = .next u → f u = g u) : andThen r f = andThen r g := by
  cases r with
  | next v => exact h v rfl
  | fault e => rfl
  | refused e => rfl

end Sys2Proof.Machine
end

