-- ==== Sys2Proof/Laws/Memory.lean ====
section
/-! SUPPORT. The laws of memory and bus: read after write, frames, and that every operation keeps the
canonical form. -/

namespace Sys2Proof.Machine

/-! ## Memory -/

@[simp] theorem Memory.get_nil (a : Nat) : Memory.get [] a = Config.unlistedByte := rfl

theorem Memory.get_cons (k : Nat) (v : Byte) (rest : Memory) (a : Nat) :
    Memory.get ((k, v) :: rest) a = if k = a then v else Memory.get rest a := rfl

/-- In canonical form an address below the first entry is unlisted. -/
theorem Memory.get_below {lo a : Nat} {mem : Memory} (h : mem.wfFrom lo = true) (ha : a < lo) :
    mem.get a = Config.unlistedByte := by
  induction mem generalizing lo with
  | nil => rfl
  | cons e rest ih =>
    obtain ⟨k, v⟩ := e
    simp only [Memory.wfFrom, Bool.and_eq_true, decide_eq_true_eq] at h
    rw [Memory.get_cons, if_neg (by omega)]
    exact ih h.2 (by omega)

theorem Memory.wfFrom_le {lo lo' : Nat} {mem : Memory} (h : mem.wfFrom lo = true) (hl : lo' ≤ lo) :
    mem.wfFrom lo' = true := by
  cases mem with
  | nil => rfl
  | cons e rest =>
    obtain ⟨k, v⟩ := e
    simp only [Memory.wfFrom, Bool.and_eq_true, decide_eq_true_eq] at h ⊢
    exact ⟨⟨⟨by omega, h.1.1.2⟩, h.1.2⟩, h.2⟩

/-- A write changes no other address. -/
theorem Memory.get_set_ne {a b : Nat} (mem : Memory) (v : Byte) (h : b ≠ a) :
    (mem.set a v).get b = mem.get b := by
  induction mem with
  | nil =>
    unfold Memory.set
    split
    · rfl
    · rw [Memory.get_cons, if_neg (by omega)]
  | cons e rest ih =>
    obtain ⟨k, w⟩ := e
    unfold Memory.set
    split
    · split
      · rfl
      · rw [Memory.get_cons, if_neg (by omega)]
    · split
      · rename_i h2
        split
        · rw [Memory.get_cons, if_neg (by omega)]
        · rw [Memory.get_cons, if_neg (by omega), Memory.get_cons, if_neg (by omega)]
      · rw [Memory.get_cons, Memory.get_cons, ih]

/-- A write is read back, in canonical form. -/
theorem Memory.get_set_eq {lo : Nat} {mem : Memory} (a : Nat) (v : Byte) (h : mem.wfFrom lo = true) :
    (mem.set a v).get a = v := by
  induction mem generalizing lo with
  | nil =>
    unfold Memory.set
    split
    · simp_all
    · rw [Memory.get_cons, if_pos rfl]
  | cons e rest ih =>
    obtain ⟨k, w⟩ := e
    have h' := h
    simp only [Memory.wfFrom, Bool.and_eq_true, decide_eq_true_eq] at h
    unfold Memory.set
    split
    · split
      · rename_i hk hv
        rw [hv]
        exact Memory.get_below (lo := k) (Memory.wfFrom_le (lo := k)
          (by simp only [Memory.wfFrom, Bool.and_eq_true, decide_eq_true_eq]
              exact ⟨⟨⟨by omega, h.1.1.2⟩, h.1.2⟩, h.2⟩) (Nat.le_refl k)) hk
      · rw [Memory.get_cons, if_pos rfl]
    · split
      · rename_i hk hv
        split
        · rename_i hz
          rw [hz, hv]
          exact Memory.get_below h.2 (by omega)
        · rw [Memory.get_cons, if_pos rfl]
      · rw [Memory.get_cons, if_neg (by omega)]
        exact ih h.2

/-- A write keeps the canonical form. -/
theorem Memory.wfFrom_set {lo : Nat} {mem : Memory} {a : Nat} (v : Byte) (h : mem.wfFrom lo = true)
    (hlo : lo ≤ a) (ha : a < Config.addressSpace) : (mem.set a v).wfFrom lo = true := by
  induction mem generalizing lo with
  | nil =>
    unfold Memory.set
    split
    · rfl
    · rename_i hv
      simp [Memory.wfFrom, hlo, ha, hv]
  | cons e rest ih =>
    obtain ⟨k, w⟩ := e
    have h' := h
    simp only [Memory.wfFrom, Bool.and_eq_true, decide_eq_true_eq, bne_iff_ne] at h
    unfold Memory.set
    split
    · split
      · exact h'
      · rename_i hk hv
        simp only [Memory.wfFrom, Bool.and_eq_true, decide_eq_true_eq, bne_iff_ne]
        exact ⟨⟨⟨hlo, ha⟩, hv⟩, ⟨⟨by omega, h.1.1.2⟩, h.1.2⟩, h.2⟩
    · split
      · rename_i hk hv
        subst hv
        split
        · exact Memory.wfFrom_le h.2 (by omega)
        · rename_i hv
          simp only [Memory.wfFrom, Bool.and_eq_true, decide_eq_true_eq, bne_iff_ne]
          exact ⟨⟨⟨hlo, ha⟩, hv⟩, h.2⟩
      · simp only [Memory.wfFrom, Bool.and_eq_true, decide_eq_true_eq, bne_iff_ne]
        exact ⟨h.1, ih h.2 (by omega)⟩

/-- A write at a cell keeps the canonical form. -/
theorem Memory.wf_set {mem : Memory} {c : Nat} (hc : c < Config.addressSpace) (v : Byte) (h : mem.wf = true) :
    (mem.set c v).wf = true :=
  Memory.wfFrom_set v h (Nat.zero_le _) hc

/-! ## Cells -/

/-- A region without mirroring gives each address a cell of its own number. -/
theorem Region.cell_plain {r : Region} {a : Nat} (hb : r.base = r.first) (hs : r.size = 0)
    (hf : r.first ≤ a) (ha : a < Config.addressSpace) : r.cell a = a := by
  rw [Region.cell, hb, hs, Nat.mod_zero, Nat.add_sub_cancel' hf, Nat.mod_eq_of_lt ha]

theorem cellIn_lt (l : List Region) {a : Nat} (h : a < Config.addressSpace) :
    cellIn l a < Config.addressSpace := by
  induction l with
  | nil => exact h
  | cons r rest ih =>
    unfold cellIn
    split
    · exact Nat.mod_lt _ (by decide)
    · exact ih

/-- Every address names a cell of the address space. -/
theorem Bus.cellAt_lt (b : Bus) (a : Addr) : b.cellAt a < Config.addressSpace := cellIn_lt _ a.isLt

theorem Bus.cellAt_congr {b b' : Bus} (h : b'.map = b.map) (a : Addr) : b'.cellAt a = b.cellAt a := by
  simp [Bus.cellAt, h]

/-! ## Bus -/

/-- A device read touches only the devices and the draws. -/
theorem Bus.deviceRead_frame (b : Bus) (c : Nat) :
    (b.deviceRead c).2.map = b.map ∧ (b.deviceRead c).2.mem = b.mem ∧ (b.deviceRead c).2.log = b.log := by
  simp only [Bus.deviceRead]
  split <;> exact ⟨rfl, rfl, rfl⟩

/-- Where the Bus parameter defines the answer, a device read gives it and draws nothing. -/
theorem Bus.deviceRead_defined {b : Bus} {c : Nat} {r : ReadRow} {v : Byte} (h : b.dev.readRow c = some r)
    (hv : r.answer = some v) : b.deviceRead c = (v, { b with dev := b.dev.goto r.next }) := by
  simp [Bus.deviceRead, h, hv]

/-- Where it defines none, a device read is an oracle draw. -/
theorem Bus.deviceRead_free {b : Bus} {c : Nat} (h : (b.dev.readRow c).bind (·.answer) = none) :
    (b.deviceRead c).1 = Config.deviceByte b.draws ∧ (b.deviceRead c).2.draws = b.draws + 1 := by
  simp only [Bus.deviceRead, h, and_self]

/-- Everything a bus read can do. -/
theorem Bus.read_cases {b : Bus} {a : Addr} {r : Byte × Bus} (h : b.read a = .next r) :
    (b.stored a = true ∧
      r = (b.mem.get (b.cellAt a), { b with log := .read a (b.mem.get (b.cellAt a)) :: b.log })) ∨
    (b.kindAt a = .device ∧
      r = ((b.deviceRead (b.cellAt a)).1,
        { (b.deviceRead (b.cellAt a)).2 with log := .read a (b.deviceRead (b.cellAt a)).1 :: b.log })) := by
  unfold Bus.read at h
  split at h
  · exact .inl ⟨by simp [Bus.stored, *], by cases h; rfl⟩
  · exact .inl ⟨by simp [Bus.stored, *], by cases h; rfl⟩
  · exact .inr ⟨‹_›, by cases h; rfl⟩
  · cases h

/-- Everything a bus write can do. -/
theorem Bus.write_cases {b b' : Bus} {a : Addr} {v : Byte} (h : b.write a v = .next b') :
    (b.kindAt a = .memory ∧
      b' = { b with mem := b.mem.set (b.cellAt a) v, log := .write a v :: b.log }) ∨
    (b.kindAt a = .rom ∧ b' = { b with log := .write a v :: b.log }) ∨
    (b.kindAt a = .device ∧ b' = { b.deviceWrite (b.cellAt a) v with log := .write a v :: b.log }) := by
  unfold Bus.write at h
  split at h
  · exact .inl ⟨‹_›, by cases h; rfl⟩
  · exact .inr (.inl ⟨‹_›, by cases h; rfl⟩)
  · exact .inr (.inr ⟨‹_›, by cases h; rfl⟩)
  · cases h

/-- A read where the byte is stored. -/
theorem Bus.read_stored {b : Bus} {a : Addr} (h : b.stored a = true) :
    b.read a =
      .next (b.mem.get (b.cellAt a), { b with log := .read a (b.mem.get (b.cellAt a)) :: b.log }) := by
  simp only [Bus.stored, Bool.or_eq_true, decide_eq_true_eq] at h
  rcases h with h | h <;> simp [Bus.read, h]

theorem Bus.stored_memory {b : Bus} {a : Addr} (h : b.kindAt a = .memory) : b.stored a = true := by
  simp [Bus.stored, h]

theorem Bus.read_memory {b : Bus} {a : Addr} (h : b.kindAt a = .memory) :
    b.read a =
      .next (b.mem.get (b.cellAt a), { b with log := .read a (b.mem.get (b.cellAt a)) :: b.log }) :=
  Bus.read_stored (Bus.stored_memory h)

theorem Bus.write_memory {b : Bus} {a : Addr} (v : Byte) (h : b.kindAt a = .memory) :
    b.write a v = .next { b with mem := b.mem.set (b.cellAt a) v, log := .write a v :: b.log } := by
  simp [Bus.write, h]

theorem Bus.read_unmapped {b : Bus} {a : Addr} (h : b.kindAt a = .unmapped) :
    b.read a = .fault (.busFault a) := by
  simp [Bus.read, h]

theorem Bus.write_unmapped {b : Bus} {a : Addr} (v : Byte) (h : b.kindAt a = .unmapped) :
    b.write a v = .fault (.busFault a) := by
  simp [Bus.write, h]

/-- A read keeps map and memory. -/
theorem Bus.read_frame {b : Bus} {a : Addr} {r : Byte × Bus} (h : b.read a = .next r) :
    r.2.map = b.map ∧ r.2.mem = b.mem := by
  rcases Bus.read_cases h with ⟨_, rfl⟩ | ⟨_, rfl⟩
  · exact ⟨rfl, rfl⟩
  · exact ⟨(b.deviceRead_frame _).1, (b.deviceRead_frame _).2.1⟩

/-- A word read keeps map and memory. -/
theorem Bus.readWord_frame {b : Bus} {a : Addr} {r : Addr × Bus} (h : b.readWord a = .next r) :
    r.2.map = b.map ∧ r.2.mem = b.mem := by
  simp only [Bus.readWord, andThen_eq_next] at h
  obtain ⟨lo, hlo, hi, hhi, hr⟩ := h
  cases hr
  have h1 := Bus.read_frame hlo
  have h2 := Bus.read_frame hhi
  exact ⟨h2.1.trans h1.1, h2.2.trans h1.2⟩

/-- A write keeps the map, the free-value counter, and every cell but the one its address names. -/
theorem Bus.write_frame {b b' : Bus} {a : Addr} {v : Byte} (h : b.write a v = .next b') :
    b'.map = b.map ∧ b'.draws = b.draws ∧
      ∀ c, c ≠ b.cellAt a → b'.mem.get c = b.mem.get c := by
  rcases Bus.write_cases h with ⟨_, rfl⟩ | ⟨_, rfl⟩ | ⟨_, rfl⟩
  · exact ⟨rfl, rfl, fun c hc => Memory.get_set_ne _ _ hc⟩
  · exact ⟨rfl, rfl, fun c _ => rfl⟩
  · exact ⟨rfl, rfl, fun c _ => rfl⟩

/-- A write keeps the canonical form. -/
theorem Bus.write_wf {b b' : Bus} {a : Addr} {v : Byte} (h : b.write a v = .next b')
    (hw : b.mem.wf = true) : b'.mem.wf = true := by
  rcases Bus.write_cases h with ⟨_, rfl⟩ | ⟨_, rfl⟩ | ⟨_, rfl⟩
  · exact Memory.wf_set (b.cellAt_lt a) v hw
  · exact hw
  · exact hw

theorem Bus.kindAt_congr {b b' : Bus} (h : b'.map = b.map) (a : Addr) : b'.kindAt a = b.kindAt a := by
  simp [Bus.kindAt, h]

/-- A run of writes keeps map and canonical form. -/
theorem Bus.writeAll_frame {b b' : Bus} {a : Addr} {l : List Byte} (h : b.writeAll a l = .next b') :
    b'.map = b.map ∧ (b.mem.wf = true → b'.mem.wf = true) := by
  induction l generalizing b a with
  | nil => cases h; exact ⟨rfl, id⟩
  | cons v rest ih =>
    simp only [Bus.writeAll, andThen_eq_next] at h
    obtain ⟨u, hu, h⟩ := h
    have h1 := ih h
    exact ⟨h1.1.trans (Bus.write_frame hu).1, fun hw => h1.2 (Bus.write_wf hu hw)⟩

/-- A bus access that maps its address does not fault, and a bus fault names an unmapped address. -/
theorem Bus.read_fault {b : Bus} {a : Addr} {e : Fault} (h : b.read a = .fault e) :
    e = .busFault a ∧ b.kindAt a = .unmapped := by
  unfold Bus.read at h
  split at h <;> cases h
  exact ⟨rfl, ‹_›⟩

theorem Bus.write_fault {b : Bus} {a : Addr} {v : Byte} {e : Fault} (h : b.write a v = .fault e) :
    e = .busFault a ∧ b.kindAt a = .unmapped := by
  unfold Bus.write at h
  split at h <;> cases h
  exact ⟨rfl, ‹_›⟩

theorem Bus.read_ne_refused (b : Bus) (a : Addr) (e : Refusal) : b.read a ≠ .refused e := by
  unfold Bus.read; split <;> simp

theorem Bus.write_ne_refused (b : Bus) (a : Addr) (v : Byte) (e : Refusal) :
    b.write a v ≠ .refused e := by
  unfold Bus.write; split <;> simp

end Sys2Proof.Machine
end

