-- ==== Sys2Proof/Laws/State.lean ====
section
/-! SUPPORT. The fields of the named updates of State, each true by rfl, and the two updates the laws of the
scheduler are stated with: another queue and counter (`at`), and completion (`completed`). -/

namespace Sys2Proof.Machine

/-- The state with this queue and this cycle count. -/
def State.at (s : State) (q : List MicroOp) (c : Nat) : State := { s with q := q, cycles := c }

@[simp] theorem State.at_regs (s : State) (q c) : (s.at q c).regs = s.regs := rfl
@[simp] theorem State.at_q (s : State) (q c) : (s.at q c).q = q := rfl
@[simp] theorem State.at_cycles (s : State) (q c) : (s.at q c).cycles = c := rfl
@[simp] theorem State.at_op (s : State) (q c) : (s.at q c).op = s.op := rfl
@[simp] theorem State.at_opnds (s : State) (q c) : (s.at q c).opnds = s.opnds := rfl
@[simp] theorem State.at_ins (s : State) (q c) : (s.at q c).ins = s.ins := rfl
@[simp] theorem State.at_bus (s : State) (q c) : (s.at q c).bus = s.bus := rfl
@[simp] theorem State.at_sink (s : State) (q c) : (s.at q c).sink = s.sink := rfl
@[simp] theorem State.at_p (s : State) (q c) : (s.at q c).p = s.p := rfl
@[simp] theorem State.at_at (s : State) (q q' c c') : (s.at q c).at q' c' = s.at q' c' := rfl

/-- What completion leaves after `n` ticks more (41_scheduler.md R170, R173; 60_exceptions.md R371). -/
def completed (n : Nat) (t : State) : State :=
  { t with
    q := []
    op := none
    opnds := []
    cycles := t.cycles + n
    sink := { regs := t.regs, cycles := t.cycles + n } :: t.sink }

@[simp] theorem completed_regs (n : Nat) (t : State) : (completed n t).regs = t.regs := rfl
@[simp] theorem completed_bus (n : Nat) (t : State) : (completed n t).bus = t.bus := rfl
@[simp] theorem completed_q (n : Nat) (t : State) : (completed n t).q = [] := rfl
@[simp] theorem completed_op (n : Nat) (t : State) : (completed n t).op = none := rfl
@[simp] theorem completed_opnds (n : Nat) (t : State) : (completed n t).opnds = [] := rfl
@[simp] theorem completed_ins (n : Nat) (t : State) : (completed n t).ins = t.ins := rfl
@[simp] theorem completed_p (n : Nat) (t : State) : (completed n t).p = t.p := rfl
@[simp] theorem completed_cycles (n : Nat) (t : State) : (completed n t).cycles = t.cycles + n := rfl
@[simp] theorem completed_sink (n : Nat) (t : State) :
    (completed n t).sink = { regs := t.regs, cycles := t.cycles + n } :: t.sink := rfl

@[simp] theorem loaded_regs (i b s) : (loaded i b s).regs = s.regs := rfl
@[simp] theorem loaded_bus (i b s) : (loaded i b s).bus = s.bus := rfl
@[simp] theorem loaded_ins (i b s) : (loaded i b s).ins = (i.type, i.mode) := rfl
@[simp] theorem loaded_op (i b s) : (loaded i b s).op = some b := rfl
@[simp] theorem loaded_opnds (i b s) : (loaded i b s).opnds = i.operandBytes := rfl
@[simp] theorem loaded_q (i b s) : (loaded i b s).q = buildQueue i.type i.mode := rfl
@[simp] theorem loaded_cycles (i b s) : (loaded i b s).cycles = s.cycles := rfl
@[simp] theorem loaded_sink (i b s) : (loaded i b s).sink = s.sink := rfl

/-- The fields of the registers of a state. -/
@[simp] theorem regs_a (s : State) : s.regs.a = s.a := rfl
@[simp] theorem regs_x (s : State) : s.regs.x = s.x := rfl
@[simp] theorem regs_y (s : State) : s.regs.y = s.y := rfl
@[simp] theorem regs_sp (s : State) : s.regs.sp = s.sp := rfl
@[simp] theorem regs_pc (s : State) : s.regs.pc = s.pc := rfl
@[simp] theorem regs_p (s : State) : s.regs.p = s.p := rfl

/-- Staging writes only the latches sv and ret. -/
@[simp] theorem stage_regs (t : InstrType) (s : State) : (stage t s).regs = s.regs := by
  cases t <;> rfl
@[simp] theorem stage_bus (t : InstrType) (s : State) : (stage t s).bus = s.bus := by
  cases t <;> rfl
@[simp] theorem stage_ea (t : InstrType) (s : State) : (stage t s).ea = s.ea := by
  cases t <;> rfl
@[simp] theorem stage_m (t : InstrType) (s : State) : (stage t s).m = s.m := by
  cases t <;> rfl

end Sys2Proof.Machine
end

