-- ==== Sys2Proof/Laws/Scheduler.lean ====
section
/-! SUPPORT. The laws of the scheduler: what a micro-op can touch, what one tick runs, and the spec lemma of
`runInstr`, by which the meaning of an instruction is its micro-ops in a row and its ticks a sum. -/

namespace Sys2Proof.Machine

/-- The instruction types whose Exec can append micro-ops (41_scheduler.md R174). -/
def isBranch : InstrType → Bool
  | .bpl | .bmi | .bvc | .bvs | .bcc | .bcs | .bne | .beq => true
  | _ => false

/-- The resolver reads neither the queue nor the counter. -/
theorem effAddr_at (md l) (s : State) (q c) : effAddr md l (s.at q c) = effAddr md l s := by
  rfl
/-- No micro-op but a branch's Exec reads or writes the queue or the counter. -/
theorem perform_at (k : MicroOp) (s : State) (q c) (h : isBranch s.ins.1 = false) :
   perform k (s.at q c) = andThen (perform k s) (fun t => .next (t.at q c)) := by
  cases k
  case resolve =>
    obtain ⟨a,x,y,sp,pc,p,op,opnds,⟨t,md⟩,ea,m,sv,ret,q0,cy,bus,sink⟩ := s
    have hs : ∀ s : State, stage t (s.at q c) = (stage t s).at q c := by
      intro s; cases t <;> rfl
    have hm : ∀ s : State, resolveMode md opnds (s.at q c) = andThen (resolveMode md opnds s) (fun t => .next (t.at q c)) := by
      intro s; cases md <;> simp [resolveMode, effAddr_at] <;> (try rfl)
      split <;> rfl
    simp only [perform, resolve]
    have := hm ⟨a,x,y,sp,pc,p,op,opnds,⟨t,md⟩,ea,m,sv,ret,q0,cy,bus,sink⟩
    simp only [State.at] at this ⊢
    rw [this]
    simp only [andThen_assoc, andThen_next]
    congr 1; funext u
    have := hs u
    simp only [State.at] at this
    rw [this]
  case exec =>
    obtain ⟨a,x,y,sp,pc,p,op,opnds,⟨t,md⟩,ea,m,sv,ret,q0,cy,bus,sink⟩ := s
    cases t <;> first | rfl | simp [isBranch] at h
  case modify =>
    obtain ⟨a,x,y,sp,pc,p,op,opnds,⟨t,md⟩,ea,m,sv,ret,q0,cy,bus,sink⟩ := s
    cases t <;> rfl
  case read => simp only [perform, doRead, State.at, andThen_assoc, andThen_next]
  case write => simp only [perform, doWrite, State.at, andThen_assoc, andThen_next]
  all_goals first | rfl | simp only [perform, doPushA, doPushP, doPushPCH, doPushPCL, doPullA, doPullP, doPullPCL, doPullPCH, doVector, push, pull, State.at, andThen_assoc, andThen_next]
/-- The two states agree on slots, latch, counter and sink. -/
structure SameSlots (s t : State) : Prop where
  op : t.op = s.op
  opnds : t.opnds = s.opnds
  ins : t.ins = s.ins
  cycles : t.cycles = s.cycles
  sink : t.sink = s.sink

/-- No micro-op writes the slots, the latch, the counter or the sink. -/
theorem perform_slots {k s t} (h : perform k s = .next t) : SameSlots s t := by
  obtain ⟨a,x,y,sp,pc,p,op,opnds,⟨ty,md⟩,ea,m,sv,ret,q0,cy,bus,sink⟩ := s
  cases k
  case resolve =>
    simp only [perform, resolve, andThen_eq_next] at h
    obtain ⟨u, hu, h⟩ := h
    cases h
    have h1 : SameSlots ⟨a,x,y,sp,pc,p,op,opnds,⟨ty,md⟩,ea,m,sv,ret,q0,cy,bus,sink⟩ u := by
      cases md <;> simp only [resolveMode, andThen_eq_next] at hu
      case imm =>
        split at hu <;> cases hu
        constructor <;> rfl
      all_goals first
        | (cases hu; constructor <;> rfl)
        | (obtain ⟨r, _, hr⟩ := hu; cases hr; constructor <;> rfl)
    cases ty <;> exact ⟨h1.op, h1.opnds, h1.ins, h1.cycles, h1.sink⟩
  case exec =>
    cases ty <;> simp [perform, execBody] at h <;> subst h <;>
      first
      | (constructor <;> rfl)
      | (simp only [bplBody, bmiBody, bvcBody, bvsBody, bccBody, bcsBody, bneBody, beqBody, branch]; split <;> constructor <;> rfl)
  case modify =>
    cases ty <;> simp [perform, modifyBody] at h <;> subst h <;> constructor <;> rfl
  all_goals
    simp only [perform, doRead, doWrite, doPushA, doPushP, doPushPCH, doPushPCL, doPullA, doPullP, doPullPCL, doPullPCH, doVector, push, pull, andThen_assoc, andThen_next, andThen_eq_next] at h
    first
    | (cases h; constructor <;> rfl)
    | (obtain ⟨u, _, h⟩ := h; cases h; constructor <;> rfl)

/-- Micro-ops one after the other, without ticks. -/
def performAll : List MicroOp → State → Res State
  | [], s => .next s
  | k :: rest, s => andThen (perform k s) (performAll rest)

/-- The same for a list of micro-ops. -/
theorem performAll_at (l : List MicroOp) (s : State) (q c) (h : isBranch s.ins.1 = false) :
    performAll l (s.at q c) = andThen (performAll l s) (fun t => .next (t.at q c)) := by
  induction l generalizing s with
  | nil => rfl
  | cons k rest ih =>
    simp only [performAll, perform_at k s q c h, andThen_assoc, andThen_next]
    exact andThen_congr fun u hu => ih u ((perform_slots hu).ins ▸ h)

/-- The same for a list of micro-ops. -/
theorem performAll_slots {l s t} (h : performAll l s = .next t) : SameSlots s t := by
  induction l generalizing s with
  | nil => cases h; constructor <;> rfl
  | cons k rest ih =>
    simp only [performAll, andThen_eq_next] at h
    obtain ⟨u, hu, h⟩ := h
    have h1 := perform_slots hu
    have h2 := ih h
    exact ⟨h2.op.trans h1.op, h2.opnds.trans h1.opnds, h2.ins.trans h1.ins, h2.cycles.trans h1.cycles, h2.sink.trans h1.sink⟩

theorem performAll_append (l l' : List MicroOp) (s : State) :
    performAll (l ++ l') s = andThen (performAll l s) (performAll l') := by
  induction l generalizing s with
  | nil => rfl
  | cons k rest ih =>
    simp only [List.cons_append, performAll, andThen_assoc]
    exact andThen_congr fun u _ => ih u

/-- The micro-ops a tick with this limit runs, and those it leaves (41_scheduler.md R169). -/
def budgetSplit (limit : Nat) : Nat → List MicroOp → List MicroOp × List MicroOp
  | _, [] => ([], [])
  | spent, k :: rest =>
    if spent + cost k < limit then
      (k :: (budgetSplit limit (spent + cost k) rest).1, (budgetSplit limit (spent + cost k) rest).2)
    else ([], k :: rest)

/-- The spec lemma of `drain`: the micro-ops within the budget run, the others stay. -/
theorem drain_eq (limit : Nat) (q : List MicroOp) (fuel spent : Nat) (s : State) (c : Nat)
    (hf : q.length ≤ fuel) (h : isBranch s.ins.1 = false) :
    drain fuel limit spent (s.at q c) =
      andThen (performAll (budgetSplit limit spent q).1 s)
        (fun t => .next (t.at (budgetSplit limit spent q).2 c)) := by
  induction q generalizing fuel spent s with
  | nil => cases fuel <;> rfl
  | cons k rest ih =>
    obtain ⟨fuel, rfl⟩ : ∃ n, fuel = n + 1 := ⟨fuel - 1, by simp at hf; omega⟩
    by_cases hb : spent + cost k < limit
    · have : drain (fuel + 1) limit spent (s.at (k :: rest) c) =
          andThen (perform k (s.at rest c)) (drain fuel limit (spent + cost k)) := by
        simp [drain, State.at, hb]
      rw [this, perform_at _ _ _ _ h]
      simp only [andThen_assoc, andThen_next, budgetSplit, hb, if_true, performAll]
      exact andThen_congr fun u hu => ih fuel _ u (by simpa using hf) ((perform_slots hu).ins ▸ h)
    · simp [drain, State.at, hb, budgetSplit, performAll]

/-- The spec lemma of `executeStep`. -/
theorem executeStep_eq (limit : Nat) (q : List MicroOp) (s : State) (c : Nat)
    (h : isBranch s.ins.1 = false) :
    executeStep limit (s.at q c) =
      andThen (performAll (budgetSplit limit 0 q).1 s)
        (fun t => .next (endTick (!q.isEmpty) (t.at (budgetSplit limit 0 q).2 c))) := by
  rw [executeStep, show (s.at q c).q = q from rfl, drain_eq _ _ _ _ _ _ (by omega) h]
  simp only [andThen_assoc, andThen_next]
/-- What runs and what stays make up the queue. -/
theorem budgetSplit_append (limit spent : Nat) (q : List MicroOp) :
    (budgetSplit limit spent q).1 ++ (budgetSplit limit spent q).2 = q := by
  induction q generalizing spent with
  | nil => rfl
  | cons k rest ih => by_cases h : spent + cost k < limit <;> simp [budgetSplit, h, ih]

theorem cost_le_one (k : MicroOp) : cost k ≤ 1 := by cases k <;> decide

/-- With the budget used up, only free micro-ops run, and a micro-op of cost 1 stops the tick. -/
theorem budgetSplit_free (spent : Nat) (q : List MicroOp) :
    totalCost (budgetSplit (spent + 1) spent q).1 = 0 ∧ headCostsOne (budgetSplit (spent + 1) spent q).2 := by
  induction q with
  | nil => exact ⟨rfl, trivial⟩
  | cons k rest ih =>
    by_cases h : cost k = 0
    · simp [budgetSplit, h, totalCost, ih]
    · have := cost_le_one k
      have h1 : cost k = 1 := by omega
      simp [budgetSplit, h1, totalCost, headCostsOne]

/-- With a budget of one, a head of cost 1 runs. -/
theorem budgetSplit_two {k : MicroOp} {rest : List MicroOp} (h : cost k = 1) :
    budgetSplit 2 0 (k :: rest) = (k :: (budgetSplit 2 1 rest).1, (budgetSplit 2 1 rest).2) := by
  simp [budgetSplit, h]

theorem totalCost_append (l l' : List MicroOp) : totalCost (l ++ l') = totalCost l + totalCost l' := by
  induction l with
  | nil => simp [totalCost]
  | cons k rest ih => simp [totalCost, ih, Nat.add_assoc]

/-- A tick that empties the queue completes the instruction. -/
theorem endTick_done (s : State) (c : Nat) : endTick true (s.at [] c) = completed 1 (s.at [] c) := rfl

/-- A tick that leaves a queue only counts. -/
theorem endTick_more (s : State) (k rest) (c : Nat) (b : Bool) :
    endTick b (s.at (k :: rest) c) = s.at (k :: rest) (c + 1) := by
  cases b <;> rfl

theorem completed_at_succ (n : Nat) (s : State) (c : Nat) :
    completed n (s.at [] (c + 1)) = completed (n + 1) (s.at [] c) := by
  simp only [completed, State.at, State.regs, Nat.add_assoc, Nat.add_comm n 1]

/-- Nothing is left to finish. -/
theorem finish_of_empty (n : Nat) (s : State) (h : s.q = []) : finish n s = .next s := by
  cases n <;> simp [finish, h]

/-- With a queue the tick only executes. -/
theorem tick_queued (s : State) (h : s.q ≠ []) : tick s = executeStep 2 s := by
  cases hq : s.q <;> simp_all [tick]

/-- The spec lemma of `finish`: the whole queue runs, and its cost is the ticks it takes. -/
theorem finish_eq (fuel : Nat) (q : List MicroOp) (s : State) (c : Nat) (hf : q.length ≤ fuel)
    (hne : q ≠ []) (hc : headCostsOne q) (h : isBranch s.ins.1 = false) :
    finish fuel (s.at q c) =
      andThen (performAll q s) (fun t => .next (completed (totalCost q) (t.at [] c))) := by
  induction fuel generalizing q s c with
  | zero => simp at hf; exact absurd hf hne
  | succ fuel ih =>
    obtain ⟨k, rest, rfl⟩ : ∃ k rest, q = k :: rest := by cases q; contradiction; exact ⟨_, _, rfl⟩
    have h1 : finish (fuel + 1) (s.at (k :: rest) c) = andThen (executeStep 2 (s.at (k :: rest) c)) (finish fuel) := by
      rw [← tick_queued _ (by simp [State.at])]; rfl
    rw [h1, executeStep_eq _ _ _ _ h]
    have happ := budgetSplit_append 2 0 (k :: rest)
    rw [budgetSplit_two hc] at *
    obtain ⟨hz, hh⟩ := budgetSplit_free 1 rest
    generalize hr : budgetSplit 2 1 rest = r at *
    obtain ⟨ran, left⟩ := r
    simp only at *
    have hcost : totalCost (k :: rest) = 1 + totalCost left := by
      rw [← happ, totalCost_append]; simp [totalCost, hz]; exact hc
    conv_rhs => rw [hcost, ← happ, performAll_append]
    simp only [andThen_assoc, andThen_next]
    refine andThen_congr fun t ht => ?_
    have hb : isBranch t.ins.1 = false := (performAll_slots ht).ins ▸ h
    cases left with
    | nil =>
      simp only [performAll, andThen_next]
      exact finish_of_empty _ _ rfl
    | cons k' left =>
      have hl : (k' :: left).length ≤ fuel := by
        have := congrArg List.length happ
        simp at this hf ⊢; omega
      rw [endTick_more, ih _ t _ hl (by simp) hh hb]
      refine andThen_congr fun u _ => ?_
      rw [completed_at_succ, Nat.add_comm 1]

/-- The spec lemma of `runInstr`, for every instruction but the branches: its micro-ops run in the order of
its queue, and it takes one tick and the cost of its queue (41_scheduler.md R177). -/
theorem runInstr_eq (i : Instr) (b : Byte) (s : State) (hop : i.opcode? = some b)
    (h : isBranch i.type = false) :
    runInstr i s =
      andThen (performAll (buildQueue i.type i.mode) (loaded i b s))
        (fun t => .next (completed (1 + totalCost (buildQueue i.type i.mode)) t)) := by
  have hL : loaded i b s = (loaded i b s).at (buildQueue i.type i.mode) s.cycles := rfl
  have hne : buildQueue i.type i.mode ≠ [] := by
    unfold buildQueue staticOps; split <;> simp
  generalize hq : buildQueue i.type i.mode = q at *
  simp only [runInstr, hop]
  rw [hL, executeStep_eq _ _ _ _ h]
  have happ := budgetSplit_append 1 0 q
  obtain ⟨hz, hh⟩ := budgetSplit_free 0 q
  generalize hr : budgetSplit 1 0 q = r at *
  obtain ⟨ran, left⟩ := r
  simp only at *
  rw [hr] at *
  have hcost : totalCost q = totalCost left := by
    rw [← happ, totalCost_append, hz, Nat.zero_add]
  rw [performAll_at _ _ _ _ h]
  conv_rhs => rw [← happ, performAll_append]
  simp only [andThen_assoc, andThen_next, happ]
  refine andThen_congr fun t ht => ?_
  have hs := performAll_slots ht
  have hb : isBranch t.ins.1 = false := hs.ins ▸ h
  have hc : t.cycles = s.cycles := hs.cycles
  have hqe : (!q.isEmpty) = true := by
    cases q with
    | nil => exact absurd rfl hne
    | cons _ _ => rfl
  rw [hqe, hcost]
  cases left with
  | nil =>
    simp only [performAll, andThen_next]
    rw [finish_of_empty _ _ rfl, endTick_done]
    rfl
  | cons k left =>
    rw [endTick_more, finish_eq _ _ _ _ (by simp [tickBound, State.at]; try omega) (by simp) hh hb]
    refine andThen_congr fun u hu => ?_
    rw [completed_at_succ, Nat.add_comm 1]
    rfl
end Sys2Proof.Machine
end

