-- ==== Sys2Proof/Laws/Invariant.lean ====
section
/-! SUPPORT. What a micro-op of a built queue can end in: a state with the fixed bits of P and the canonical
memory kept, or a bus fault. What the queues of the matrix hold, and how an execute step ends. -/

namespace Sys2Proof.Machine

/-- The outcome is a state with `P`, or a bus fault. -/
def Good (P : State → Prop) (r : Res State) : Prop :=
  (∃ t, r = .next t ∧ P t) ∨ ∃ a, r = .fault (.busFault a)

theorem Good.bind {P Q : State → Prop} {r : Res State} {f : State → Res State} (h : Good P r)
    (hf : ∀ t, P t → Good Q (f t)) : Good Q (andThen r f) := by
  rcases h with ⟨t, rfl, hp⟩ | ⟨a, rfl⟩
  · exact hf t hp
  · exact .inr ⟨a, rfl⟩

/-- The part of the invariant that a micro-op keeps. -/
structure State.DataOk (s : State) : Prop where
  status : s.StatusOk
  memory : s.bus.mem.wf = true

/-- A micro-op that can stand in the queue of an instruction type after its Resolve. -/
def opOk (t : InstrType) : MicroOp → Bool
  | .resolve => false
  | .exec =>
    match t with
    | .sta | .stx | .sty | .inc | .dec | .jmp | .jsr | .rts
    | .pha | .php | .pla | .plp | .brk | .rti => false
    | _ => true
  | .modify =>
    match t with
    | .inc | .dec | .asl | .lsr | .rol | .ror => true
    | _ => false
  | _ => true

theorem Bus.read_outcome (b : Bus) (a : Addr) :
    (∃ r, b.read a = .next r ∧ r.2.mem = b.mem) ∨ b.read a = .fault (.busFault a) := by
  cases hk : b.kindAt a <;> simp [Bus.read, hk, (b.deviceRead_frame _).2.1]

theorem Bus.write_outcome (b : Bus) (a : Addr) (v : Byte) (hw : b.mem.wf = true) :
    (∃ r, b.write a v = .next r ∧ r.mem.wf = true) ∨ b.write a v = .fault (.busFault a) := by
  cases hk : b.kindAt a <;> simp [Bus.write, Bus.deviceWrite, hk, hw]
  exact Memory.wf_set (b.cellAt_lt a) v hw

theorem Bus.readWord_outcome (b : Bus) (a : Addr) :
    (∃ r, b.readWord a = .next r ∧ r.2.mem = b.mem) ∨ ∃ c, b.readWord a = .fault (.busFault c) := by
  unfold Bus.readWord
  rcases Bus.read_outcome b a with ⟨r, h, hm⟩ | h <;> rw [h]
  · simp only [andThen_next]
    rcases Bus.read_outcome r.2 (a + 1) with ⟨r', h', hm'⟩ | h' <;> rw [h']
    · exact .inl ⟨_, rfl, hm'.trans hm⟩
    · exact .inr ⟨_, rfl⟩
  · exact .inr ⟨_, rfl⟩

/-- Writing a flag other than B keeps the two fixed bits of P. -/
theorem setFlag_fixed {f : Flag} (hf : f ≠ .b) (v : Bool) (p : Byte) :
    (setFlag f v p).getLsbD 5 = p.getLsbD 5 ∧ (setFlag f v p).getLsbD 4 = p.getLsbD 4 := by
  rw [setFlag_getLsbD _ _ _ (by omega), setFlag_getLsbD _ _ _ (by omega)]
  cases f <;> simp [flagBit] at hf ⊢

theorem setNZ_fixed (r p : Byte) :
    (setNZ r p).getLsbD 5 = p.getLsbD 5 ∧ (setNZ r p).getLsbD 4 = p.getLsbD 4 := by
  rw [setNZ_getLsbD _ _ (by omega), setNZ_getLsbD _ _ (by omega)]
  exact ⟨rfl, rfl⟩

theorem pullImage_fixed (b : Byte) :
    (pullImage b).getLsbD 5 = true ∧ (pullImage b).getLsbD 4 = false := by
  revert b; decide +kernel

theorem execBody_dataOk {t : InstrType} {s : State} (h : opOk t .exec = true) (hs : s.DataOk) :
    ∃ u, execBody t s = .next u ∧ u.DataOk := by
  cases t <;> first | (simp [opOk] at h; done) | skip
  all_goals refine ⟨_, rfl, ?_⟩
  all_goals first
    | exact hs
    | (refine ⟨⟨?_, ?_⟩, hs.memory⟩ <;>
        simp [-BitVec.getLsbD_eq_getElem, setNZ_fixed, setFlag_fixed, ldaBody, ldxBody, ldyBody, taxBody,
          tayBody, txaBody, tyaBody, tsxBody, txsBody, adcBody, sbcBody, sumFlags, andBody, oraBody,
          eorBody, cmpBody, cpxBody, cpyBody, bitBody, bitFlags, compareFlags, inxBody, inyBody, dexBody,
          deyBody, aslExec, lsrExec, rolExec, rorExec, shiftExec, shiftFlags, clcBody, secBody, cliBody,
          seiBody, cldBody, sedBody, clvBody, hs.status.reserved, hs.status.breakClear])
    | (simp only [bplBody, bmiBody, bvcBody, bvsBody, bccBody, bcsBody, bneBody, beqBody, branch]
       split <;> exact ⟨⟨hs.status.reserved, hs.status.breakClear⟩, hs.memory⟩)

theorem modifyBody_dataOk {t : InstrType} {s : State} (h : opOk t .modify = true) (hs : s.DataOk) :
    ∃ u, modifyBody t s = .next u ∧ u.DataOk := by
  cases t <;> first | (simp [opOk] at h; done) | skip
  all_goals refine ⟨_, rfl, ⟨?_, ?_⟩, hs.memory⟩
  all_goals
    simp [-BitVec.getLsbD_eq_getElem, setNZ_fixed, setFlag_fixed, incBody, decBody, aslModify, lsrModify,
      rolModify, rorModify, shiftModify, shiftFlags, hs.status.reserved, hs.status.breakClear]

theorem push_good (v : Byte) {s : State} (hs : s.DataOk) : Good State.DataOk (push v s) := by
  unfold push
  rcases Bus.write_outcome s.bus (stackAddr s.sp) v hs.memory with ⟨b, h, hw⟩ | h <;> rw [h]
  · exact .inl ⟨_, rfl, ⟨hs.status.reserved, hs.status.breakClear⟩, hw⟩
  · exact .inr ⟨_, rfl⟩

theorem pull_good {s : State} (f : Byte × State → State) (hs : s.DataOk)
    (hf : ∀ r, r.2.DataOk → (f r).DataOk) :
    Good State.DataOk (andThen (pull s) fun r => .next (f r)) := by
  unfold pull
  rcases Bus.read_outcome s.bus (stackAddr (s.sp + 1)) with ⟨b, h, hw⟩ | h <;> rw [h]
  · exact .inl ⟨_, rfl, hf _ ⟨⟨hs.status.reserved, hs.status.breakClear⟩, by simpa [hw] using hs.memory⟩⟩
  · exact .inr ⟨_, rfl⟩

/-- A micro-op after Resolve never ends in an internal fault, and keeps `DataOk`. -/
theorem perform_good {k : MicroOp} {s : State} (h : opOk s.ins.1 k = true) (hs : s.DataOk) :
    Good State.DataOk (perform k s) := by
  have keep : ∀ {u : State}, u.p = s.p → u.bus = s.bus → u.DataOk := fun hp hb =>
    ⟨⟨by rw [hp]; exact hs.status.reserved, by rw [hp]; exact hs.status.breakClear⟩,
      by rw [hb]; exact hs.memory⟩
  cases k
  case resolve => simp [opOk] at h
  case read =>
    simp only [perform, doRead]
    rcases Bus.read_outcome s.bus s.ea with ⟨b, h, hw⟩ | h <;> rw [h]
    · exact .inl ⟨_, rfl, ⟨hs.status.reserved, hs.status.breakClear⟩, by simpa [hw] using hs.memory⟩
    · exact .inr ⟨_, rfl⟩
  case write =>
    simp only [perform, doWrite]
    rcases Bus.write_outcome s.bus s.ea s.sv hs.memory with ⟨b, h, hw⟩ | h <;> rw [h]
    · exact .inl ⟨_, rfl, ⟨hs.status.reserved, hs.status.breakClear⟩, hw⟩
    · exact .inr ⟨_, rfl⟩
  case exec => exact .inl (execBody_dataOk h hs)
  case modify => exact .inl (modifyBody_dataOk h hs)
  case idle => exact .inl ⟨_, rfl, hs⟩
  case jump => exact .inl ⟨_, rfl, keep rfl rfl⟩
  case incPC => exact .inl ⟨_, rfl, keep rfl rfl⟩
  case vector =>
    simp only [perform, doVector]
    rcases Bus.readWord_outcome s.bus Config.irqVector with ⟨b, h, hw⟩ | ⟨c, h⟩ <;> rw [h]
    · refine .inl ⟨_, rfl, ⟨?_, ?_⟩, by simpa [hw] using hs.memory⟩
      · exact (setFlag_fixed (by decide) _ _).1.trans hs.status.reserved
      · exact (setFlag_fixed (by decide) _ _).2.trans hs.status.breakClear
    · exact .inr ⟨_, rfl⟩
  case pullA =>
    exact pull_good _ hs fun r hr =>
      ⟨⟨(setNZ_fixed _ _).1.trans hr.status.reserved, (setNZ_fixed _ _).2.trans hr.status.breakClear⟩,
        hr.memory⟩
  case pullP =>
    exact pull_good _ hs fun r hr => ⟨⟨(pullImage_fixed _).1, (pullImage_fixed _).2⟩, hr.memory⟩
  case pullPCL =>
    exact pull_good _ hs fun r hr => ⟨⟨hr.status.reserved, hr.status.breakClear⟩, hr.memory⟩
  case pullPCH =>
    exact pull_good _ hs fun r hr => ⟨⟨hr.status.reserved, hr.status.breakClear⟩, hr.memory⟩
  all_goals exact push_good _ hs

theorem performAll_good {l : List MicroOp} {s : State} (h : ∀ k ∈ l, opOk s.ins.1 k = true)
    (hs : s.DataOk) : Good State.DataOk (performAll l s) := by
  induction l generalizing s with
  | nil => exact .inl ⟨s, rfl, hs⟩
  | cons k rest ih =>
    rcases perform_good (h k (by simp)) hs with ⟨t, ht, hm⟩ | ⟨a, ha⟩
    · simp only [performAll, ht, andThen_next]
      exact ih (fun k' hk' => (perform_slots ht).ins ▸ h k' (by simp [hk'])) hm
    · exact .inr ⟨a, by simp [performAll, ha]⟩

/-- Resolve, with the operand bytes its mode needs, never ends in an internal fault. -/
theorem resolve_good {s : State} (h : s.opnds.length = operandCount s.ins.2) (hs : s.DataOk) :
    Good State.DataOk (resolve s) := by
  obtain ⟨a, x, y, sp, pc, p, op, opnds, ⟨t, md⟩, ea, m, sv, ret, q, cy, bus, sink⟩ := s
  refine Good.bind (P := State.DataOk) ?_ fun u hu => .inl ⟨_, rfl, ?_⟩
  · have key : ∀ r : Res (Addr × Bus),
        ((∃ v, r = .next v ∧ v.2.mem = bus.mem) ∨ ∃ c, r = .fault (.busFault c)) →
        Good State.DataOk (andThen r fun r =>
          .next ⟨a, x, y, sp, pc, p, op, opnds, (t, md), r.1, m, sv, ret, q, cy, r.2, sink⟩) := by
      rintro r (⟨v, rfl, hv⟩ | ⟨c, rfl⟩)
      · exact .inl ⟨_, rfl, ⟨hs.status.reserved, hs.status.breakClear⟩, by simpa [hv] using hs.memory⟩
      · exact .inr ⟨c, rfl⟩
    rcases opnds with _ | ⟨b1, _ | ⟨b2, _ | ⟨b3, l⟩⟩⟩ <;> cases md <;> simp [operandCount] at h <;>
      simp only [resolveMode] <;> first
        | exact .inl ⟨_, rfl, hs⟩
        | exact .inl ⟨_, rfl, ⟨hs.status.reserved, hs.status.breakClear⟩, hs.memory⟩
        | (apply key
           simp only [effAddr]
           first
            | exact .inl ⟨_, rfl, rfl⟩
            | exact Bus.readWord_outcome _ _
            | (rcases Bus.readWord_outcome bus (zext16 b1) with ⟨r, hr, hm⟩ | ⟨c, hr⟩ <;> rw [hr]
               · exact .inl ⟨_, rfl, hm⟩
               · exact .inr ⟨_, rfl⟩))
  · cases t <;> exact ⟨⟨hu.status.reserved, hu.status.breakClear⟩, hu.memory⟩

/-- The queue of every opcode byte that is no branch: Resolve, then micro-ops its type has. -/
theorem buildQueue_facts (b : Byte) (h : isBranch (decodePair b).1 = false) :
    ∃ rest, buildQueue (decodePair b).1 (decodePair b).2 = .resolve :: rest ∧
      rest.all (opOk (decodePair b).1) = true := by
  have key : isBranch (decodePair b).1 = false →
      (buildQueue (decodePair b).1 (decodePair b).2).head? = some .resolve ∧
      (buildQueue (decodePair b).1 (decodePair b).2).tail.all (opOk (decodePair b).1) = true := by
    revert b; decide +kernel
  obtain ⟨h1, h2⟩ := key h
  generalize buildQueue (decodePair b).1 (decodePair b).2 = q at *
  cases q <;> simp at h1
  subst h1
  exact ⟨_, rfl, h2⟩

/-- The queue of a branch. -/
theorem buildQueue_branch (b : Byte) (h : isBranch (decodePair b).1 = true) :
    (decodePair b).2 = .rel ∧
      buildQueue (decodePair b).1 (decodePair b).2 = [.resolve, .exec] := by
  revert b; decide +kernel

/-- The drain writes no slot but the queue, for every instruction. -/
theorem drain_slots {fuel limit spent : Nat} {s u : State} (h : drain fuel limit spent s = .next u) :
    SameSlots s u := by
  induction fuel generalizing spent s with
  | zero =>
    simp only [drain] at h
    split at h
    · cases h; exact ⟨rfl, rfl, rfl, rfl, rfl⟩
    · split at h <;> cases h; exact ⟨rfl, rfl, rfl, rfl, rfl⟩
  | succ n ih =>
    simp only [drain] at h
    split at h
    · cases h; exact ⟨rfl, rfl, rfl, rfl, rfl⟩
    · split at h
      · rw [andThen_eq_next] at h
        obtain ⟨v, hv, h⟩ := h
        have h1 := perform_slots hv
        have h2 := ih h
        exact ⟨h2.op.trans h1.op, h2.opnds.trans h1.opnds, h2.ins.trans h1.ins,
          h2.cycles.trans h1.cycles, h2.sink.trans h1.sink⟩
      · cases h; exact ⟨rfl, rfl, rfl, rfl, rfl⟩

/-- How an execute step ends: it counts one tick, and completes the instruction exactly when it empties a
queue that was not empty. -/
theorem executeStep_end {limit : Nat} {s t : State} (h : executeStep limit s = .next t) :
    t.cycles = s.cycles + 1 ∧ t.ins = s.ins ∧
      ((s.q ≠ [] ∧ t.boundary ∧ t.sink = { regs := t.regs, cycles := t.cycles } :: s.sink) ∨
        ((s.q = [] ∨ t.q ≠ []) ∧ t.op = s.op ∧ t.opnds = s.opnds ∧ t.sink = s.sink)) := by
  simp only [executeStep, andThen_eq_next] at h
  obtain ⟨u, hu, h⟩ := h
  have hs := drain_slots hu
  cases h
  by_cases hq : s.q = []
  · simp [endTick, hq, hs.cycles, hs.op, hs.opnds, hs.sink, hs.ins]
  · have : (!s.q.isEmpty) = true := by simpa using hq
    rw [this]
    cases huq : u.q with
    | nil =>
      simp [endTick, huq, hs.cycles, hs.sink, hq, State.boundary, snapshotOf, hs.ins, State.regs]
    | cons k l => simp [endTick, huq, hs.cycles, hs.sink, hq, hs.op, hs.opnds, hs.ins]

end Sys2Proof.Machine
end

