-- ==== Sys2Proof/Laws/Meaning.lean ====
section
/-! SUPPORT. The run of one instruction by shape: what `runInstr` answers for a READ form, a store, a
read-modify-write form, an instruction whose only step is its Exec, and a branch. -/

namespace Sys2Proof.Machine

/-- Every meaning is the run of its instruction. -/
theorem exec_eq_runInstr (i : Instr) (s : State) : exec i s = runInstr i s := by cases i <;> rfl

/-- The meaning of an instruction with a known queue, its micro-ops in a row. -/
theorem exec_eq_performAll {i : Instr} {b : Byte} {s : State} {q : List MicroOp} (hop : i.opcode? = some b)
    (h : isBranch i.type = false) (hq : buildQueue i.type i.mode = q) :
    exec i s =
      andThen (performAll q (loaded i b s)) (fun t => .next (completed (1 + totalCost q) t)) := by
  rw [exec_eq_runInstr, runInstr_eq i b s hop h, hq]

/-- The operand forms that name a memory location. -/
def inMemory : Operand → Bool
  | .acc | .imm _ | .ind _ => false
  | .zp _ | .zpx _ | .zpy _ | .abs _ | .abx _ | .aby _ | .izx _ | .izy _ => true

/-- The resolver sees the same registers and bus in the loaded state. -/
theorem effAddr_loaded (md : Mode) (l : List Byte) (i : Instr) (b : Byte) (s : State) :
    effAddr md l (loaded i b s) = effAddr md l s := rfl

/-- A READ form with an immediate operand. -/
theorem runInstr_readImm {i : Instr} {b b1 : Byte} {s : State} {body : State → State}
    (hop : i.opcode? = some b) (hm : i.mode = .imm) (ho : i.operandBytes = [b1])
    (hb : isBranch i.type = false) (hc : accessClass i.type .imm = .read)
    (hh : handlerOps i.type .imm = [.exec]) (hs : ∀ u, stage i.type u = u)
    (hx : ∀ u, execBody i.type u = .next (body u)) :
    runInstr i s = .next (completed 1 (body { loaded i b s with m := b1 })) := by
  rw [runInstr_eq i b s hop hb]
  simp [hm, ho, hc, hh, hs, hx, buildQueue, staticOps, addrOps, operandCount, performAll, perform,
    resolve, resolveMode, totalCost, cost]

/-- A READ form in memory: one read at the resolved address, then its Exec. -/
theorem runInstr_readMem {i : Instr} {o : Operand} {b : Byte} {s : State} {body : State → State}
    (hop : i.opcode? = some b) (hm : i.mode = o.mode) (ho : i.operandBytes = o.bytes)
    (hb : isBranch i.type = false) (hc : accessClass i.type o.mode = .read)
    (hh : handlerOps i.type o.mode = [.exec]) (hs : ∀ u, stage i.type u = u)
    (hx : ∀ u, execBody i.type u = .next (body u)) (hmem : inMemory o = true) :
    runInstr i s = andThen (operandAddr o s) fun r => andThen (r.2.read r.1) fun m =>
      .next (completed (1 + totalCost (addrOps o.mode .read))
        (body { loaded i b s with ea := r.1, m := m.1, bus := m.2 })) := by
  rw [runInstr_eq i b s hop hb, operandAddr]
  cases o <;> simp only [inMemory] at hmem <;> first | contradiction | skip
  all_goals
    simp only [Operand.mode, Operand.bytes] at hm ho hc hh
    simp [hm, ho, hc, hh, hs, hx, effAddr_loaded, buildQueue, staticOps, addrOps, operandCount,
      performAll, perform, resolve, resolveMode, totalCost, cost, doRead, Operand.mode, Operand.bytes]

/-- A store, from the address it resolves to: the staged byte is written there. -/
theorem runInstr_store {i : Instr} {o : Operand} {b : Byte} {s : State} {reg : Regs → Byte}
    (hop : i.opcode? = some b) (hm : i.mode = o.mode) (ho : i.operandBytes = o.bytes)
    (hb : isBranch i.type = false) (hc : accessClass i.type o.mode = .store)
    (hh : handlerOps i.type o.mode = []) (hs : ∀ u, stage i.type u = { u with sv := reg u.regs })
    (hmem : inMemory o = true) :
    runInstr i s = andThen (operandAddr o s) fun r => andThen (r.2.write r.1 (reg s.regs)) fun bus =>
      .next (completed (1 + totalCost (addrOps o.mode .store))
        { loaded i b s with ea := r.1, sv := reg s.regs, bus := bus }) := by
  rw [runInstr_eq i b s hop hb]
  have h1 : (loaded i b s).ins = (i.type, i.mode) := rfl
  have h2 : (loaded i b s).opnds = i.operandBytes := rfl
  have h3 := fun md l => effAddr_loaded md l i b s
  have h4 : (loaded i b s).regs = s.regs := rfl
  generalize loaded i b s = L at *
  cases o <;> simp only [inMemory] at hmem <;> first | contradiction | skip
  all_goals
    simp only [Operand.mode, Operand.bytes] at hm ho hc hh
    simp [hm, ho, hc, hh, hs, h1, h2, h3, buildQueue, staticOps, addrOps, operandCount, performAll, perform,
      resolve, resolveMode, totalCost, cost, doWrite, operandAddr, Operand.mode, Operand.bytes]
    rw [← h4]
    rfl

/-- A read-modify-write form in memory: one read, the Modify body, one write of `sv`. -/
theorem runInstr_rmw {i : Instr} {o : Operand} {b : Byte} {s : State} {body : State → State}
    (hop : i.opcode? = some b) (hm : i.mode = o.mode) (ho : i.operandBytes = o.bytes)
    (hb : isBranch i.type = false) (hc : accessClass i.type o.mode = .rmw)
    (hh : handlerOps i.type o.mode = [.modify, .write]) (hs : ∀ u, stage i.type u = u)
    (hx : ∀ u, modifyBody i.type u = .next (body u)) (hmem : addrOps o.mode .rmw ≠ [])
    (hbody : ∀ u, (body u).ea = u.ea ∧ (body u).bus = u.bus) :
    runInstr i s = andThen (operandAddr o s) fun r => andThen (r.2.read r.1) fun m =>
      andThen (m.2.write r.1 (body { loaded i b s with ea := r.1, m := m.1, bus := m.2 }).sv) fun bus =>
        .next (completed (3 + totalCost (addrOps o.mode .rmw))
          { body { loaded i b s with ea := r.1, m := m.1, bus := m.2 } with bus := bus }) := by
  rw [runInstr_eq i b s hop hb]
  have h1 : (loaded i b s).ins = (i.type, i.mode) := rfl
  have h2 : (loaded i b s).opnds = i.operandBytes := rfl
  have h3 := fun md l => effAddr_loaded md l i b s
  generalize loaded i b s = L at *
  cases o <;> simp only [Operand.mode, addrOps] at hmem <;> first | contradiction | skip
  all_goals
    simp only [Operand.mode, Operand.bytes] at hm ho hc hh
    simp [hm, ho, hc, hh, hs, h1, h2, h3, hx, hbody, buildQueue, staticOps, addrOps, operandCount, performAll,
      perform, resolve, resolveMode, totalCost, cost, doWrite, doRead, operandAddr, Operand.mode,
      Operand.bytes]

/-- An Implicit or NONE instruction whose only step is its Exec. -/
theorem runInstr_bare {i : Instr} {b : Byte} {s : State} {body : State → State}
    (hop : i.opcode? = some b) (hb : isBranch i.type = false) (hm : i.mode = .imp ∨ i.mode = .none)
    (hc : accessClass i.type i.mode = .other) (hh : handlerOps i.type i.mode = [.exec])
    (hs : ∀ u, stage i.type u = u) (hx : ∀ u, execBody i.type u = .next (body u)) :
    runInstr i s = .next (completed 2 (body (loaded i b s))) := by
  rw [runInstr_eq i b s hop hb]
  rcases hm with hm | hm <;> rw [hm] at hc hh <;>
    simp [hm, hc, hh, hs, hx, buildQueue, staticOps, addrOps, operandCount, performAll, perform, resolve,
      resolveMode, totalCost, cost]

/-- An Accumulator form: `m` is A, then its Exec. -/
theorem runInstr_acc {i : Instr} {b : Byte} {s : State} {body : State → State}
    (hop : i.opcode? = some b) (hb : isBranch i.type = false) (hm : i.mode = .acc)
    (hc : accessClass i.type .acc = .other) (hh : handlerOps i.type .acc = [.exec])
    (hs : ∀ u, stage i.type u = u) (hx : ∀ u, execBody i.type u = .next (body u)) :
    runInstr i s = .next (completed 2 (body { loaded i b s with m := s.a })) := by
  rw [runInstr_eq i b s hop hb]
  simp [hm, hc, hh, hs, hx, buildQueue, staticOps, addrOps, operandCount, performAll, perform, resolve,
    resolveMode, totalCost, cost]
  rfl

/-- A branch, from its condition: the target is resolved in the decode tick, and a taken branch goes on for
one or two ticks more (45_control.md R294). -/
theorem runInstr_branch {i : Instr} {b b1 : Byte} {s : State} {cond : Byte → Bool}
    (hop : i.opcode? = some b) (hm : i.mode = .rel) (ho : i.operandBytes = [b1])
    (hb : isBranch i.type = true) (hx : ∀ u, execBody i.type u = .next (branch (cond u.p) u)) :
    runInstr i s =
      .next (completed
        (if cond s.p then if hi8 (s.pc + sext16 b1) = hi8 s.pc then 2 else 3 else 1)
        { loaded i b s with
          ea := s.pc + sext16 b1
          pc := if cond s.p then s.pc + sext16 b1 else s.pc }) := by
  have hc : accessClass i.type .rel = .other := by
    revert hb; generalize i.type = t; cases t <;> simp [isBranch, accessClass]
  have hh : handlerOps i.type .rel = [.exec] := by
    revert hb; generalize i.type = t; cases t <;> simp [isBranch, handlerOps]
  have hs : ∀ u, stage i.type u = u := by
    intro u; revert hb; generalize i.type = t; cases t <;> simp [isBranch, stage]
  have hq : buildQueue i.type .rel = [.resolve, .exec] := by
    simp [buildQueue, staticOps, operandCount, hc, hh, addrOps]
  by_cases hp : cond s.p = true
  · by_cases hpage : hi8 (s.pc + sext16 b1) = hi8 s.pc
    · simp [runInstr, hop, loaded, hm, ho, hq, executeStep, drain, cost, perform, resolve, resolveMode,
        effAddr, hs, hx, hp, branch, hpage, endTick, finish, tickBound, tick, completed, snapshotOf,
        State.regs]
    · simp [runInstr, hop, loaded, hm, ho, hq, executeStep, drain, cost, perform, resolve, resolveMode,
        effAddr, hs, hx, hp, branch, hpage, endTick, finish, tickBound, tick, completed, snapshotOf,
        State.regs]
  · simp [runInstr, hop, loaded, hm, ho, hq, executeStep, drain, cost, perform, resolve, resolveMode,
      effAddr, hs, hx, hp, branch, endTick, finish, tickBound, completed, snapshotOf, State.regs]

end Sys2Proof.Machine
end

