-- ==== Sys2Proof/Laws/Operands.lean ====
section
/-! SUPPORT. The laws of the resolver: over which bus an effective address is computed, and the word reads
of plain memory it makes. -/

namespace Sys2Proof.Machine

/-- A word read where both bytes are stored. -/
theorem Bus.readWord_stored {b : Bus} {a : Addr} (h : b.stored a = true) (h1 : b.stored (a + 1) = true) :
    b.readWord a = .next (cat (b.mem.get (b.cellAt (a + 1))) (b.mem.get (b.cellAt a)),
      { b with
        log := .read (a + 1) (b.mem.get (b.cellAt (a + 1))) :: .read a (b.mem.get (b.cellAt a)) :: b.log }) := by
  simp only [Bus.readWord, Bus.read_stored h, andThen_next]
  rw [Bus.read_stored (by exact h1)]
  rfl

/-- Computing an effective address changes neither the map nor the contents of memory. -/
theorem effAddr_frame {md : Mode} {l : List Byte} {s : State} {r : Addr × Bus}
    (h : effAddr md l s = .next r) : r.2.map = s.bus.map ∧ r.2.mem = s.bus.mem := by
  unfold effAddr at h
  split at h <;> first
    | (cases h; exact ⟨rfl, rfl⟩)
    | cases h
    | exact Bus.readWord_frame h
    | (simp only [andThen_eq_next] at h
       obtain ⟨v, hv, h⟩ := h
       cases h
       exact Bus.readWord_frame (r := v) hv)

/-- Staging and resolving leave the programmer-visible registers as they were. -/
theorem resolve_regs {s t : State} (h : resolve s = .next t) : t.regs = s.regs := by
  obtain ⟨a, x, y, sp, pc, p, op, opnds, ⟨ty, md⟩, ea, m, sv, ret, q, cy, bus, sink⟩ := s
  simp only [resolve, andThen_eq_next] at h
  obtain ⟨u, hu, h⟩ := h
  cases h
  have : u.regs = ⟨a, x, y, sp, pc, p⟩ := by
    cases md <;> simp only [resolveMode, andThen_eq_next] at hu
    case imm => split at hu <;> cases hu; rfl
    all_goals first
      | (cases hu; rfl)
      | (obtain ⟨r, _, hr⟩ := hu; cases hr; rfl)
  cases ty <;> exact this

end Sys2Proof.Machine
end

