-- ==== Sys2Proof/Laws/PerInstr.lean ====
section
/-! SUPPORT. Per-instruction laws. `OpcodeDecodes`: the opcode byte the encoder gives an instruction decodes, by
the matrix, to the type and mode of that instruction; one lemma per constructor. -/

namespace Sys2Proof.Laws

/-- The opcode byte of the opcode lists (42 to 46) is the matrix's byte for the type and mode
(30_encoding.md R103). -/
def OpcodeDecodes.Statement (i : Instr) : Prop :=
  ∀ b, i.opcode? = some b → decodePair b = (i.type, i.mode)

theorem OpcodeDecodes.lda (o : Operand) : OpcodeDecodes.Statement (.lda o) := by
  intro b h; cases o <;> first | (cases h; rfl) | cases h
theorem OpcodeDecodes.ldx (o : Operand) : OpcodeDecodes.Statement (.ldx o) := by
  intro b h; cases o <;> first | (cases h; rfl) | cases h
theorem OpcodeDecodes.ldy (o : Operand) : OpcodeDecodes.Statement (.ldy o) := by
  intro b h; cases o <;> first | (cases h; rfl) | cases h
theorem OpcodeDecodes.sta (o : Operand) : OpcodeDecodes.Statement (.sta o) := by
  intro b h; cases o <;> first | (cases h; rfl) | cases h
theorem OpcodeDecodes.stx (o : Operand) : OpcodeDecodes.Statement (.stx o) := by
  intro b h; cases o <;> first | (cases h; rfl) | cases h
theorem OpcodeDecodes.sty (o : Operand) : OpcodeDecodes.Statement (.sty o) := by
  intro b h; cases o <;> first | (cases h; rfl) | cases h
theorem OpcodeDecodes.tax : OpcodeDecodes.Statement .tax := by
  intro b h; cases h; rfl
theorem OpcodeDecodes.tay : OpcodeDecodes.Statement .tay := by
  intro b h; cases h; rfl
theorem OpcodeDecodes.txa : OpcodeDecodes.Statement .txa := by
  intro b h; cases h; rfl
theorem OpcodeDecodes.tya : OpcodeDecodes.Statement .tya := by
  intro b h; cases h; rfl
theorem OpcodeDecodes.tsx : OpcodeDecodes.Statement .tsx := by
  intro b h; cases h; rfl
theorem OpcodeDecodes.txs : OpcodeDecodes.Statement .txs := by
  intro b h; cases h; rfl
theorem OpcodeDecodes.adc (o : Operand) : OpcodeDecodes.Statement (.adc o) := by
  intro b h; cases o <;> first | (cases h; rfl) | cases h
theorem OpcodeDecodes.sbc (o : Operand) : OpcodeDecodes.Statement (.sbc o) := by
  intro b h; cases o <;> first | (cases h; rfl) | cases h
theorem OpcodeDecodes.and (o : Operand) : OpcodeDecodes.Statement (.and o) := by
  intro b h; cases o <;> first | (cases h; rfl) | cases h
theorem OpcodeDecodes.ora (o : Operand) : OpcodeDecodes.Statement (.ora o) := by
  intro b h; cases o <;> first | (cases h; rfl) | cases h
theorem OpcodeDecodes.eor (o : Operand) : OpcodeDecodes.Statement (.eor o) := by
  intro b h; cases o <;> first | (cases h; rfl) | cases h
theorem OpcodeDecodes.cmp (o : Operand) : OpcodeDecodes.Statement (.cmp o) := by
  intro b h; cases o <;> first | (cases h; rfl) | cases h
theorem OpcodeDecodes.cpx (o : Operand) : OpcodeDecodes.Statement (.cpx o) := by
  intro b h; cases o <;> first | (cases h; rfl) | cases h
theorem OpcodeDecodes.cpy (o : Operand) : OpcodeDecodes.Statement (.cpy o) := by
  intro b h; cases o <;> first | (cases h; rfl) | cases h
theorem OpcodeDecodes.bit (o : Operand) : OpcodeDecodes.Statement (.bit o) := by
  intro b h; cases o <;> first | (cases h; rfl) | cases h
theorem OpcodeDecodes.inc (o : Operand) : OpcodeDecodes.Statement (.inc o) := by
  intro b h; cases o <;> first | (cases h; rfl) | cases h
theorem OpcodeDecodes.dec (o : Operand) : OpcodeDecodes.Statement (.dec o) := by
  intro b h; cases o <;> first | (cases h; rfl) | cases h
theorem OpcodeDecodes.inx : OpcodeDecodes.Statement .inx := by
  intro b h; cases h; rfl
theorem OpcodeDecodes.iny : OpcodeDecodes.Statement .iny := by
  intro b h; cases h; rfl
theorem OpcodeDecodes.dex : OpcodeDecodes.Statement .dex := by
  intro b h; cases h; rfl
theorem OpcodeDecodes.dey : OpcodeDecodes.Statement .dey := by
  intro b h; cases h; rfl
theorem OpcodeDecodes.asl (o : Operand) : OpcodeDecodes.Statement (.asl o) := by
  intro b h; cases o <;> first | (cases h; rfl) | cases h
theorem OpcodeDecodes.lsr (o : Operand) : OpcodeDecodes.Statement (.lsr o) := by
  intro b h; cases o <;> first | (cases h; rfl) | cases h
theorem OpcodeDecodes.rol (o : Operand) : OpcodeDecodes.Statement (.rol o) := by
  intro b h; cases o <;> first | (cases h; rfl) | cases h
theorem OpcodeDecodes.ror (o : Operand) : OpcodeDecodes.Statement (.ror o) := by
  intro b h; cases o <;> first | (cases h; rfl) | cases h
theorem OpcodeDecodes.jmp (o : Operand) : OpcodeDecodes.Statement (.jmp o) := by
  intro b h; cases o <;> first | (cases h; rfl) | cases h
theorem OpcodeDecodes.jsr (w : Addr) : OpcodeDecodes.Statement (.jsr w) := by
  intro b h; cases h; rfl
theorem OpcodeDecodes.rts : OpcodeDecodes.Statement .rts := by
  intro b h; cases h; rfl
theorem OpcodeDecodes.bpl (b1 : Byte) : OpcodeDecodes.Statement (.bpl b1) := by
  intro b h; cases h; rfl
theorem OpcodeDecodes.bmi (b1 : Byte) : OpcodeDecodes.Statement (.bmi b1) := by
  intro b h; cases h; rfl
theorem OpcodeDecodes.bvc (b1 : Byte) : OpcodeDecodes.Statement (.bvc b1) := by
  intro b h; cases h; rfl
theorem OpcodeDecodes.bvs (b1 : Byte) : OpcodeDecodes.Statement (.bvs b1) := by
  intro b h; cases h; rfl
theorem OpcodeDecodes.bcc (b1 : Byte) : OpcodeDecodes.Statement (.bcc b1) := by
  intro b h; cases h; rfl
theorem OpcodeDecodes.bcs (b1 : Byte) : OpcodeDecodes.Statement (.bcs b1) := by
  intro b h; cases h; rfl
theorem OpcodeDecodes.bne (b1 : Byte) : OpcodeDecodes.Statement (.bne b1) := by
  intro b h; cases h; rfl
theorem OpcodeDecodes.beq (b1 : Byte) : OpcodeDecodes.Statement (.beq b1) := by
  intro b h; cases h; rfl
theorem OpcodeDecodes.pha : OpcodeDecodes.Statement .pha := by
  intro b h; cases h; rfl
theorem OpcodeDecodes.php : OpcodeDecodes.Statement .php := by
  intro b h; cases h; rfl
theorem OpcodeDecodes.pla : OpcodeDecodes.Statement .pla := by
  intro b h; cases h; rfl
theorem OpcodeDecodes.plp : OpcodeDecodes.Statement .plp := by
  intro b h; cases h; rfl
theorem OpcodeDecodes.brk : OpcodeDecodes.Statement .brk := by
  intro b h; cases h; rfl
theorem OpcodeDecodes.rti : OpcodeDecodes.Statement .rti := by
  intro b h; cases h; rfl
theorem OpcodeDecodes.clc : OpcodeDecodes.Statement .clc := by
  intro b h; cases h; rfl
theorem OpcodeDecodes.sec : OpcodeDecodes.Statement .sec := by
  intro b h; cases h; rfl
theorem OpcodeDecodes.cli : OpcodeDecodes.Statement .cli := by
  intro b h; cases h; rfl
theorem OpcodeDecodes.sei : OpcodeDecodes.Statement .sei := by
  intro b h; cases h; rfl
theorem OpcodeDecodes.clv : OpcodeDecodes.Statement .clv := by
  intro b h; cases h; rfl
theorem OpcodeDecodes.cld : OpcodeDecodes.Statement .cld := by
  intro b h; cases h; rfl
theorem OpcodeDecodes.sed : OpcodeDecodes.Statement .sed := by
  intro b h; cases h; rfl
theorem OpcodeDecodes.nop : OpcodeDecodes.Statement .nop := by
  intro b h; cases h; rfl
theorem OpcodeDecodes.illegal (b0 : Byte) : OpcodeDecodes.Statement (.illegal b0) := by
  have key : ∀ c : Byte, decodeType c = .illegal → decodePair c = (.illegal, .none) := by decide +kernel
  intro b h
  simp only [Instr.opcode?] at h
  split at h
  · cases h; exact key b0 ‹_›
  · cases h

end Sys2Proof.Laws
end

