-- ==== Sys2Proof/Tests/Slice0.lean ====
section
/-! SUPPORT. The model's own tests. Expected values come from spec/: the matrix and operand assembly of
30_encoding.md for the decoder, the vectors V1 to V115 and the examples E1 to E9 of 95_test_vectors.md for the
steps. Then, for every obligation with hypotheses, one named witness that meets them. -/

open Sys2Proof Sys2Proof.Machine

namespace Sys2Proof.Tests

/-! ## Small states -/

/-- The blank bus, no access made yet. -/
def plainBus : Bus := { State.reset.bus with log := [] }

/-- A bus with runs of bytes placed. -/
def placeAll : List (Addr × List Byte) → Bus → Bus
  | [], b => b
  | (a, bs) :: rest, b => placeAll rest (b.place a bs)

/-- The launch state of 95_test_vectors.md: registers, and bytes over a bus that maps every address. -/
def launch (r : Regs) (bytes : List (Addr × List Byte)) : State :=
  { State.reset with
    a := r.a
    x := r.x
    y := r.y
    sp := r.sp
    pc := r.pc
    p := r.p
    bus := placeAll bytes plainBus }

/-- A state over another bus map. -/
def onMap (map : List Region) (s : State) : State := { s with bus := { s.bus with map := map } }

/-- A region of plain memory. -/
def ram (first last : Nat) : Region := { first := first, last := last, kind := .memory }

/-- The outcome is a state that passes the test. -/
def answers (r : Res State) (f : State → Bool) : Bool :=
  match r with
  | .next t => f t
  | _ => false

/-- The outcome is a value. -/
def isNext {α : Type} (r : Res α) : Bool :=
  match r with
  | .next _ => true
  | _ => false

/-- The fault of an outcome. -/
def faultOf {α : Type} (r : Res α) : Option Fault :=
  match r with
  | .fault f => some f
  | _ => none

theorem exists_next {α : Type} {r : Res α} (h : isNext r = true) : ∃ v, r = .next v := by
  cases r <;> first | exact ⟨_, rfl⟩ | cases h

theorem exists_next_pair {α β : Type} {r : Res (α × β)} (h : isNext r = true) :
    ∃ v b, r = .next (v, b) := by
  cases r <;> first | exact ⟨_, _, rfl⟩ | cases h

theorem fault_of {α : Type} {r : Res α} {f : Fault} (h : faultOf r = some f) : r = .fault f := by
  cases r <;> cases h; rfl

/-! ## WellFormed refuses ill-formed terms -/

/-- formOk: a store has no Immediate form (42_load_store_transfer.md R204). -/
theorem test_wf_no_store_immediate : (Instr.sta (.imm 0x05)).formOk = false := by decide
/-- formOk: LDX indexes by Y, never by X (42_load_store_transfer.md R202). -/
theorem test_wf_no_ldx_zpx : (Instr.ldx (.zpx 0x10)).formOk = false := by decide
/-- formOk: only JMP has the Indirect mode (45_control.md R291). -/
theorem test_wf_no_lda_ind : (Instr.lda (.ind 0x0300)).formOk = false := by decide
/-- formOk: INC has no Accumulator form (43_arith_logic.md R240). -/
theorem test_wf_no_inc_acc : (Instr.inc .acc).formOk = false := by decide
/-- byteOk: a documented byte is not Illegal (30_encoding.md R106). -/
theorem test_wf_no_illegal_a9 : (Instr.illegal 0xA9).byteOk = false := by decide
/-- Either check refuses the term as a whole. -/
theorem test_wf_refuses :
    (Instr.sta (.imm 0x05)).wf = false ∧ (Instr.illegal 0xA9).wf = false := by decide
/-- Terms with every operand form, and an Illegal byte of each list, are accepted. -/
theorem test_wf_accepts :
    (Instr.asl .acc).wf ∧ (Instr.adc (.imm 0xFF)).wf ∧ (Instr.stx (.zpy 0xFF)).wf ∧
      (Instr.sty (.zpx 0)).wf ∧ (Instr.jmp (.ind 0xFFFF)).wf ∧ (Instr.sta (.izy 0)).wf ∧
      (Instr.eor (.izx 0)).wf ∧ (Instr.illegal 0x9E).wf ∧ (Instr.illegal 0x89).wf ∧
      (Instr.illegal 0xFC).wf ∧ (Instr.illegal 0xFF).wf := by decide

/-! ## Decoding: words written out from the matrix (30_encoding.md R103) -/

theorem test_decode_load :
    decode [0xA9, 0x05] = .ok (.lda (.imm 0x05), []) ∧ decode [0xA5, 0x10] = .ok (.lda (.zp 0x10), []) ∧
    decode [0xB5, 0xF0] = .ok (.lda (.zpx 0xF0), []) ∧
    decode [0xAD, 0x34, 0x12] = .ok (.lda (.abs 0x1234), []) ∧
    decode [0xBD, 0xF0, 0x12] = .ok (.lda (.abx 0x12F0), []) ∧
    decode [0xB9, 0xF0, 0xFF] = .ok (.lda (.aby 0xFFF0), []) ∧
    decode [0xA1, 0x20] = .ok (.lda (.izx 0x20), []) ∧ decode [0xB1, 0x20] = .ok (.lda (.izy 0x20), []) ∧
    decode [0xA2, 0x80] = .ok (.ldx (.imm 0x80), []) ∧ decode [0xB6, 0x10] = .ok (.ldx (.zpy 0x10), []) ∧
    decode [0xBE, 0x01, 0x20] = .ok (.ldx (.aby 0x2001), []) ∧
    decode [0xA0, 0x7F] = .ok (.ldy (.imm 0x7F), []) ∧ decode [0xB4, 0x10] = .ok (.ldy (.zpx 0x10), []) ∧
    decode [0xBC, 0x00, 0x20] = .ok (.ldy (.abx 0x2000), []) :=
  ⟨rfl, rfl, rfl, rfl, rfl, rfl, rfl, rfl, rfl, rfl, rfl, rfl, rfl, rfl⟩

theorem test_decode_store :
    decode [0x85, 0x10] = .ok (.sta (.zp 0x10), []) ∧
    decode [0x9D, 0x00, 0x20] = .ok (.sta (.abx 0x2000), []) ∧
    decode [0x91, 0x20] = .ok (.sta (.izy 0x20), []) ∧ decode [0x96, 0xFF] = .ok (.stx (.zpy 0xFF), []) ∧
    decode [0x94, 0x10] = .ok (.sty (.zpx 0x10), []) ∧
    decode [0x8C, 0x00, 0x03] = .ok (.sty (.abs 0x0300), []) :=
  ⟨rfl, rfl, rfl, rfl, rfl, rfl⟩

theorem test_decode_transfer :
    decode [0xAA] = .ok (.tax, []) ∧ decode [0xA8] = .ok (.tay, []) ∧ decode [0x8A] = .ok (.txa, []) ∧
    decode [0x98] = .ok (.tya, []) ∧ decode [0xBA] = .ok (.tsx, []) ∧ decode [0x9A] = .ok (.txs, []) :=
  ⟨rfl, rfl, rfl, rfl, rfl, rfl⟩

theorem test_decode_arith :
    decode [0x69, 0x50] = .ok (.adc (.imm 0x50), []) ∧ decode [0x71, 0x20] = .ok (.adc (.izy 0x20), []) ∧
    decode [0xE9, 0x01] = .ok (.sbc (.imm 0x01), []) ∧
    decode [0xFD, 0x00, 0x20] = .ok (.sbc (.abx 0x2000), []) ∧
    decode [0x29, 0x0F] = .ok (.and (.imm 0x0F), []) ∧ decode [0x09, 0x80] = .ok (.ora (.imm 0x80), []) ∧
    decode [0x49, 0x0F] = .ok (.eor (.imm 0x0F), []) ∧ decode [0xC9, 0x20] = .ok (.cmp (.imm 0x20), []) ∧
    decode [0xE4, 0x10] = .ok (.cpx (.zp 0x10), []) ∧ decode [0xC0, 0x80] = .ok (.cpy (.imm 0x80), []) ∧
    decode [0x2C, 0x00, 0x10] = .ok (.bit (.abs 0x1000), []) ∧
    decode [0xE6, 0x10] = .ok (.inc (.zp 0x10), []) ∧ decode [0xD6, 0x10] = .ok (.dec (.zpx 0x10), []) ∧
    decode [0xE8] = .ok (.inx, []) ∧ decode [0xC8] = .ok (.iny, []) ∧ decode [0xCA] = .ok (.dex, []) ∧
    decode [0x88] = .ok (.dey, []) :=
  ⟨rfl, rfl, rfl, rfl, rfl, rfl, rfl, rfl, rfl, rfl, rfl, rfl, rfl, rfl, rfl, rfl, rfl⟩

theorem test_decode_shift :
    decode [0x0A] = .ok (.asl .acc, []) ∧ decode [0x06, 0x10] = .ok (.asl (.zp 0x10), []) ∧
    decode [0x4E, 0x00, 0x03] = .ok (.lsr (.abs 0x0300), []) ∧
    decode [0x36, 0x10] = .ok (.rol (.zpx 0x10), []) ∧
    decode [0x7E, 0x00, 0x20] = .ok (.ror (.abx 0x2000), []) :=
  ⟨rfl, rfl, rfl, rfl, rfl⟩

theorem test_decode_control :
    decode [0x4C, 0x00, 0xC0] = .ok (.jmp (.abs 0xC000), []) ∧
    decode [0x6C, 0xFF, 0x02] = .ok (.jmp (.ind 0x02FF), []) ∧
    decode [0x20, 0x00, 0x07] = .ok (.jsr 0x0700, []) ∧ decode [0x60] = .ok (.rts, []) ∧
    decode [0x10, 0x10] = .ok (.bpl 0x10, []) ∧ decode [0x30, 0x10] = .ok (.bmi 0x10, []) ∧
    decode [0x50, 0x10] = .ok (.bvc 0x10, []) ∧ decode [0x70, 0x10] = .ok (.bvs 0x10, []) ∧
    decode [0x90, 0x7F] = .ok (.bcc 0x7F, []) ∧ decode [0xB0, 0x80] = .ok (.bcs 0x80, []) ∧
    decode [0xD0, 0x00] = .ok (.bne 0x00, []) ∧ decode [0xF0, 0xFE] = .ok (.beq 0xFE, []) :=
  ⟨rfl, rfl, rfl, rfl, rfl, rfl, rfl, rfl, rfl, rfl, rfl, rfl⟩

theorem test_decode_system :
    decode [0x48] = .ok (.pha, []) ∧ decode [0x08] = .ok (.php, []) ∧ decode [0x68] = .ok (.pla, []) ∧
    decode [0x28] = .ok (.plp, []) ∧ decode [0x00] = .ok (.brk, []) ∧ decode [0x40] = .ok (.rti, []) ∧
    decode [0x18] = .ok (.clc, []) ∧ decode [0x38] = .ok (.sec, []) ∧ decode [0x58] = .ok (.cli, []) ∧
    decode [0x78] = .ok (.sei, []) ∧ decode [0xB8] = .ok (.clv, []) ∧ decode [0xD8] = .ok (.cld, []) ∧
    decode [0xF8] = .ok (.sed, []) ∧ decode [0xEA] = .ok (.nop, []) ∧
    decode [0x02] = .ok (.illegal 0x02, []) ∧
    decode [0x0C, 0x34, 0x12] = .ok (.illegal 0x0C, [0x34, 0x12]) :=
  ⟨rfl, rfl, rfl, rfl, rfl, rfl, rfl, rfl, rfl, rfl, rfl, rfl, rfl, rfl, rfl, rfl⟩

/-- E1: 105 of the 256 bytes are Illegal, so 151 are documented. -/
theorem test_decode_illegal_count :
    ((List.range 256).filter fun n => decodeType (BitVec.ofNat 8 n) = .illegal).length = 105 := by
  decide +kernel

/-- A list that ends before the operand bytes is rejected by name, an empty one too (30_encoding.md R104). -/
theorem test_decode_rejects :
    decode [] = .error .noOpcode ∧ decode [0xAD, 0x34] = .error .operandMissing ∧
    decode [0xF0] = .error .operandMissing := ⟨rfl, rfl, rfl⟩

/-- Table words: the first byte is the lowest, and absent operand bytes read as 0. -/
theorem test_decode_table_word :
    decodeTableWord 24 0x1234AD = some (.lda (.abs 0x1234)) ∧
    decodeTableWord 8 0xAD = some (.lda (.abs 0x0000)) ∧ decodeTableWord 8 0xEA = some .nop :=
  ⟨rfl, rfl, rfl⟩

/-! ## Address modes: the sums and pointers of the vectors' instructions -/

/-- V3: the zero-page sum wraps in page 0. -/
theorem test_address_zpx_wraps :
    operandAddr (.zpx 0xF0) (launch ⟨0, 0x20, 0, 0xFD, 0x0602, 0x24⟩ []) = .next (0x0010, plainBus) := rfl
/-- V5: the absolute sum wraps modulo 2^16. -/
theorem test_address_aby_wraps :
    operandAddr (.aby 0xFFF0) (launch ⟨0, 0, 0x20, 0xFD, 0x0603, 0x24⟩ []) = .next (0x0010, plainBus) := rfl
/-- V78: a branch offset is signed. -/
theorem test_address_rel_signed :
    effAddr .rel [0x80] (launch ⟨0, 0, 0, 0xFD, 0x0602, 0x25⟩ []) = .next (0x0582, plainBus) := rfl

/-! ## One step of each instruction: vectors of 95_test_vectors.md, section 2 -/

/-- V7: LDA ($FF,X) X=0 (pointer high byte from 0x0100). -/
theorem test_V7_lda :
    answers (step (launch ⟨0x00, 0x00, 0x00, 0xFD, 0x0600, 0x24⟩
      [(0x0600, [0xA1, 0xFF]), (0x0000, [0x56]), (0x00FF, [0x34]), (0x0100, [0x12]),
        (0x1234, [0x42]), (0x5634, [0x24])])) (fun t =>
        t.regs == ⟨0x42, 0x00, 0x00, 0xFD, 0x0602, 0x24⟩ && t.cycles == 6) = true := by
  decide

/-- V8: LDA ($20),Y (carry into high byte). -/
theorem test_V8_lda :
    answers (step (launch ⟨0x00, 0x00, 0x10, 0xFD, 0x0600, 0x24⟩
      [(0x0600, [0xB1, 0x20]), (0x0020, [0xF8]), (0x0021, [0x02]), (0x0308, [0x00])])) (fun t =>
        t.regs == ⟨0x00, 0x00, 0x10, 0xFD, 0x0602, 0x26⟩ && t.cycles == 5) = true := by
  decide

/-- V10: LDX $10,Y. -/
theorem test_V10_ldx :
    answers (step (launch ⟨0x00, 0x00, 0x05, 0xFD, 0x0600, 0x24⟩
      [(0x0600, [0xB6, 0x10]), (0x0015, [0xFF])])) (fun t =>
        t.regs == ⟨0x00, 0xFF, 0x05, 0xFD, 0x0602, 0xA4⟩ && t.cycles == 4) = true := by
  decide

/-- V11: LDY $2000,X. -/
theorem test_V11_ldy :
    answers (step (launch ⟨0x00, 0x01, 0x00, 0xFD, 0x0600, 0x24⟩
      [(0x0600, [0xBC, 0x00, 0x20]), (0x2001, [0x00])])) (fun t =>
        t.regs == ⟨0x00, 0x01, 0x00, 0xFD, 0x0603, 0x26⟩ && t.cycles == 4) = true := by
  decide

/-- V13: STA $2000,X. -/
theorem test_V13_sta :
    answers (step (launch ⟨0x5A, 0xFF, 0x00, 0xFD, 0x0600, 0x24⟩
      [(0x0600, [0x9D, 0x00, 0x20])])) (fun t =>
        t.regs == ⟨0x5A, 0xFF, 0x00, 0xFD, 0x0603, 0x24⟩ && t.cycles == 5
           && t.peek 0x20FF == 0x5A) = true := by
  decide

/-- V14: STA ($20),Y. -/
theorem test_V14_sta :
    answers (step (launch ⟨0x11, 0x00, 0x02, 0xFD, 0x0600, 0x24⟩
      [(0x0600, [0x91, 0x20]), (0x0020, [0xFF]), (0x0021, [0x02])])) (fun t =>
        t.regs == ⟨0x11, 0x00, 0x02, 0xFD, 0x0602, 0x24⟩ && t.cycles == 6
           && t.peek 0x0301 == 0x11) = true := by
  decide

/-- V16: STX $FF,Y (zero-page wrap). -/
theorem test_V16_stx :
    answers (step (launch ⟨0x00, 0x44, 0x02, 0xFD, 0x0600, 0x24⟩
      [(0x0600, [0x96, 0xFF])])) (fun t =>
        t.regs == ⟨0x00, 0x44, 0x02, 0xFD, 0x0602, 0x24⟩ && t.cycles == 4
           && t.peek 0x0001 == 0x44) = true := by
  decide

/-- V17: STY $0300. -/
theorem test_V17_sty :
    answers (step (launch ⟨0x00, 0x00, 0x66, 0xFD, 0x0600, 0x24⟩
      [(0x0600, [0x8C, 0x00, 0x03])])) (fun t =>
        t.regs == ⟨0x00, 0x00, 0x66, 0xFD, 0x0603, 0x24⟩ && t.cycles == 4
           && t.peek 0x0300 == 0x66) = true := by
  decide

/-- V18: TAX. -/
theorem test_V18_tax :
    answers (step (launch ⟨0x80, 0x00, 0x00, 0xFD, 0x0600, 0x24⟩
      [(0x0600, [0xAA])])) (fun t =>
        t.regs == ⟨0x80, 0x80, 0x00, 0xFD, 0x0601, 0xA4⟩ && t.cycles == 2) = true := by
  decide

/-- V19: TAY. -/
theorem test_V19_tay :
    answers (step (launch ⟨0x00, 0x00, 0x12, 0xFD, 0x0600, 0x24⟩
      [(0x0600, [0xA8])])) (fun t =>
        t.regs == ⟨0x00, 0x00, 0x00, 0xFD, 0x0601, 0x26⟩ && t.cycles == 2) = true := by
  decide

/-- V20: TXA. -/
theorem test_V20_txa :
    answers (step (launch ⟨0x00, 0x7F, 0x00, 0xFD, 0x0600, 0x24⟩
      [(0x0600, [0x8A])])) (fun t =>
        t.regs == ⟨0x7F, 0x7F, 0x00, 0xFD, 0x0601, 0x24⟩ && t.cycles == 2) = true := by
  decide

/-- V21: TYA. -/
theorem test_V21_tya :
    answers (step (launch ⟨0x01, 0x00, 0x00, 0xFD, 0x0600, 0x24⟩
      [(0x0600, [0x98])])) (fun t =>
        t.regs == ⟨0x00, 0x00, 0x00, 0xFD, 0x0601, 0x26⟩ && t.cycles == 2) = true := by
  decide

/-- V22: TSX. -/
theorem test_V22_tsx :
    answers (step (launch ⟨0x00, 0x00, 0x00, 0xFD, 0x0600, 0x24⟩
      [(0x0600, [0xBA])])) (fun t =>
        t.regs == ⟨0x00, 0xFD, 0x00, 0xFD, 0x0601, 0xA4⟩ && t.cycles == 2) = true := by
  decide

/-- V23: TXS (no flags). -/
theorem test_V23_txs :
    answers (step (launch ⟨0x00, 0x00, 0x00, 0xFD, 0x0600, 0x24⟩
      [(0x0600, [0x9A])])) (fun t =>
        t.regs == ⟨0x00, 0x00, 0x00, 0x00, 0x0601, 0x24⟩ && t.cycles == 2) = true := by
  decide

/-- V24: ADC #$50 (source example). -/
theorem test_V24_adc :
    answers (step (launch ⟨0x50, 0x00, 0x00, 0xFD, 0x0600, 0x24⟩
      [(0x0600, [0x69, 0x50])])) (fun t =>
        t.regs == ⟨0xA0, 0x00, 0x00, 0xFD, 0x0602, 0xE4⟩ && t.cycles == 2) = true := by
  decide

/-- V26: ADC #$00, A=7F, C=1. -/
theorem test_V26_adc :
    answers (step (launch ⟨0x7F, 0x00, 0x00, 0xFD, 0x0600, 0x25⟩
      [(0x0600, [0x69, 0x00])])) (fun t =>
        t.regs == ⟨0x80, 0x00, 0x00, 0xFD, 0x0602, 0xE4⟩ && t.cycles == 2) = true := by
  decide

/-- V32: SBC #$01, A=80, C=1. -/
theorem test_V32_sbc :
    answers (step (launch ⟨0x80, 0x00, 0x00, 0xFD, 0x0600, 0x25⟩
      [(0x0600, [0xE9, 0x01])])) (fun t =>
        t.regs == ⟨0x7F, 0x00, 0x00, 0xFD, 0x0602, 0x65⟩ && t.cycles == 2) = true := by
  decide

/-- V33: SBC #$03, A=05, C=0. -/
theorem test_V33_sbc :
    answers (step (launch ⟨0x05, 0x00, 0x00, 0xFD, 0x0600, 0x24⟩
      [(0x0600, [0xE9, 0x03])])) (fun t =>
        t.regs == ⟨0x01, 0x00, 0x00, 0xFD, 0x0602, 0x25⟩ && t.cycles == 2) = true := by
  decide

/-- V36: AND #$0F, A=F0. -/
theorem test_V36_and :
    answers (step (launch ⟨0xF0, 0x00, 0x00, 0xFD, 0x0600, 0x24⟩
      [(0x0600, [0x29, 0x0F])])) (fun t =>
        t.regs == ⟨0x00, 0x00, 0x00, 0xFD, 0x0602, 0x26⟩ && t.cycles == 2) = true := by
  decide

/-- V37: ORA #$80, A=01. -/
theorem test_V37_ora :
    answers (step (launch ⟨0x01, 0x00, 0x00, 0xFD, 0x0600, 0x24⟩
      [(0x0600, [0x09, 0x80])])) (fun t =>
        t.regs == ⟨0x81, 0x00, 0x00, 0xFD, 0x0602, 0xA4⟩ && t.cycles == 2) = true := by
  decide

/-- V38: EOR #$0F, A=FF. -/
theorem test_V38_eor :
    answers (step (launch ⟨0xFF, 0x00, 0x00, 0xFD, 0x0600, 0x24⟩
      [(0x0600, [0x49, 0x0F])])) (fun t =>
        t.regs == ⟨0xF0, 0x00, 0x00, 0xFD, 0x0602, 0xA4⟩ && t.cycles == 2) = true := by
  decide

/-- V40: CMP #$20, A=10 (source example). -/
theorem test_V40_cmp :
    answers (step (launch ⟨0x10, 0x00, 0x00, 0xFD, 0x0600, 0x24⟩
      [(0x0600, [0xC9, 0x20])])) (fun t =>
        t.regs == ⟨0x10, 0x00, 0x00, 0xFD, 0x0602, 0xA4⟩ && t.cycles == 2) = true := by
  decide

/-- V42: CMP #$00, A=80. -/
theorem test_V42_cmp :
    answers (step (launch ⟨0x80, 0x00, 0x00, 0xFD, 0x0600, 0x24⟩
      [(0x0600, [0xC9, 0x00])])) (fun t =>
        t.regs == ⟨0x80, 0x00, 0x00, 0xFD, 0x0602, 0xA5⟩ && t.cycles == 2) = true := by
  decide

/-- V44: CPX #$03, X=05. -/
theorem test_V44_cpx :
    answers (step (launch ⟨0x00, 0x05, 0x00, 0xFD, 0x0600, 0x24⟩
      [(0x0600, [0xE0, 0x03])])) (fun t =>
        t.regs == ⟨0x00, 0x05, 0x00, 0xFD, 0x0602, 0x25⟩ && t.cycles == 2) = true := by
  decide

/-- V45: CPX $10, X=FF. -/
theorem test_V45_cpx :
    answers (step (launch ⟨0x00, 0xFF, 0x00, 0xFD, 0x0600, 0x24⟩
      [(0x0600, [0xE4, 0x10]), (0x0010, [0xFF])])) (fun t =>
        t.regs == ⟨0x00, 0xFF, 0x00, 0xFD, 0x0602, 0x27⟩ && t.cycles == 3) = true := by
  decide

/-- V46: CPY #$80, Y=7F. -/
theorem test_V46_cpy :
    answers (step (launch ⟨0x00, 0x00, 0x7F, 0xFD, 0x0600, 0x24⟩
      [(0x0600, [0xC0, 0x80])])) (fun t =>
        t.regs == ⟨0x00, 0x00, 0x7F, 0xFD, 0x0602, 0xA4⟩ && t.cycles == 2) = true := by
  decide

/-- V47: BIT $10, A=00, m=C0. -/
theorem test_V47_bit :
    answers (step (launch ⟨0x00, 0x00, 0x00, 0xFD, 0x0600, 0x24⟩
      [(0x0600, [0x24, 0x10]), (0x0010, [0xC0])])) (fun t =>
        t.regs == ⟨0x00, 0x00, 0x00, 0xFD, 0x0602, 0xE6⟩ && t.cycles == 3) = true := by
  decide

/-- V48: BIT $1000, A=01, m=01. -/
theorem test_V48_bit :
    answers (step (launch ⟨0x01, 0x00, 0x00, 0xFD, 0x0600, 0xE6⟩
      [(0x0600, [0x2C, 0x00, 0x10]), (0x1000, [0x01])])) (fun t =>
        t.regs == ⟨0x01, 0x00, 0x00, 0xFD, 0x0603, 0x24⟩ && t.cycles == 4) = true := by
  decide

/-- V50: INC $10, m=FF. -/
theorem test_V50_inc :
    answers (step (launch ⟨0x00, 0x00, 0x00, 0xFD, 0x0600, 0x24⟩
      [(0x0600, [0xE6, 0x10]), (0x0010, [0xFF])])) (fun t =>
        t.regs == ⟨0x00, 0x00, 0x00, 0xFD, 0x0602, 0x26⟩ && t.cycles == 5
           && t.peek 0x0010 == 0x00) = true := by
  decide

/-- V51: INC $2000,X, m=7F. -/
theorem test_V51_inc :
    answers (step (launch ⟨0x00, 0x01, 0x00, 0xFD, 0x0600, 0x24⟩
      [(0x0600, [0xFE, 0x00, 0x20]), (0x2001, [0x7F])])) (fun t =>
        t.regs == ⟨0x00, 0x01, 0x00, 0xFD, 0x0603, 0xA4⟩ && t.cycles == 7
           && t.peek 0x2001 == 0x80) = true := by
  decide

/-- V52: DEC $0300, m=00. -/
theorem test_V52_dec :
    answers (step (launch ⟨0x00, 0x00, 0x00, 0xFD, 0x0600, 0x24⟩
      [(0x0600, [0xCE, 0x00, 0x03]), (0x0300, [0x00])])) (fun t =>
        t.regs == ⟨0x00, 0x00, 0x00, 0xFD, 0x0603, 0xA4⟩ && t.cycles == 6
           && t.peek 0x0300 == 0xFF) = true := by
  decide

/-- V53: DEC $10,X, m=01. -/
theorem test_V53_dec :
    answers (step (launch ⟨0x00, 0x02, 0x00, 0xFD, 0x0600, 0x24⟩
      [(0x0600, [0xD6, 0x10]), (0x0012, [0x01])])) (fun t =>
        t.regs == ⟨0x00, 0x02, 0x00, 0xFD, 0x0602, 0x26⟩ && t.cycles == 6
           && t.peek 0x0012 == 0x00) = true := by
  decide

/-- V54: INX, X=FF. -/
theorem test_V54_inx :
    answers (step (launch ⟨0x00, 0xFF, 0x00, 0xFD, 0x0600, 0x24⟩
      [(0x0600, [0xE8])])) (fun t =>
        t.regs == ⟨0x00, 0x00, 0x00, 0xFD, 0x0601, 0x26⟩ && t.cycles == 2) = true := by
  decide

/-- V55: INY, Y=7F. -/
theorem test_V55_iny :
    answers (step (launch ⟨0x00, 0x00, 0x7F, 0xFD, 0x0600, 0x24⟩
      [(0x0600, [0xC8])])) (fun t =>
        t.regs == ⟨0x00, 0x00, 0x80, 0xFD, 0x0601, 0xA4⟩ && t.cycles == 2) = true := by
  decide

/-- V56: DEX, X=00. -/
theorem test_V56_dex :
    answers (step (launch ⟨0x00, 0x00, 0x00, 0xFD, 0x0600, 0x24⟩
      [(0x0600, [0xCA])])) (fun t =>
        t.regs == ⟨0x00, 0xFF, 0x00, 0xFD, 0x0601, 0xA4⟩ && t.cycles == 2) = true := by
  decide

/-- V57: DEY, Y=01. -/
theorem test_V57_dey :
    answers (step (launch ⟨0x00, 0x00, 0x01, 0xFD, 0x0600, 0x24⟩
      [(0x0600, [0x88])])) (fun t =>
        t.regs == ⟨0x00, 0x00, 0x00, 0xFD, 0x0601, 0x26⟩ && t.cycles == 2) = true := by
  decide

/-- V58: ASL A, A=80. -/
theorem test_V58_asl :
    answers (step (launch ⟨0x80, 0x00, 0x00, 0xFD, 0x0600, 0x24⟩
      [(0x0600, [0x0A])])) (fun t =>
        t.regs == ⟨0x00, 0x00, 0x00, 0xFD, 0x0601, 0x27⟩ && t.cycles == 2) = true := by
  decide

/-- V60: ASL $10, m=40. -/
theorem test_V60_asl :
    answers (step (launch ⟨0x00, 0x00, 0x00, 0xFD, 0x0600, 0x24⟩
      [(0x0600, [0x06, 0x10]), (0x0010, [0x40])])) (fun t =>
        t.regs == ⟨0x00, 0x00, 0x00, 0xFD, 0x0602, 0xA4⟩ && t.cycles == 5
           && t.peek 0x0010 == 0x80) = true := by
  decide

/-- V61: LSR A, A=01. -/
theorem test_V61_lsr :
    answers (step (launch ⟨0x01, 0x00, 0x00, 0xFD, 0x0600, 0x24⟩
      [(0x0600, [0x4A])])) (fun t =>
        t.regs == ⟨0x00, 0x00, 0x00, 0xFD, 0x0601, 0x27⟩ && t.cycles == 2) = true := by
  decide

/-- V62: LSR $0300, m=03. -/
theorem test_V62_lsr :
    answers (step (launch ⟨0x00, 0x00, 0x00, 0xFD, 0x0600, 0x24⟩
      [(0x0600, [0x4E, 0x00, 0x03]), (0x0300, [0x03])])) (fun t =>
        t.regs == ⟨0x00, 0x00, 0x00, 0xFD, 0x0603, 0x25⟩ && t.cycles == 6
           && t.peek 0x0300 == 0x01) = true := by
  decide

/-- V63: ROL A, A=40, C=1. -/
theorem test_V63_rol :
    answers (step (launch ⟨0x40, 0x00, 0x00, 0xFD, 0x0600, 0x25⟩
      [(0x0600, [0x2A])])) (fun t =>
        t.regs == ⟨0x81, 0x00, 0x00, 0xFD, 0x0601, 0xA4⟩ && t.cycles == 2) = true := by
  decide

/-- V65: ROL $10,X, m=00, C=1. -/
theorem test_V65_rol :
    answers (step (launch ⟨0x00, 0x01, 0x00, 0xFD, 0x0600, 0x25⟩
      [(0x0600, [0x36, 0x10]), (0x0011, [0x00])])) (fun t =>
        t.regs == ⟨0x00, 0x01, 0x00, 0xFD, 0x0602, 0x24⟩ && t.cycles == 6
           && t.peek 0x0011 == 0x01) = true := by
  decide

/-- V66: ROR A, A=02, C=1. -/
theorem test_V66_ror :
    answers (step (launch ⟨0x02, 0x00, 0x00, 0xFD, 0x0600, 0x25⟩
      [(0x0600, [0x6A])])) (fun t =>
        t.regs == ⟨0x81, 0x00, 0x00, 0xFD, 0x0601, 0xA4⟩ && t.cycles == 2) = true := by
  decide

/-- V68: ROR $2000,X, m=00, C=1. -/
theorem test_V68_ror :
    answers (step (launch ⟨0x00, 0x10, 0x00, 0xFD, 0x0600, 0x25⟩
      [(0x0600, [0x7E, 0x00, 0x20]), (0x2010, [0x00])])) (fun t =>
        t.regs == ⟨0x00, 0x10, 0x00, 0xFD, 0x0603, 0xA4⟩ && t.cycles == 7
           && t.peek 0x2010 == 0x80) = true := by
  decide

/-- V69: JMP $C000. -/
theorem test_V69_jmp :
    answers (step (launch ⟨0x00, 0x00, 0x00, 0xFD, 0x0600, 0x24⟩
      [(0x0600, [0x4C, 0x00, 0xC0])])) (fun t =>
        t.regs == ⟨0x00, 0x00, 0x00, 0xFD, 0xC000, 0x24⟩ && t.cycles == 3) = true := by
  decide

/-- V71: JMP ($02FF) (no page-wrap defect). -/
theorem test_V71_jmp :
    answers (step (launch ⟨0x00, 0x00, 0x00, 0xFD, 0x0600, 0x24⟩
      [(0x0600, [0x6C, 0xFF, 0x02]), (0x0200, [0x80]), (0x02FF, [0x00]), (0x0300, [0x90])])) (fun t =>
        t.regs == ⟨0x00, 0x00, 0x00, 0xFD, 0x9000, 0x24⟩ && t.cycles == 5) = true := by
  decide

/-- V72: JSR $0700, SP=FD. -/
theorem test_V72_jsr :
    answers (step (launch ⟨0x00, 0x00, 0x00, 0xFD, 0x0600, 0x24⟩
      [(0x0600, [0x20, 0x00, 0x07])])) (fun t =>
        t.regs == ⟨0x00, 0x00, 0x00, 0xFB, 0x0700, 0x24⟩ && t.cycles == 6 && t.peek 0x01FC == 0x02
           && t.peek 0x01FD == 0x06) = true := by
  decide

/-- V73: JSR $0700, SP=00 (stack wrap). -/
theorem test_V73_jsr :
    answers (step (launch ⟨0x00, 0x00, 0x00, 0x00, 0x0600, 0x24⟩
      [(0x0600, [0x20, 0x00, 0x07])])) (fun t =>
        t.regs == ⟨0x00, 0x00, 0x00, 0xFE, 0x0700, 0x24⟩ && t.cycles == 6 && t.peek 0x0100 == 0x06
           && t.peek 0x01FF == 0x02) = true := by
  decide

/-- V74: RTS, SP=FB. -/
theorem test_V74_rts :
    answers (step (launch ⟨0x00, 0x00, 0x00, 0xFB, 0x0600, 0x24⟩
      [(0x0600, [0x60]), (0x01FC, [0x02]), (0x01FD, [0x06])])) (fun t =>
        t.regs == ⟨0x00, 0x00, 0x00, 0xFD, 0x0603, 0x24⟩ && t.cycles == 6) = true := by
  decide

/-- V75: RTS, SP=FD, stacked FFFF. -/
theorem test_V75_rts :
    answers (step (launch ⟨0x00, 0x00, 0x00, 0xFD, 0x0600, 0x24⟩
      [(0x0600, [0x60]), (0x01FE, [0xFF]), (0x01FF, [0xFF])])) (fun t =>
        t.regs == ⟨0x00, 0x00, 0x00, 0xFF, 0x0000, 0x24⟩ && t.cycles == 6) = true := by
  decide

/-- V76: BPL +$10, N=0 (taken, same page). -/
theorem test_V76_bpl :
    answers (step (launch ⟨0x00, 0x00, 0x00, 0xFD, 0x0600, 0x24⟩
      [(0x0600, [0x10, 0x10])])) (fun t =>
        t.regs == ⟨0x00, 0x00, 0x00, 0xFD, 0x0612, 0x24⟩ && t.cycles == 3) = true := by
  decide

/-- V77: BMI +$10, N=0 (not taken). -/
theorem test_V77_bmi :
    answers (step (launch ⟨0x00, 0x00, 0x00, 0xFD, 0x0600, 0x24⟩
      [(0x0600, [0x30, 0x10])])) (fun t =>
        t.regs == ⟨0x00, 0x00, 0x00, 0xFD, 0x0602, 0x24⟩ && t.cycles == 2) = true := by
  decide

/-- V78: BCS -128, C=1 (taken, page cross). -/
theorem test_V78_bcs :
    answers (step (launch ⟨0x00, 0x00, 0x00, 0xFD, 0x0600, 0x25⟩
      [(0x0600, [0xB0, 0x80])])) (fun t =>
        t.regs == ⟨0x00, 0x00, 0x00, 0xFD, 0x0582, 0x25⟩ && t.cycles == 4) = true := by
  decide

/-- V79: BEQ -2, Z=1 (self-loop). -/
theorem test_V79_beq :
    answers (step (launch ⟨0x00, 0x00, 0x00, 0xFD, 0x0600, 0x26⟩
      [(0x0600, [0xF0, 0xFE])])) (fun t =>
        t.regs == ⟨0x00, 0x00, 0x00, 0xFD, 0x0600, 0x26⟩ && t.cycles == 3) = true := by
  decide

/-- V80: BNE +0, Z=0 (taken to next). -/
theorem test_V80_bne :
    answers (step (launch ⟨0x00, 0x00, 0x00, 0xFD, 0x0600, 0x24⟩
      [(0x0600, [0xD0, 0x00])])) (fun t =>
        t.regs == ⟨0x00, 0x00, 0x00, 0xFD, 0x0602, 0x24⟩ && t.cycles == 3) = true := by
  decide

/-- V81: BCC +$7F, C=0. -/
theorem test_V81_bcc :
    answers (step (launch ⟨0x00, 0x00, 0x00, 0xFD, 0x0600, 0x24⟩
      [(0x0600, [0x90, 0x7F])])) (fun t =>
        t.regs == ⟨0x00, 0x00, 0x00, 0xFD, 0x0681, 0x24⟩ && t.cycles == 3) = true := by
  decide

/-- V82: BVS +$10, V=1. -/
theorem test_V82_bvs :
    answers (step (launch ⟨0x00, 0x00, 0x00, 0xFD, 0x0600, 0x64⟩
      [(0x0600, [0x70, 0x10])])) (fun t =>
        t.regs == ⟨0x00, 0x00, 0x00, 0xFD, 0x0612, 0x64⟩ && t.cycles == 3) = true := by
  decide

/-- V83: BVC +$10, V=1 (not taken). -/
theorem test_V83_bvc :
    answers (step (launch ⟨0x00, 0x00, 0x00, 0xFD, 0x0600, 0x64⟩
      [(0x0600, [0x50, 0x10])])) (fun t =>
        t.regs == ⟨0x00, 0x00, 0x00, 0xFD, 0x0602, 0x64⟩ && t.cycles == 2) = true := by
  decide

/-- V84: PHA, SP=FD. -/
theorem test_V84_pha :
    answers (step (launch ⟨0x42, 0x00, 0x00, 0xFD, 0x0600, 0x24⟩
      [(0x0600, [0x48])])) (fun t =>
        t.regs == ⟨0x42, 0x00, 0x00, 0xFC, 0x0601, 0x24⟩ && t.cycles == 3
           && t.peek 0x01FD == 0x42) = true := by
  decide

/-- V85: PHA, SP=00 (wrap). -/
theorem test_V85_pha :
    answers (step (launch ⟨0x99, 0x00, 0x00, 0x00, 0x0600, 0x24⟩
      [(0x0600, [0x48])])) (fun t =>
        t.regs == ⟨0x99, 0x00, 0x00, 0xFF, 0x0601, 0x24⟩ && t.cycles == 3
           && t.peek 0x0100 == 0x99) = true := by
  decide

/-- V86: PHP, P=24. -/
theorem test_V86_php :
    answers (step (launch ⟨0x00, 0x00, 0x00, 0xFD, 0x0600, 0x24⟩
      [(0x0600, [0x08])])) (fun t =>
        t.regs == ⟨0x00, 0x00, 0x00, 0xFC, 0x0601, 0x24⟩ && t.cycles == 3
           && t.peek 0x01FD == 0x34) = true := by
  decide

/-- V87: PHP, P=E7. -/
theorem test_V87_php :
    answers (step (launch ⟨0x00, 0x00, 0x00, 0xFD, 0x0600, 0xE7⟩
      [(0x0600, [0x08])])) (fun t =>
        t.regs == ⟨0x00, 0x00, 0x00, 0xFC, 0x0601, 0xE7⟩ && t.cycles == 3
           && t.peek 0x01FD == 0xF7) = true := by
  decide

/-- V88: PLA, SP=FC, byte 00. -/
theorem test_V88_pla :
    answers (step (launch ⟨0x55, 0x00, 0x00, 0xFC, 0x0600, 0x24⟩
      [(0x0600, [0x68]), (0x01FD, [0x00])])) (fun t =>
        t.regs == ⟨0x00, 0x00, 0x00, 0xFD, 0x0601, 0x26⟩ && t.cycles == 4) = true := by
  decide

/-- V89: PLA, SP=FF (wrap), byte 80. -/
theorem test_V89_pla :
    answers (step (launch ⟨0x00, 0x00, 0x00, 0xFF, 0x0600, 0x24⟩
      [(0x0600, [0x68]), (0x0100, [0x80])])) (fun t =>
        t.regs == ⟨0x80, 0x00, 0x00, 0x00, 0x0601, 0xA4⟩ && t.cycles == 4) = true := by
  decide

/-- V90: PLP, byte FF. -/
theorem test_V90_plp :
    answers (step (launch ⟨0x00, 0x00, 0x00, 0xFC, 0x0600, 0x24⟩
      [(0x0600, [0x28]), (0x01FD, [0xFF])])) (fun t =>
        t.regs == ⟨0x00, 0x00, 0x00, 0xFD, 0x0601, 0xEF⟩ && t.cycles == 4) = true := by
  decide

/-- V91: PLP, byte 00. -/
theorem test_V91_plp :
    answers (step (launch ⟨0x00, 0x00, 0x00, 0xFC, 0x0600, 0xE7⟩
      [(0x0600, [0x28]), (0x01FD, [0x00])])) (fun t =>
        t.regs == ⟨0x00, 0x00, 0x00, 0xFD, 0x0601, 0x20⟩ && t.cycles == 4) = true := by
  decide

/-- V92: BRK, SP=FD, vector 8000. -/
theorem test_V92_brk :
    answers (step (launch ⟨0x00, 0x00, 0x00, 0xFD, 0x0600, 0x24⟩
      [(0x0600, [0x00]), (0xFFFE, [0x00]), (0xFFFF, [0x80])])) (fun t =>
        t.regs == ⟨0x00, 0x00, 0x00, 0xFA, 0x8000, 0x24⟩ && t.cycles == 7 && t.peek 0x01FB == 0x34
           && t.peek 0x01FC == 0x02 && t.peek 0x01FD == 0x06) = true := by
  decide

/-- V93: BRK, SP=01, P=E3. -/
theorem test_V93_brk :
    answers (step (launch ⟨0x00, 0x00, 0x00, 0x01, 0x0600, 0xE3⟩
      [(0x0600, [0x00]), (0xFFFE, [0x00]), (0xFFFF, [0x80])])) (fun t =>
        t.regs == ⟨0x00, 0x00, 0x00, 0xFE, 0x8000, 0xE7⟩ && t.cycles == 7 && t.peek 0x0100 == 0x02
           && t.peek 0x0101 == 0x06 && t.peek 0x01FF == 0xF3) = true := by
  decide

/-- V94: RTI, SP=FA. -/
theorem test_V94_rti :
    answers (step (launch ⟨0x00, 0x00, 0x00, 0xFA, 0x0600, 0x24⟩
      [(0x0600, [0x40]), (0x01FB, [0x34]), (0x01FC, [0x02]), (0x01FD, [0x06])])) (fun t =>
        t.regs == ⟨0x00, 0x00, 0x00, 0xFD, 0x0602, 0x24⟩ && t.cycles == 6) = true := by
  decide

/-- V95: RTI, stacked P=FF. -/
theorem test_V95_rti :
    answers (step (launch ⟨0x00, 0x00, 0x00, 0xFA, 0x0600, 0x24⟩
      [(0x0600, [0x40]), (0x01FB, [0xFF]), (0x01FC, [0x00]), (0x01FD, [0x90])])) (fun t =>
        t.regs == ⟨0x00, 0x00, 0x00, 0xFD, 0x9000, 0xEF⟩ && t.cycles == 6) = true := by
  decide

/-- V96: CLC. -/
theorem test_V96_clc :
    answers (step (launch ⟨0x00, 0x00, 0x00, 0xFD, 0x0600, 0x25⟩
      [(0x0600, [0x18])])) (fun t =>
        t.regs == ⟨0x00, 0x00, 0x00, 0xFD, 0x0601, 0x24⟩ && t.cycles == 2) = true := by
  decide

/-- V97: SEC. -/
theorem test_V97_sec :
    answers (step (launch ⟨0x00, 0x00, 0x00, 0xFD, 0x0600, 0x24⟩
      [(0x0600, [0x38])])) (fun t =>
        t.regs == ⟨0x00, 0x00, 0x00, 0xFD, 0x0601, 0x25⟩ && t.cycles == 2) = true := by
  decide

/-- V98: CLI. -/
theorem test_V98_cli :
    answers (step (launch ⟨0x00, 0x00, 0x00, 0xFD, 0x0600, 0x24⟩
      [(0x0600, [0x58])])) (fun t =>
        t.regs == ⟨0x00, 0x00, 0x00, 0xFD, 0x0601, 0x20⟩ && t.cycles == 2) = true := by
  decide

/-- V99: SEI. -/
theorem test_V99_sei :
    answers (step (launch ⟨0x00, 0x00, 0x00, 0xFD, 0x0600, 0x20⟩
      [(0x0600, [0x78])])) (fun t =>
        t.regs == ⟨0x00, 0x00, 0x00, 0xFD, 0x0601, 0x24⟩ && t.cycles == 2) = true := by
  decide

/-- V100: CLV. -/
theorem test_V100_clv :
    answers (step (launch ⟨0x00, 0x00, 0x00, 0xFD, 0x0600, 0x64⟩
      [(0x0600, [0xB8])])) (fun t =>
        t.regs == ⟨0x00, 0x00, 0x00, 0xFD, 0x0601, 0x24⟩ && t.cycles == 2) = true := by
  decide

/-- V101: CLD. -/
theorem test_V101_cld :
    answers (step (launch ⟨0x00, 0x00, 0x00, 0xFD, 0x0600, 0x2C⟩
      [(0x0600, [0xD8])])) (fun t =>
        t.regs == ⟨0x00, 0x00, 0x00, 0xFD, 0x0601, 0x24⟩ && t.cycles == 2) = true := by
  decide

/-- V102: SED. -/
theorem test_V102_sed :
    answers (step (launch ⟨0x00, 0x00, 0x00, 0xFD, 0x0600, 0x24⟩
      [(0x0600, [0xF8])])) (fun t =>
        t.regs == ⟨0x00, 0x00, 0x00, 0xFD, 0x0601, 0x2C⟩ && t.cycles == 2) = true := by
  decide

/-- V103: NOP. -/
theorem test_V103_nop :
    answers (step (launch ⟨0x00, 0x00, 0x00, 0xFD, 0x0600, 0x24⟩
      [(0x0600, [0xEA])])) (fun t =>
        t.regs == ⟨0x00, 0x00, 0x00, 0xFD, 0x0601, 0x24⟩ && t.cycles == 2) = true := by
  decide

/-- V105: Illegal 0C (1 byte here). -/
theorem test_V105_illegal :
    answers (step (launch ⟨0x00, 0x00, 0x00, 0xFD, 0x0600, 0x24⟩
      [(0x0600, [0x0C, 0x34, 0x12])])) (fun t =>
        t.regs == ⟨0x00, 0x00, 0x00, 0xFD, 0x0601, 0x24⟩ && t.cycles == 2) = true := by
  decide

/-- V106: Illegal FF. -/
theorem test_V106_illegal :
    answers (step (launch ⟨0x12, 0x00, 0x00, 0xFD, 0x0600, 0xE7⟩
      [(0x0600, [0xFF])])) (fun t =>
        t.regs == ⟨0x12, 0x00, 0x00, 0xFD, 0x0601, 0xE7⟩ && t.cycles == 2) = true := by
  decide

/-! ## Host calls, faults, hazards -/

/-- E9 and the model's reset state: the registers, slots and counter of power_on, memory canonical. -/
theorem test_reset_is_power_on :
    State.reset.regs = ⟨0x00, 0x00, 0x00, 0xFD, 0x0000, 0x24⟩ ∧ State.reset.op = none ∧
      State.reset.opnds = [] ∧ State.reset.q = [] ∧ State.reset.cycles = 0 ∧
      State.reset.bus.mem.wf = true ∧
      answers (powerOn { loadAddr := 0x0600 } { State.reset with bus := plainBus })
        (fun t => t == State.reset) = true := by
  decide

/-- V107, E9: power_on from a state with every register set, PC from the vector, low byte first. -/
theorem test_V107_power_on :
    answers (powerOn { loadAddr := 0x0600 }
      { launch ⟨0x11, 0x22, 0x33, 0x44, 0x5555, 0xE3⟩ [(0xFFFC, [0x34, 0x12])] with
        op := some 0xAD
        opnds := [0x00]
        cycles := 7 })
      (fun t => t.regs == ⟨0x00, 0x00, 0x00, 0xFD, 0x1234, 0x24⟩ && t.cycles == 0 && t.op == none
        && t.opnds == [] && t.q == []) = true := by
  decide

/-- V108: POWER_ON_SP is a parameter. -/
theorem test_V108_power_on_sp :
    answers (powerOn { powerOnSp := 0x00, loadAddr := 0x0600 }
      (launch ⟨0, 0, 0, 0x44, 0, 0⟩ [(0xFFFC, [0x00, 0x80])]))
      (fun t => t.sp == 0x00 && t.pc == 0x8000) = true := by
  decide

/-- E8: reset keeps A, X, Y and cycles, takes 3 from SP and sets I. -/
theorem test_E8_reset :
    answers (hostReset
      { launch ⟨0x11, 0x22, 0x33, 0xFD, 0x1234, 0xA0⟩ [(0xFFFC, [0x00, 0x80])] with cycles := 50 })
      (fun t => t.regs == ⟨0x11, 0x22, 0x33, 0xFA, 0x8000, 0xA4⟩ && t.cycles == 50 && t.op == none
        && t.q == []) = true := by
  decide

/-- V109: reset after tick 5 of a JSR: the byte pushed stays written. -/
theorem test_V109_reset_mid_instruction :
    answers (andThen (tickN 5 (launch ⟨0, 0, 0, 0xFD, 0x0600, 0x20⟩
      [(0x0600, [0x20, 0x00, 0x07]), (0xFFFC, [0x00, 0x80])])) hostReset)
      (fun t => t.peek 0x01FD == 0x06 && t.sp == 0xF9 && t.pc == 0x8000 && t.p == 0x24 && t.op == none
        && t.q == [] && t.cycles == 5) = true := by
  decide

/-- V111: a data read at an unmapped address. -/
theorem test_V111_bus_fault_read :
    faultOf (step (onMap [ram 0x0000 0x4FFF]
      (launch ⟨0, 0, 0, 0xFD, 0x0600, 0x24⟩ [(0x0600, [0xAD, 0x00, 0x50])]))) =
      some (.busFault 0x5000) := by
  decide

/-- V112: BRK pushes three bytes and then finds no vector. -/
theorem test_V112_bus_fault_vector :
    faultOf (step (onMap [ram 0x0000 0xFFFD] (launch ⟨0, 0, 0, 0xFD, 0x0600, 0x24⟩ [(0x0600, [0x00])]))) =
      some (.busFault 0xFFFE) ∧
    answers (tickN 6 (onMap [ram 0x0000 0xFFFD] (launch ⟨0, 0, 0, 0xFD, 0x0600, 0x24⟩ [(0x0600, [0x00])])))
      (fun t => t.peek 0x01FD == 0x06 && t.peek 0x01FC == 0x02 && t.peek 0x01FB == 0x34) = true := by
  decide

/-- V113: a pointer read faults in the decode tick, the second. -/
theorem test_V113_bus_fault_pointer :
    faultOf (tickN 2 (onMap [ram 0x0000 0x0023, ram 0x0025 0xFFFF]
      (launch ⟨0, 0x04, 0, 0xFD, 0x0600, 0x24⟩ [(0x0600, [0xA1, 0x20])]))) = some (.busFault 0x0024) := by
  decide

/-- V115: a store over its own operand byte changes memory, not the instruction. -/
theorem test_V115_store_over_operand :
    answers (step (launch ⟨0x44, 0, 0, 0xFD, 0x0600, 0x24⟩ [(0x0600, [0x8D, 0x01, 0x06])]))
      (fun t => t.peek 0x0601 == 0x44 && t.pc == 0x0603 && t.cycles == 4) = true := by
  decide

/-- T6: the settle Idle. After tick 1 of TAX the queue holds one Idle and X is written. -/
theorem test_T6_settle :
    answers (tick (launch ⟨0x05, 0, 0, 0xFD, 0x0600, 0x24⟩ [(0x0600, [0xAA])]))
      (fun t => t.q == [.idle] && t.x == 0x05) = true := by
  decide

/-- T3: the queue of BRK after its decode tick, and the return address it staged. -/
theorem test_T3_brk_queue :
    answers (tick (launch ⟨0, 0, 0, 0xFD, 0x0600, 0x24⟩ []))
      (fun t => t.q == [.idle, .pushPCH, .pushPCL, .pushP, .idle, .vector] && t.ret == 0x0602) = true := by
  decide

/-- R72: load_program writes ascending addresses and wraps at the top of the address space. -/
theorem test_load_program_wraps :
    answers (loadProgram { loadAddr := 0xFFFF } [0xA9, 0x05] (launch ⟨0, 0, 0, 0xFD, 0x0600, 0x24⟩ []))
      (fun t => t.peek 0xFFFF == 0xA9 && t.peek 0x0000 == 0x05 && t.pc == 0x0600) = true := by
  decide

/-- The canonical form: writing what an unlisted address reads as removes the entry. -/
theorem test_memory_canonical :
    Memory.set [(1, 0x11), (5, 0x55)] 5 0x00 = [(1, 0x11)] ∧
    Memory.set [(1, 0x11), (5, 0x55)] 3 0x33 = [(1, 0x11), (3, 0x33), (5, 0x55)] ∧
    Memory.wf [(1, 0x11), (1, 0x12)] = false ∧ Memory.wf [(2, 0x00)] = false ∧
    Memory.wf [(65536, 0x01)] = false := by
  decide

/-- A device whose answers no source defines, over page 0x20. -/
def openDevice (d : Nat) (log : List Access) : Bus :=
  { map := [{ first := 0x2000, last := 0x3FFF, kind := .device }]
    mem := []
    dev := { state := 0, reads := [], writes := [] }
    draws := d
    log := log }

/-- Such a read is counted, changes no plain memory, and answers whatever the free value is. -/
theorem test_device_read (d : Nat) :
    (openDevice d []).read 0x2002 =
      .next (Config.deviceByte d, openDevice (d + 1) [.read 0x2002 (Config.deviceByte d)]) := rfl

/-- A bus of parts, its boundaries made up: memory mirrored every 0x0800 addresses; a device of two registers,
mirrored, of which the first answers 0x11 once after a write of 0x01 to the second, and 0x22 from then on, and
the second answers any byte and has the first answer 0x22; and storage mirrored every 0x4000 addresses,
read-only in its first copy. -/
def partsBus : Bus :=
  { map :=
      [{ first := 0x0000, last := 0x1FFF, kind := .memory, base := 0x0000, size := 0x0800 },
        { first := 0x4000, last := 0x7FFF, kind := .device, base := 0x4000, size := 2 },
        { first := 0x8000, last := 0xBFFF, kind := .rom },
        { first := 0xC000, last := 0xFFFF, kind := .memory, base := 0x8000 }]
    mem := [(0x8001, 0x77)]
    dev :=
      { state := 0
        reads :=
          [⟨some 1, 0x4000, some 0x11, some 2⟩, ⟨some 2, 0x4000, some 0x22, none⟩,
            ⟨none, 0x4001, none, some 2⟩]
        writes := [⟨none, 0x4001, some 0x01, some 1⟩] }
    draws := 0
    log := [] }

/-- The bytes that reads at these addresses answer, in a row. -/
def readsOf : List Addr → Bus → List (Option Byte)
  | [], _ => []
  | a :: rest, b =>
    match b.read a with
    | .next r => some r.1 :: readsOf rest r.2
    | _ => none :: readsOf rest b

/-- The answers after one write. -/
def readsAfter (a : Addr) (v : Byte) (l : List Addr) (b : Bus) : List (Option Byte) :=
  match b.write a v with
  | .next b' => readsOf l b'
  | _ => []

/-- Mirroring (93_implementation_defined.md U13): a write is read at every mirror, and nowhere else. -/
theorem test_bus_mirror :
    readsAfter 0x1805 0x5A [0x0005, 0x0805, 0x1005, 0x1805, 0x0006, 0x2005] partsBus =
      [some 0x5A, some 0x5A, some 0x5A, some 0x5A, some 0x00, none] := by decide

/-- Read-only storage keeps its byte; where a region maps the same cells as memory, a write is seen by both. -/
theorem test_bus_rom :
    readsAfter 0x8001 0x5A [0x8001, 0xC001] partsBus = [some 0x77, some 0x77] ∧
      readsAfter 0xC001 0x5A [0x8001, 0xC001] partsBus = [some 0x5A, some 0x5A] := by decide

/-- Read and write functions of the Bus parameter (92_eei_decisions.md D20): the answers follow the device's
state, also through its mirrors. -/
theorem test_bus_device_functions :
    readsAfter 0x7FFF 0x01 [0x4000, 0x4002, 0x7FFE] partsBus = [some 0x11, some 0x22, some 0x22] := by decide

/-- A read whose answer the Bus parameter leaves open still takes the device to the state it names. -/
theorem test_bus_device_open_answer :
    ((readsOf [0x4001, 0x4000] partsBus).drop 1) = [some 0x22] ∧ (readsOf [0x4001] partsBus).length = 1 := by
  decide

/-- exec refuses a term that is no instruction of the core. -/
theorem test_exec_ill_formed : exec (.sta (.imm 0x05)) State.reset = .refused .illFormed := rfl

/-! ## Witnesses: the hypotheses of every obligation are met -/

/-- A run of blank memory. -/
theorem all_memory {b : Bus} (h : b.map = [ram 0 65535]) (a : Addr) : b.kindAt a = .memory := by
  have := a.isLt
  simp only [Bus.kindAt, h, kindIn, ram]
  rw [if_pos ⟨Nat.zero_le _, by omega⟩]

/-- The invariant at a boundary. -/
theorem inv_of_boundary {s : State} (hb : s.boundary) (h5 : s.p.getLsbD 5 = true)
    (h4 : s.p.getLsbD 4 = false) (hm : s.bus.mem.wf = true) : s.Inv := by
  obtain ⟨hop, hopn, hq⟩ := hb
  exact ⟨⟨fun _ => ⟨hopn, hq⟩, by simp [hop], by simp [hq, headCostsOne], by simp [hop], by simp [hop],
    by simp [hop], by simp [hq]⟩, ⟨h5, h4⟩, hm⟩

/-- A state at a boundary, before `LDA $1234`. -/
def atLda : State :=
  launch ⟨0x50, 0x04, 0x10, 0xFD, 0x0600, 0x25⟩ [(0x0600, [0xAD, 0x34, 0x12]), (0x1234, [0x80])]

/-- The same instruction after its decode tick. -/
def midLda : State :=
  { atLda with
    pc := 0x0603
    op := some 0xAD
    opnds := [0x34, 0x12]
    ins := (.lda, .abs)
    ea := 0x1234
    q := [.read, .exec] }

theorem atLda_inv : atLda.Inv := inv_of_boundary ⟨rfl, rfl, rfl⟩ rfl rfl (by decide)

theorem midLda_inv : midLda.Inv :=
  ⟨⟨fun h => (by cases h), fun b h => (by cases h; decide), rfl, fun b h _ => (by cases h; rfl),
    fun b h => (by cases h; rfl), fun b _ h => (by cases h),
    fun _ => ⟨1, 0, by omega, by omega, by decide⟩⟩, ⟨rfl, rfl⟩, by decide⟩

theorem atLda_memory (a : Addr) : atLda.bus.kindAt a = .memory := all_memory (by decide) a

/-- Memory in page 0 only. -/
def pageZero : State := onMap [ram 0x0000 0x00FF] atLda

/-- `LDA ($FF),Y` with its operand byte still to be fetched, memory in page 0 only. -/
def onPointer : State :=
  onMap [ram 0x0000 0x00FF]
    { launch ⟨0x50, 0x04, 0x10, 0xFD, 0x0011, 0x25⟩ [(0x0010, [0xB1, 0xFF])] with
      op := some 0xB1
      ins := (.lda, .izy) }

/-- No memory in the stack page; only its first location; all but its first location; its first two. -/
def noStack : State := onMap [ram 0x0000 0x00FF, ram 0x0200 0xFFFF] { atLda with sp := 0x00 }
def lowStack : State := onMap [ram 0x0000 0x0100, ram 0x0200 0xFFFF] { atLda with sp := 0x00 }
def lowStack2 : State := onMap [ram 0x0000 0x0101, ram 0x0200 0xFFFF] { atLda with sp := 0x01 }
def highStack : State := onMap [ram 0x0101 0xFFFF] { atLda with sp := 0xFE }
def highStack2 : State := onMap [ram 0x0101 0xFFFF] { atLda with sp := 0xFD }
def noVector : State := onMap [ram 0x0000 0xFFFE] atLda

theorem witness_DecodeOfEncode :
    (Instr.jmp (.ind 0xFFFF)).wf = true ∧ (Instr.illegal 0xFF).wf = true ∧
      (Instr.sta (.imm 0x05)).wf = false ∧ (Instr.illegal 0xA9).wf = false := by decide

theorem witness_EncodeOfDecode :
    decode [0xAD, 0x34, 0x12, 0xEA] = .ok (.lda (.abs 0x1234), [0xEA]) := rfl

theorem witness_LengthFromTheOpcodeAlone :
    operandCount (decodeMode 0xAD) ≤ [(0x34 : Byte), 0x12].length ∧
      [(0x34 : Byte)].length < operandCount (decodeMode 0xAD) := by decide

theorem witness_PushAndPullImages : 0 < 8 ∧ 7 < 8 := by decide

theorem witness_ReadAfterWrite :
    plainBus.mem.wf = true ∧ plainBus.kindAt 0xFFFF = .memory ∧
      ∃ b', plainBus.write 0xFFFF 0x5A = .next b' :=
  ⟨by decide, by decide, exists_next (by decide)⟩

/-- The other clauses: a mirror that stores and an address apart from it; read-only storage; a device with a
defined answer, with no row, with a row whose answer is open and whose next state is named, and a write. -/
theorem witness_ReadAfterWrite_parts :
    partsBus.kindAt 0x0005 = .memory ∧ partsBus.cellAt 0x1805 = partsBus.cellAt 0x0005 ∧
      partsBus.stored 0x1805 = true ∧ partsBus.cellAt 0x0006 ≠ partsBus.cellAt 0x0005 ∧
      partsBus.kindAt 0x8001 = .rom ∧ partsBus.kindAt 0x7FFE = .device ∧
      ({ partsBus with dev := { partsBus.dev with state := 1 } } : Bus).dev.readRow (partsBus.cellAt 0x7FFE) =
        some ⟨some 1, 0x4000, some 0x11, some 2⟩ ∧
      (partsBus.dev.readRow (partsBus.cellAt 0x7FFE)).bind (·.answer) = none ∧
      (partsBus.dev.readRow (partsBus.cellAt 0x4001)).bind (·.answer) = none ∧
      (partsBus.dev.readRow (partsBus.cellAt 0x4001)).bind (·.next) = some 2 := by decide

theorem witness_UnmappedAccessFaults :
    pageZero.bus.kindAt 0x0100 = .unmapped ∧ pageZero.bus.kindAt 0x00FF ≠ .unmapped ∧
      pageZero.q = [] ∧ pageZero.bus.kindAt pageZero.pc = .unmapped := by decide

/-- The micro-op clauses: a Read at an unmapped address, and a pointer whose high byte is unmapped. -/
theorem witness_UnmappedAccessFaults_microOps :
    (∃ f, perform .read { pageZero with q := [.exec], ea := 0x0100 } = .fault f) ∧
    (∃ u, fetchByte onPointer = .next u ∧ operandsComplete u = true ∧
      ∃ f, perform .resolve { u with q := (buildQueue u.ins.1 u.ins.2).tail } = .fault f) :=
  ⟨⟨_, fault_of (f := .busFault 0x0100) (by decide)⟩, _, rfl, by decide, _,
    fault_of (f := .busFault 0x0100) (by decide)⟩

theorem witness_WordReadIsLittleEndian :
    (∃ lo b1, pageZero.bus.read 0x00FE = .next (lo, b1) ∧ ∃ hi b2, b1.read (0x00FE + 1) = .next (hi, b2)) ∧
    (∃ f, pageZero.bus.read 0x0100 = .fault f) ∧
    (∃ r, pageZero.bus.read 0x00FF = .next r ∧ ∃ f, r.2.read (0x00FF + 1) = .fault f) :=
  ⟨⟨_, _, rfl, exists_next_pair (by decide)⟩, ⟨_, fault_of (f := .busFault 0x0100) (by decide)⟩,
    ⟨_, rfl, _, fault_of (f := .busFault 0x0100) (by decide)⟩⟩

theorem witness_AddressModes :
    (∃ v b, pageZero.bus.readWord 0x00FE = .next (v, b)) ∧
      ∃ f, pageZero.bus.readWord (zext16 0xFF) = .fault f :=
  ⟨exists_next_pair (by decide), _, fault_of (f := .busFault 0x0100) (by decide)⟩

theorem witness_StepRunsTheDecodedInstruction :
    atLda.boundary ∧ (Instr.lda (.abs 0x1234)).wf = true ∧
      encode (.lda (.abs 0x1234)) = some [0xAD, 0x34, 0x12] ∧ HoldsAtPC atLda [0xAD, 0x34, 0x12] :=
  ⟨⟨rfl, rfl, rfl⟩, by decide, rfl, by unfold HoldsAtPC; decide⟩

theorem witness_TickKeepsInvariant :
    atLda.Inv ∧ (∃ t, tick atLda = .next t) ∧ midLda.Inv ∧ ∃ t, tick midLda = .next t :=
  ⟨atLda_inv, exists_next (by decide), midLda_inv, exists_next (by decide)⟩

theorem witness_StepKeepsInvariant :
    atLda.Inv ∧ (∃ t, step atLda = .next t) ∧ midLda.Inv ∧ ∃ t, step midLda = .next t :=
  ⟨atLda_inv, exists_next (by decide), midLda_inv, exists_next (by decide)⟩

theorem witness_NoInternalFault : midLda.Inv := midLda_inv

theorem witness_TotalBusNeverStops : midLda.Inv ∧ midLda.bus.total :=
  ⟨midLda_inv, fun a h => by rw [show midLda.bus = atLda.bus from rfl, atLda_memory] at h; cases h⟩

theorem witness_QueuedTickRunsOneCostlyMicroOp :
    midLda.Inv ∧ midLda.q ≠ [] ∧ ∃ t, tick midLda = .next t :=
  ⟨midLda_inv, by decide, exists_next (by decide)⟩

theorem witness_OnlyTheListedMicroOpsTouchTheBus :
    (∃ t, perform .exec midLda = .next t) ∧ ∃ t, perform .incPC midLda = .next t :=
  ⟨exists_next (by decide), exists_next (by decide)⟩

theorem witness_MicroOpBodies :
    (∃ v b, pageZero.bus.read 0x00FF = .next (v, b)) ∧ (∃ f, pageZero.bus.read 0x0100 = .fault f) ∧
    (∃ b, pageZero.bus.write 0x00FF 0x5A = .next b) ∧ (∃ f, pageZero.bus.write 0x0100 0x5A = .fault f) ∧
    (∃ b, atLda.bus.write (0x0100 + zext16 atLda.sp) atLda.a = .next b) ∧
    (∃ f, noStack.bus.write (0x0100 + zext16 noStack.sp) noStack.a = .fault f) ∧
    (∃ v b, atLda.bus.read (0x0100 + zext16 (atLda.sp + 1)) = .next (v, b)) ∧
    (∃ f, noStack.bus.read (0x0100 + zext16 (noStack.sp + 1)) = .fault f) ∧
    (∃ w b, atLda.bus.readWord 0xFFFE = .next (w, b)) ∧ ∃ f, pageZero.bus.readWord 0xFFFE = .fault f :=
  ⟨exists_next_pair (by decide), ⟨_, fault_of (f := .busFault 0x0100) (by decide)⟩, exists_next (by decide),
    ⟨_, fault_of (f := .busFault 0x0100) (by decide)⟩, exists_next (by decide),
    ⟨_, fault_of (f := .busFault 0x0100) (by decide)⟩, exists_next_pair (by decide),
    ⟨_, fault_of (f := .busFault 0x0101) (by decide)⟩, exists_next_pair (by decide),
    _, fault_of (f := .busFault 0xFFFE) (by decide)⟩

theorem witness_ResolveStagesTheLatches :
    (∃ t, perform .resolve { midLda with ins := (.sta, .abs) } = .next t) ∧
      (∃ t, perform .resolve { midLda with ins := (.jsr, .abs) } = .next t) ∧
      ∃ t, perform .resolve { atLda with ins := (.brk, .imp) } = .next t :=
  ⟨exists_next (by decide), exists_next (by decide), exists_next (by decide)⟩

theorem witness_EveryTickIsCounted : ∃ t, tick midLda = .next t := exists_next (by decide)

theorem witness_SinkIsCalledOncePerInstruction :
    atLda.Inv ∧ (∃ t, tick atLda = .next t) ∧ midLda.Inv ∧ ∃ t, tick midLda = .next t :=
  witness_TickKeepsInvariant

theorem witness_StepIsTicksToCompletion :
    atLda.Inv ∧ (∃ t, step atLda = .next t) ∧ pageZero.Inv ∧ ∃ f, step pageZero = .fault f :=
  ⟨atLda_inv, exists_next (by decide), inv_of_boundary ⟨rfl, rfl, rfl⟩ rfl rfl (by decide), _,
    fault_of (f := .busFault 0x0600) (by decide)⟩

theorem witness_TickCountsAreTheTable :
    (∃ t, exec (.lda (.abs 0x1234)) atLda = .next t) ∧ (Instr.lda (.abs 0x1234)).mode ≠ .rel ∧
      (∃ t, exec (.bcs 0x80) atLda = .next t) ∧ (Instr.bcs 0x80).mode = .rel :=
  ⟨exists_next (by decide), by decide, exists_next (by decide), rfl⟩

theorem witness_WorkedExampleLda1234 :
    atLda.boundary ∧ atLda.pc = 0x0600 ∧ HoldsAtPC atLda [0xAD, 0x34, 0x12] ∧
      atLda.bus.stored 0x1234 = true ∧ atLda.peek 0x1234 = 0x80 :=
  ⟨⟨rfl, rfl, rfl⟩, rfl, by unfold HoldsAtPC; decide, by decide, by decide⟩

theorem witness_LatchesCarryNothingAcrossInstructions : atLda.boundary := ⟨rfl, rfl, rfl⟩

/-- The hypotheses of `ReadRule`: an operand read at the last mapped address, and one that faults. -/
theorem witness_ReadRule :
    (∃ v b, operandValue (.abs 0x00FF) pageZero = .next (v, b)) ∧
      ∃ f, operandValue (.abs 0x0100) pageZero = .fault f :=
  ⟨exists_next_pair (by decide), _, fault_of (f := .busFault 0x0100) (by decide)⟩

/-- Each instruction of that shape has the form of `witness_ReadRule`. -/
theorem witness_LoadsFillTheirRegister (w : Addr) :
    (Instr.lda (.abs w)).wf ∧ (Instr.ldx (.abs w)).wf ∧ (Instr.ldy (.abs w)).wf := ⟨rfl, rfl, rfl⟩
theorem witness_AdcAddsWithCarry (w : Addr) : (Instr.adc (.abs w)).wf := rfl
theorem witness_SbcSubtractsWithBorrow (w : Addr) : (Instr.sbc (.abs w)).wf := rfl
theorem witness_LogicCombinesBitwise (w : Addr) :
    (Instr.and (.abs w)).wf ∧ (Instr.ora (.abs w)).wf ∧ (Instr.eor (.abs w)).wf := ⟨rfl, rfl, rfl⟩
theorem witness_ComparesSetCarryZeroNegative (w : Addr) :
    (Instr.cmp (.abs w)).wf ∧ (Instr.cpx (.abs w)).wf ∧ (Instr.cpy (.abs w)).wf := ⟨rfl, rfl, rfl⟩
theorem witness_BitTestsTheOperand (w : Addr) : (Instr.bit (.abs w)).wf := rfl

/-- The hypotheses of `StoreRule`: a store at the last mapped address; a pointer whose high byte is
unmapped; a store at an unmapped address. -/
theorem witness_StoresWriteTheirRegister :
    (Instr.sta (.abs 0x00FF)).wf ∧ (Instr.stx (.abs 0x00FF)).wf ∧ (Instr.sty (.abs 0x00FF)).wf ∧
    operandAddr (.abs 0x00FF) pageZero = .next (0x00FF, pageZero.bus) ∧
    (∃ b', pageZero.bus.write 0x00FF pageZero.a = .next b') ∧
    (Instr.sta (.izx 0xFB)).wf ∧ (∃ f, operandAddr (.izx 0xFB) pageZero = .fault f) ∧
    operandAddr (.abs 0x0100) pageZero = .next (0x0100, pageZero.bus) ∧
    ∃ f, pageZero.bus.write 0x0100 pageZero.a = .fault f :=
  ⟨rfl, rfl, rfl, rfl, exists_next (by decide), rfl,
    ⟨_, fault_of (f := .busFault 0x0100) (by decide)⟩, rfl,
    _, fault_of (f := .busFault 0x0100) (by decide)⟩

/-- The hypotheses of `RmwRule`: a location at the last mapped address, and an unmapped one. -/
theorem witness_RmwRule (v : Byte) :
    operandAddr (.abs 0x00FF) pageZero = .next (0x00FF, pageZero.bus) ∧
    (∃ m b1, pageZero.bus.read 0x00FF = .next (m, b1) ∧ ∃ b2, b1.write 0x00FF v = .next b2) ∧
    operandAddr (.abs 0x0100) pageZero = .next (0x0100, pageZero.bus) ∧
    ∃ f, pageZero.bus.read 0x0100 = .fault f :=
  ⟨rfl, ⟨_, _, rfl, _, rfl⟩, rfl, _, fault_of (f := .busFault 0x0100) (by decide)⟩

theorem witness_IncAndDecModifyMemory (w : Addr) :
    (Instr.inc (.abs w)).wf ∧ (Instr.dec (.abs w)).wf ∧ Operand.abs w ≠ .acc ∧
      ({ midLda with ins := ((Instr.inc (.abs w)).type, .abs) } : State).ins.1 = .inc :=
  ⟨rfl, rfl, nofun, rfl⟩
theorem witness_ShiftsAndRotates (w : Addr) :
    (Instr.asl (.abs w)).wf ∧ (Instr.lsr (.abs w)).wf ∧ (Instr.rol (.abs w)).wf ∧ (Instr.ror (.abs w)).wf ∧
      Operand.abs w ≠ .acc :=
  ⟨rfl, rfl, rfl, rfl, nofun⟩

theorem witness_JmpSetsPC :
    (∃ v b, pageZero.bus.readWord 0x00FE = .next (v, b)) ∧ ∃ f, pageZero.bus.readWord 0x00FF = .fault f :=
  ⟨exists_next_pair (by decide), _, fault_of (f := .busFault 0x0100) (by decide)⟩

/-- Two pushes that succeed, at the bottom of the stack page and its top; the first faults; the second
faults. -/
theorem witness_JsrPushesAndJumps :
    (∃ b1, atLda.bus.write (0x0100 + zext16 0x00) 0x05 = .next b1 ∧
      ∃ b2, b1.write (0x0100 + zext16 (0x00 - 1)) 0xFF = .next b2) ∧
    (∃ f, noStack.bus.write (0x0100 + zext16 noStack.sp) (hi8 (noStack.pc - 1)) = .fault f) ∧
    ∃ b1, lowStack.bus.write (0x0100 + zext16 lowStack.sp) (hi8 (lowStack.pc - 1)) = .next b1 ∧
      ∃ f, b1.write (0x0100 + zext16 (lowStack.sp - 1)) (lo8 (lowStack.pc - 1)) = .fault f :=
  ⟨⟨_, rfl, exists_next (by decide)⟩, ⟨_, fault_of (f := .busFault 0x0100) (by decide)⟩,
    _, rfl, _, fault_of (f := .busFault 0x01FF) (by decide)⟩

/-- Two pulls that succeed; the first faults; the second, after SP wrapped, faults. -/
theorem witness_RtsPullsPC :
    (∃ lo b1, atLda.bus.read (0x0100 + zext16 (atLda.sp + 1)) = .next (lo, b1) ∧
      ∃ hi b2, b1.read (0x0100 + zext16 (atLda.sp + 2)) = .next (hi, b2)) ∧
    (∃ f, noStack.bus.read (0x0100 + zext16 (noStack.sp + 1)) = .fault f) ∧
    ∃ r, highStack.bus.read (0x0100 + zext16 (highStack.sp + 1)) = .next r ∧
      ∃ f, r.2.read (0x0100 + zext16 (highStack.sp + 2)) = .fault f :=
  ⟨⟨_, _, rfl, exists_next_pair (by decide)⟩, ⟨_, fault_of (f := .busFault 0x0101) (by decide)⟩,
    _, rfl, _, fault_of (f := .busFault 0x0100) (by decide)⟩

theorem witness_JsrThenRtsReturns :
    atLda.bus.mem.wf = true ∧ (∀ a : Addr, atLda.bus.kindAt a = .memory) ∧
      atLda.bus.cellAt (0x0100 + zext16 atLda.sp) ≠ atLda.bus.cellAt (0x0100 + zext16 (atLda.sp - 1)) ∧
      ∃ t, exec (.jsr 0x0700) atLda = .next t ∧ ∃ v, exec .rts t = .next v :=
  ⟨by decide, atLda_memory, by decide, _, rfl, exists_next (by decide)⟩

/-- Each branch with its flag both ways; a target that stays on page 06 by one, and one that leaves it. -/
theorem witness_BranchesTestOneFlag :
    (∀ f : Flag, getFlag f 0x00 = false ∧ getFlag f 0xFF = true) ∧
      hi8 (0x0602 + sext16 0xFE) = hi8 0x0602 ∧ hi8 (0x0602 + sext16 0xFD) ≠ hi8 0x0602 ∧
      ({ midLda with ins := ((Instr.bcs 0x80).type, .rel) } : State).ins.1 = .bcs :=
  ⟨fun f => by cases f <;> decide, by decide, by decide, rfl⟩

theorem witness_PushesWriteTheStack (v : Byte) :
    (∃ b, atLda.bus.write (0x0100 + zext16 atLda.sp) v = .next b) ∧
      ∃ f, noStack.bus.write (0x0100 + zext16 noStack.sp) v = .fault f :=
  ⟨⟨_, rfl⟩, _, rfl⟩

theorem witness_PullsReadTheStack :
    (∃ v b, atLda.bus.read (0x0100 + zext16 (atLda.sp + 1)) = .next (v, b)) ∧
      ∃ f, noStack.bus.read (0x0100 + zext16 (noStack.sp + 1)) = .fault f :=
  ⟨exists_next_pair (by decide), _, fault_of (f := .busFault 0x0101) (by decide)⟩

theorem witness_PhpThenPlpRestoresStatus :
    atLda.bus.mem.wf = true ∧ (∀ a : Addr, atLda.bus.kindAt a = .memory) ∧
      ∃ t, exec .php atLda = .next t ∧ ∃ v, exec .plp t = .next v :=
  ⟨by decide, atLda_memory, _, rfl, exists_next (by decide)⟩

/-- All four accesses succeed; and each of the four in turn is the first to fault. -/
theorem witness_BrkTakesTheTrap :
    (∃ b1, atLda.bus.write (0x0100 + zext16 atLda.sp) (hi8 (atLda.pc + 1)) = .next b1 ∧
      ∃ b2, b1.write (0x0100 + zext16 (atLda.sp - 1)) (lo8 (atLda.pc + 1)) = .next b2 ∧
      ∃ b3, b2.write (0x0100 + zext16 (atLda.sp - 2)) (atLda.p ||| 0x30) = .next b3 ∧
      ∃ pc b4, b3.readWord 0xFFFE = .next (pc, b4)) ∧
    (∃ f, noStack.bus.write (0x0100 + zext16 noStack.sp) (hi8 (noStack.pc + 1)) = .fault f) ∧
    (∃ b1, lowStack.bus.write (0x0100 + zext16 lowStack.sp) (hi8 (lowStack.pc + 1)) = .next b1 ∧
      ∃ f, b1.write (0x0100 + zext16 (lowStack.sp - 1)) (lo8 (lowStack.pc + 1)) = .fault f) ∧
    (∃ b1, lowStack2.bus.write (0x0100 + zext16 lowStack2.sp) (hi8 (lowStack2.pc + 1)) = .next b1 ∧
      ∃ b2, b1.write (0x0100 + zext16 (lowStack2.sp - 1)) (lo8 (lowStack2.pc + 1)) = .next b2 ∧
      ∃ f, b2.write (0x0100 + zext16 (lowStack2.sp - 2)) (lowStack2.p ||| 0x30) = .fault f) ∧
    (∃ b1, noVector.bus.write (0x0100 + zext16 noVector.sp) (hi8 (noVector.pc + 1)) = .next b1 ∧
      ∃ b2, b1.write (0x0100 + zext16 (noVector.sp - 1)) (lo8 (noVector.pc + 1)) = .next b2 ∧
      ∃ b3, b2.write (0x0100 + zext16 (noVector.sp - 2)) (noVector.p ||| 0x30) = .next b3 ∧
      ∃ f, b3.readWord 0xFFFE = .fault f) :=
  ⟨⟨_, rfl, _, rfl, _, rfl, exists_next_pair (by decide)⟩,
    ⟨_, fault_of (f := .busFault 0x0100) (by decide)⟩,
    ⟨_, rfl, _, fault_of (f := .busFault 0x01FF) (by decide)⟩,
    ⟨_, rfl, _, rfl, _, fault_of (f := .busFault 0x01FF) (by decide)⟩,
    ⟨_, rfl, _, rfl, _, rfl, _, fault_of (f := .busFault 0xFFFF) (by decide)⟩⟩

/-- All three pulls succeed; and each of the three in turn is the first to fault. -/
theorem witness_RtiReturnsFromTheTrap :
    (∃ v b1, atLda.bus.read (0x0100 + zext16 (atLda.sp + 1)) = .next (v, b1) ∧
      ∃ lo b2, b1.read (0x0100 + zext16 (atLda.sp + 2)) = .next (lo, b2) ∧
      ∃ hi b3, b2.read (0x0100 + zext16 (atLda.sp + 3)) = .next (hi, b3)) ∧
    (∃ f, noStack.bus.read (0x0100 + zext16 (noStack.sp + 1)) = .fault f) ∧
    (∃ r, highStack.bus.read (0x0100 + zext16 (highStack.sp + 1)) = .next r ∧
      ∃ f, r.2.read (0x0100 + zext16 (highStack.sp + 2)) = .fault f) ∧
    (∃ r, highStack2.bus.read (0x0100 + zext16 (highStack2.sp + 1)) = .next r ∧
      ∃ r', r.2.read (0x0100 + zext16 (highStack2.sp + 2)) = .next r' ∧
      ∃ f, r'.2.read (0x0100 + zext16 (highStack2.sp + 3)) = .fault f) :=
  ⟨⟨_, _, rfl, _, _, rfl, exists_next_pair (by decide)⟩,
    ⟨_, fault_of (f := .busFault 0x0101) (by decide)⟩,
    ⟨_, rfl, _, fault_of (f := .busFault 0x0100) (by decide)⟩,
    ⟨_, rfl, _, rfl, _, fault_of (f := .busFault 0x0100) (by decide)⟩⟩

theorem witness_TrapEntryAndReturnAreOneOperation :
    (∃ u, takeTrap { atLda with ret := atLda.pc + 1 } = .next u) ∧
    (∃ f, takeTrap { noStack with ret := noStack.pc + 1 } = .fault f) ∧
    (∃ u, returnFromTrap atLda = .next u) ∧ ∃ f, returnFromTrap noStack = .fault f :=
  ⟨exists_next (by decide), ⟨_, fault_of (f := .busFault 0x0100) (by decide)⟩, exists_next (by decide),
    _, fault_of (f := .busFault 0x0101) (by decide)⟩

theorem witness_BrkThenRtiReturns :
    atLda.bus.mem.wf = true ∧ (∀ a : Addr, atLda.bus.kindAt a = .memory) ∧
      atLda.bus.cellAt (0x0100 + zext16 atLda.sp) ≠ atLda.bus.cellAt (0x0100 + zext16 (atLda.sp - 1)) ∧
      atLda.bus.cellAt (0x0100 + zext16 atLda.sp) ≠ atLda.bus.cellAt (0x0100 + zext16 (atLda.sp - 2)) ∧
      atLda.bus.cellAt (0x0100 + zext16 (atLda.sp - 1)) ≠ atLda.bus.cellAt (0x0100 + zext16 (atLda.sp - 2)) ∧
      ∃ t, exec .brk atLda = .next t ∧ ∃ v, exec .rti t = .next v :=
  ⟨by decide, atLda_memory, by decide, by decide, by decide, _, rfl, exists_next (by decide)⟩

theorem witness_NopAndIllegalDoNothing :
    isIllegalByte 0x02 = true ∧ isIllegalByte 0x89 = true ∧ isIllegalByte 0xFF = true := by decide

theorem witness_NonStoringFormsLeaveMemory :
    storesNothing (.jmp (.ind 0x0300)) = true ∧ (∃ t, exec (.jmp (.ind 0x0300)) atLda = .next t) ∧
      storesNothing (.asl .acc) = true ∧ ∃ t, exec (.asl .acc) atLda = .next t :=
  ⟨rfl, exists_next (by decide), rfl, exists_next (by decide)⟩

theorem witness_StoringFormsWriteOneByte :
    storeOperand (.inc (.abx 0xFFFF)) = some (.abx 0xFFFF) ∧
      (∃ t, exec (.inc (.abx 0xFFFF)) atLda = .next t) ∧
      operandAddr (.abx 0xFFFF) atLda = .next (0x0003, atLda.bus) ∧
      atLda.bus.cellAt 0x0004 ≠ atLda.bus.cellAt 0x0003 :=
  ⟨rfl, exists_next (by decide), rfl, by decide⟩

theorem witness_PushingFormsWriteOnlyTheStack :
    (∃ t, exec .pha atLda = .next t) ∧ (∃ t, exec .php atLda = .next t) ∧
      (∃ t, exec (.jsr 0x0700) { atLda with sp := 0x00 } = .next t) ∧
      (∃ t, exec .brk { atLda with sp := 0x01 } = .next t) ∧
      ∀ sp : Byte, atLda.bus.cellAt 0x0200 ≠ atLda.bus.cellAt (stackAddr sp) :=
  ⟨exists_next (by decide), exists_next (by decide), exists_next (by decide), exists_next (by decide),
    by decide⟩

theorem witness_OnlyTheTableWritesFlags :
    (∃ t, exec (.sbc (.imm 0x01)) atLda = .next t) ∧ Flag.d ∉ flagsWritten .sbc :=
  ⟨exists_next (by decide), by decide⟩

theorem witness_OnlyTheListedInstructionsWriteRegisters :
    (∃ t, exec (.cmp (.imm 0x01)) atLda = .next t) ∧ writesA (.cmp (.imm 0x01)) = false ∧
      writesX (.cmp (.imm 0x01)) = false ∧ writesY (.cmp (.imm 0x01)) = false ∧
      writesSP (.cmp (.imm 0x01)) = false ∧ writesPC (.cmp (.imm 0x01)) = false :=
  ⟨exists_next (by decide), rfl, rfl, rfl, rfl, rfl⟩

theorem witness_DecimalAndInterruptFlagsHaveNoEffect :
    (Instr.adc (.imm 0x09)).wf = true ∧ Instr.adc (.imm 0x09) ≠ .php ∧ Instr.adc (.imm 0x09) ≠ .brk := by
  decide

/-- The hypotheses that a form, a list of its writes and the next state must meet, as one test: the write at
this place in the list is to plain memory, no later one is to its cell, and a fetch from it is asked for. -/
def seesWrite (i : Instr) (s : State) (n : Nat) : Bool :=
  match exec i s, (writesOf i s).drop n with
  | .next t, (a, _) :: after =>
    s.bus.mem.wf && s.bus.kindAt a == .memory && after.all (fun w => s.bus.cellAt w.1 != s.bus.cellAt a)
      && t.bus.stored a && t.bus.cellAt a == s.bus.cellAt a
  | _, _ => false

/-- A store over the next opcode, a read-modify-write there, each push of each pushing form, with SP wrapping
in the last. -/
theorem witness_StoreIsSeenByTheNextFetch :
    seesWrite (.sta (.abs 0x0600)) atLda 0 ∧ writesOf (.sta (.abs 0x0600)) atLda = [(atLda.pc, 0x50)] ∧
      seesWrite (.stx (.zp 0x10)) atLda 0 ∧ seesWrite (.sty (.zp 0x10)) atLda 0 ∧
      seesWrite (.inc (.abs 0x0600)) atLda 0 ∧ writesOf (.inc (.abs 0x0600)) atLda = [(atLda.pc, 0xAE)] ∧
      seesWrite (.ror (.abx 0xFFFF)) atLda 0 ∧ seesWrite .pha atLda 0 ∧ seesWrite .php atLda 0 ∧
      seesWrite (.jsr 0x0700) atLda 0 ∧ seesWrite (.jsr 0x0700) atLda 1 ∧
      seesWrite .brk { atLda with sp := 0x01 } 0 ∧ seesWrite .brk { atLda with sp := 0x01 } 1 ∧
      seesWrite .brk { atLda with sp := 0x01 } 2 := by
  decide

theorem witness_PowerOnSetsEverything :
    (∃ pc b, atLda.bus.readWord 0xFFFC = .next (pc, b)) ∧ ∃ f, pageZero.bus.readWord 0xFFFC = .fault f :=
  ⟨exists_next_pair (by decide), _, fault_of (f := .busFault 0xFFFC) (by decide)⟩

theorem witness_ResetKeepsRegisters :
    (∃ pc b, midLda.bus.readWord 0xFFFC = .next (pc, b)) ∧ ∃ f, pageZero.bus.readWord 0xFFFC = .fault f :=
  ⟨exists_next_pair (by decide), _, fault_of (f := .busFault 0xFFFC) (by decide)⟩

theorem witness_LoadProgramWritesTheImage :
    let at_ (k : Nat) : Addr := 0xFFFF + BitVec.ofNat 16 k
    atLda.bus.mem.wf = true ∧ (∀ k < [(0xA9 : Byte), 0x05].length, atLda.bus.kindAt (at_ k) = .memory) ∧
      (∀ j < [(0xA9 : Byte), 0x05].length, ∀ k < [(0xA9 : Byte), 0x05].length, j ≠ k →
        atLda.bus.cellAt (at_ j) ≠ atLda.bus.cellAt (at_ k)) ∧
      ∀ k < [(0xA9 : Byte), 0x05].length, atLda.bus.cellAt 0x0001 ≠ atLda.bus.cellAt (at_ k) := by
  decide

theorem witness_ResetStateIsPowerOn :
    ∃ s : State, s.bus = { State.reset.bus with log := [] } ∧ s.sink = [] ∧ s.ins = (.illegal, .none) ∧
      s.ea = 0 ∧ s.m = 0 ∧ s.sv = 0 ∧ s.ret = 0 :=
  ⟨{ State.reset with bus := plainBus }, rfl, rfl, rfl, rfl, rfl, rfl, rfl⟩

end Sys2Proof.Tests
end

/-! PROOFS. What a pushing form writes (00_scope.md R15, 20_memory.md R64): the addresses that a run of bus
accesses can change, as a relation that composes; the meanings of PHA, PHP, JSR and BRK as their pushes. -/

namespace Sys2Proof.Machine

/-! ## What a run of bus accesses can change -/

/-- From `b` to `b'` the map is kept, and memory changes only in the cells that the addresses `l` name. -/
structure Bus.ChangedOnlyAt (l : List Addr) (b b' : Bus) : Prop where
  map : b'.map = b.map
  mem : ∀ c, (∀ x ∈ l, c ≠ b.cellAt x) → b'.mem.get c = b.mem.get c

theorem Bus.ChangedOnlyAt.trans {l l' : List Addr} {b b' b'' : Bus} (h : b.ChangedOnlyAt l b')
    (h' : b'.ChangedOnlyAt l' b'') : b.ChangedOnlyAt (l ++ l') b'' where
  map := h'.map.trans h.map
  mem c hc := by
    have hl' : ∀ x ∈ l', c ≠ b'.cellAt x := fun x hx =>
      Bus.cellAt_congr h.map x ▸ hc x (List.mem_append_right l hx)
    exact (h'.mem c hl').trans (h.mem c fun x hx => hc x (List.mem_append_left l' hx))

theorem Bus.write_changedOnlyAt {b b' : Bus} {a : Addr} {v : Byte} (h : b.write a v = .next b') :
    b.ChangedOnlyAt [a] b' := by
  obtain ⟨hmap, -, hmem⟩ := Bus.write_frame h
  exact ⟨hmap, fun c hc => hmem c (hc a (List.mem_singleton_self a))⟩

theorem Bus.readWord_changedOnlyAt {b : Bus} {a : Addr} {r : Addr × Bus} (h : b.readWord a = .next r) :
    b.ChangedOnlyAt [] r.2 := by
  obtain ⟨hmap, hmem⟩ := Bus.readWord_frame h
  exact ⟨hmap, fun c _ => by rw [hmem]⟩

/-- The stored byte of an address that shares no cell with the changed ones is as before. -/
theorem Bus.ChangedOnlyAt.peek_eq {l : List Addr} {s t : State} {a : Addr}
    (h : s.bus.ChangedOnlyAt l t.bus) (ha : ∀ x ∈ l, s.bus.cellAt a ≠ s.bus.cellAt x) :
    t.peek a = s.peek a := by
  simp only [State.peek, Bus.cellAt_congr h.map]
  exact h.mem _ ha

/-! ## Pushes and trap entry -/

/-- A push takes SP down by one and changes only the cell of the byte it pushes (00_scope.md R15). -/
theorem push_frame {v : Byte} {s t : State} (h : push v s = .next t) :
    t.sp = s.sp - 1 ∧ s.bus.ChangedOnlyAt [stackAddr s.sp] t.bus := by
  simp only [push, andThen_eq_next] at h
  obtain ⟨b, hb, ht⟩ := h
  cases ht
  exact ⟨rfl, Bus.write_changedOnlyAt hb⟩

theorem doVector_changedOnlyAt {s t : State} (h : doVector s = .next t) :
    s.bus.ChangedOnlyAt [] t.bus := by
  simp only [doVector, andThen_eq_next] at h
  obtain ⟨r, hr, ht⟩ := h
  cases ht
  exact Bus.readWord_changedOnlyAt hr

/-- Two pushes in a row, the second of a byte that may depend on the state the first leaves. -/
theorem push_push_frame {v w : Byte} {s t u : State} (ht : push v s = .next t)
    (hu : push w t = .next u) :
    u.sp = s.sp - 2 ∧ s.bus.ChangedOnlyAt [stackAddr s.sp, stackAddr (s.sp - 1)] u.bus := by
  obtain ⟨hsp, hbus⟩ := push_frame ht
  obtain ⟨hsp', hbus'⟩ := push_frame hu
  rw [hsp] at hsp' hbus'
  exact ⟨hsp'.trans (by bv_omega), hbus.trans hbus'⟩

theorem takeTrap_changedOnlyAt {s t : State} (h : takeTrap s = .next t) :
    s.bus.ChangedOnlyAt [stackAddr s.sp, stackAddr (s.sp - 1), stackAddr (s.sp - 2)] t.bus := by
  simp only [takeTrap, andThen_eq_next] at h
  obtain ⟨s1, h1, s2, h2, s3, h3, h4⟩ := h
  obtain ⟨hsp, hpc⟩ := push_push_frame h1 h2
  obtain ⟨-, hp⟩ := push_frame h3
  rw [hsp] at hp
  exact (hpc.trans hp).trans (doVector_changedOnlyAt h4)

/-! ## The meanings of the pushing forms -/

/-- An instruction whose Resolve is an Idle away from the rest of its queue, from the state Resolve leaves. -/
theorem exec_of_resolve {i : Instr} {b : Byte} {q : List MicroOp} {s u : State} (hop : i.opcode? = some b)
    (hb : isBranch i.type = false) (hq : buildQueue i.type i.mode = .resolve :: .idle :: q)
    (hr : resolve (loaded i b s) = .next u) :
    exec i s = andThen (performAll q u) fun t => .next (completed (2 + totalCost q) t) := by
  have hcost : 1 + totalCost (.resolve :: .idle :: q) = 2 + totalCost q := by
    simp only [totalCost, cost]; omega
  simp only [exec_eq_performAll hop hb hq, hcost, performAll, perform, hr, andThen_next]

theorem exec_pha (s : State) :
    exec .pha s = andThen (push s.a (loaded .pha 0x48 s)) fun t => .next (completed 3 t) := by
  rw [exec_of_resolve (q := [.pushA]) rfl rfl rfl rfl]
  simp only [performAll, perform, andThen_assoc, andThen_next]
  rfl

theorem exec_php (s : State) :
    exec .php s = andThen (push (pushImage s.p) (loaded .php 0x08 s)) fun t => .next (completed 3 t) := by
  rw [exec_of_resolve (q := [.pushP]) rfl rfl rfl rfl]
  simp only [performAll, perform, andThen_assoc, andThen_next]
  rfl

/-- JSR after its Resolve, which sets `ea` to the target and stages `ret` (45_control.md R292). -/
theorem exec_jsr (w : Addr) (s : State) :
    exec (.jsr w) s =
      andThen (doPushPCH { loaded (.jsr w) 0x20 s with ea := w, ret := s.pc - 1 }) fun t =>
        andThen (doPushPCL t) fun u => .next (completed 4 (doJump u)) := by
  have hr : resolve (loaded (.jsr w) 0x20 s) =
      .next { loaded (.jsr w) 0x20 s with ea := w, ret := s.pc - 1 } := by
    simp [resolve, resolveMode, effAddr, Instr.type, Instr.mode, Instr.operandBytes, cat_hi8_lo8, stage,
      loaded]
  rw [exec_of_resolve (q := [.pushPCH, .pushPCL, .jump]) rfl rfl rfl hr]
  simp only [performAll, perform, andThen_assoc, andThen_next]
  rfl

/-- BRK after its Resolve, which stages `ret`, is trap entry (46_stack_flags_system.md R325). -/
theorem exec_brk (s : State) :
    exec .brk s =
      andThen (takeTrap { loaded .brk 0x00 s with ret := s.pc + 1 }) fun t => .next (completed 7 t) := by
  rw [exec_of_resolve (q := [.pushPCH, .pushPCL, .pushP, .idle, .vector]) rfl rfl rfl rfl]
  simp only [performAll, perform, takeTrap, andThen_assoc, andThen_next]
  rfl

/-! ## What the pushing forms change -/

theorem exec_pha_or_php_changedOnlyAt {s t : State} (h : exec .pha s = .next t ∨ exec .php s = .next t) :
    s.bus.ChangedOnlyAt [stackAddr s.sp] t.bus := by
  simp only [exec_pha, exec_php, andThen_eq_next] at h
  rcases h with ⟨u, hu, ht⟩ | ⟨u, hu, ht⟩ <;> cases ht <;> exact (push_frame hu).2

theorem exec_jsr_changedOnlyAt {w : Addr} {s t : State} (h : exec (.jsr w) s = .next t) :
    s.bus.ChangedOnlyAt [stackAddr s.sp, stackAddr (s.sp - 1)] t.bus := by
  simp only [exec_jsr, andThen_eq_next] at h
  obtain ⟨u, hu, v, hv, ht⟩ := h
  cases ht
  exact (push_push_frame hu hv).2

theorem exec_brk_changedOnlyAt {s t : State} (h : exec .brk s = .next t) :
    s.bus.ChangedOnlyAt [stackAddr s.sp, stackAddr (s.sp - 1), stackAddr (s.sp - 2)] t.bus := by
  simp only [exec_brk, andThen_eq_next] at h
  obtain ⟨u, hu, ht⟩ := h
  cases ht
  have hbus := takeTrap_changedOnlyAt hu
  exact hbus

/-- Settles O52: each pushing form changes memory only in the cells of the addresses it pushes to. -/
theorem pushingFormsWriteOnlyTheStack : Obligations.PushingFormsWriteOnlyTheStack := by
  unfold Obligations.PushingFormsWriteOnlyTheStack
  refine fun s t w a => ⟨fun h h0 => ?_, fun h h0 h1 => ?_, fun h h0 h1 h2 => ?_⟩
  · exact (exec_pha_or_php_changedOnlyAt h).peek_eq (by simpa using h0)
  · exact (exec_jsr_changedOnlyAt h).peek_eq (by simpa using ⟨h0, h1⟩)
  · exact (exec_brk_changedOnlyAt h).peek_eq (by simpa using ⟨h0, h1, h2⟩)

end Sys2Proof.Machine

/-! PROOFS. The invariant of 10_state.md R48: a state in the course of an execute step (`State.Executing`),
which every micro-op keeps; a state with a byte just fetched (`State.Fetched`); tick, finish and step from
these. -/

namespace Sys2Proof.Machine

/-! ## What is left of a queue -/

/-- `q` is what is left of the queue of an instruction type and mode, with at most two Idles appended; to a
branch's queue, which is Resolve and Exec, only after its Exec (41_scheduler.md R174). -/
def IsRestOf (x : InstrType × Mode) (q : List MicroOp) : Prop :=
  ∃ n j, j ≤ 2 ∧ (isBranch x.1 = true → j = 0 ∨ 2 ≤ n) ∧
    q = (buildQueue x.1 x.2 ++ List.replicate j MicroOp.idle).drop n

theorem isRestOf_buildQueue (x : InstrType × Mode) : IsRestOf x (buildQueue x.1 x.2) :=
  ⟨0, 0, by omega, fun _ => .inl rfl, by simp⟩

theorem IsRestOf.tail {x : InstrType × Mode} {k : MicroOp} {rest : List MicroOp}
    (h : IsRestOf x (k :: rest)) : IsRestOf x rest := by
  obtain ⟨n, j, hj, hn, hq⟩ := h
  refine ⟨n + 1, j, hj, fun hb => (hn hb).imp_right (by omega), ?_⟩
  rw [← List.tail_drop, ← hq, List.tail_cons]

theorem buildQueue_head (b : Byte) :
    (buildQueue (decodePair b).1 (decodePair b).2).head? = some .resolve := by
  unfold buildQueue staticOps
  split <;> rfl

/-- The rests of a branch's queue: all of it, its Exec, or the Idles that Exec appended. -/
theorem isRestOf_branch {b : Byte} {q : List MicroOp} (hb : isBranch (decodePair b).1 = true) :
    IsRestOf (decodePair b) q ↔
      q = [.resolve, .exec] ∨ q = [.exec] ∨ ∃ j ≤ 2, q = List.replicate j MicroOp.idle := by
  have hq := (buildQueue_branch b hb).2
  constructor
  · rintro ⟨n, j, hj, hn, rfl⟩
    rw [hq]
    match n, hn hb with
    | 0, .inl hz => exact .inl (by simp [hz])
    | 1, .inl hz => exact .inr (.inl (by simp [hz]))
    | n + 2, _ => exact .inr (.inr ⟨j - n, by omega, by simp⟩)
  · rintro (rfl | rfl | ⟨j, hj, rfl⟩)
    · exact ⟨0, 0, by omega, fun _ => .inl rfl, by simp [hq]⟩
    · exact ⟨1, 0, by omega, fun _ => .inl rfl, by simp [hq]⟩
    · exact ⟨2, j, hj, fun _ => .inr le_rfl, by simp [hq]⟩

/-- A queue whose head costs 1 lacks its Resolve at least: R48's account of a queue between two ticks. -/
theorem IsRestOf.program {b : Byte} {q : List MicroOp} (h : IsRestOf (decodePair b) q)
    (hc : headCostsOne q) : ∃ n j, 1 ≤ n ∧ j ≤ 2 ∧
      q = (buildQueue (decodePair b).1 (decodePair b).2 ++ List.replicate j MicroOp.idle).drop n := by
  obtain ⟨n, j, hj, -, rfl⟩ := h
  refine ⟨n, j, Nat.pos_of_ne_zero ?_, hj, rfl⟩
  rintro rfl
  have hh := buildQueue_head b
  cases hq : buildQueue (decodePair b).1 (decodePair b).2 <;> rw [hq] at hh hc
  · cases hh
  · cases hh; cases hc

/-- The queue of a state between two ticks is a rest of the latched instruction's. -/
theorem State.SlotsOk.isRestOf {s : State} {b : Byte} (h : s.SlotsOk) (hop : s.op = some b)
    (hq : s.q ≠ []) : IsRestOf s.ins s.q := by
  obtain ⟨n, j, hn, hj, hs⟩ := h.program hq
  refine ⟨n, j, hj, fun hb => .inr ?_, hs⟩
  have hc := h.head
  rw [h.latch b hop] at hb hs
  rw [hs, (buildQueue_branch b hb).2] at hc
  match n, hn with
  | 1, _ => cases hc
  | n + 2, _ => omega

/-! ## The queue and the data under a micro-op -/

theorem perform_q_of_not_branch {k : MicroOp} {s t : State} (hb : isBranch s.ins.1 = false)
    (h : perform k s = .next t) : t.q = s.q := by
  have hs := perform_at k s s.q s.cycles hb
  rw [show s.at s.q s.cycles = s from rfl, h, andThen_next] at hs
  simpa using congrArg State.q (Host.Outcome.next.inj hs)

@[simp] theorem stage_q (t : InstrType) (s : State) : (stage t s).q = s.q := by cases t <;> rfl

theorem resolve_q_of_rel {s t : State} (hm : s.ins.2 = .rel) (h : resolve s = .next t) : t.q = s.q := by
  simp only [resolve, hm, resolveMode, andThen_eq_next] at h
  obtain ⟨u, ⟨r, -, hu⟩, ht⟩ := h
  cases hu
  cases ht
  exact stage_q _ _

/-- The Exec of each branch is the common one, and its condition is on one flag, which is neither D nor I
(45_control.md R294 to R302). -/
theorem execBody_branch {t : InstrType} (h : isBranch t = true) :
    ∃ (f : Flag) (test : Bool → Bool), f ≠ .d ∧ f ≠ .i ∧
      ∀ u, execBody t u = .next (branch (test (getFlag f u.p)) u) := by
  cases t <;> simp only [isBranch, Bool.false_eq_true] at h
  case bpl => exact ⟨.n, not, by decide, by decide, fun _ => rfl⟩
  case bmi => exact ⟨.n, id, by decide, by decide, fun _ => rfl⟩
  case bvc => exact ⟨.v, not, by decide, by decide, fun _ => rfl⟩
  case bvs => exact ⟨.v, id, by decide, by decide, fun _ => rfl⟩
  case bcc => exact ⟨.c, not, by decide, by decide, fun _ => rfl⟩
  case bcs => exact ⟨.c, id, by decide, by decide, fun _ => rfl⟩
  case bne => exact ⟨.z, not, by decide, by decide, fun _ => rfl⟩
  case beq => exact ⟨.z, id, by decide, by decide, fun _ => rfl⟩

theorem branch_q (taken : Bool) (s : State) :
    ∃ j ≤ 2, (branch taken s).q = s.q ++ List.replicate j MicroOp.idle := by
  cases taken with
  | false => exact ⟨0, by omega, by simp [branch]⟩
  | true =>
    by_cases hpage : hi8 s.ea = hi8 s.pc
    · exact ⟨1, by omega, by simp [branch, hpage]⟩
    · exact ⟨2, by omega, by simp [branch, hpage, List.replicate]⟩

/-- An Exec that the instruction type does not have is an internal fault. -/
theorem execBody_of_not_opOk {t : InstrType} (h : opOk t .exec = false) (s : State) :
    execBody t s = .fault (.internalFault .handler) := by
  cases t <;> first | rfl | cases h

/-- So is a Modify. -/
theorem modifyBody_of_not_opOk {t : InstrType} (h : opOk t .modify = false) (s : State) :
    modifyBody t s = .fault (.internalFault .handler) := by
  cases t <;> first | rfl | cases h

theorem perform_ne_next_of_not_opOk {k : MicroOp} {s t : State} (h : opOk s.ins.1 k = false)
    (hk : k ≠ .resolve) : perform k s ≠ .next t := by
  cases k
  case resolve => exact absurd rfl hk
  case exec => simp [perform, execBody_of_not_opOk h]
  case modify => simp [perform, modifyBody_of_not_opOk h]
  all_goals cases h

theorem Good.of_next {P : State → Prop} {r : Res State} {t : State} (h : Good P r) (ht : r = .next t) :
    P t := by
  rcases h with ⟨u, hu, hp⟩ | ⟨a, ha⟩
  · rw [hu] at ht; cases ht; exact hp
  · rw [ha] at ht; cases ht

/-- The data part of the invariant speaks of P and memory only. -/
theorem State.DataOk.congr {s t : State} (h : s.DataOk) (hp : t.p = s.p) (hm : t.bus.mem = s.bus.mem) :
    t.DataOk :=
  ⟨⟨hp ▸ h.status.reserved, hp ▸ h.status.breakClear⟩, hm ▸ h.memory⟩

theorem State.DataOk.inv {s t : State} (h : s.DataOk) (hp : t.p = s.p) (hm : t.bus.mem = s.bus.mem)
    (ht : t.SlotsOk) : t.Inv :=
  ⟨ht, (h.congr hp hm).status, (h.congr hp hm).memory⟩

theorem State.Inv.data {s : State} (h : s.Inv) : s.DataOk := ⟨h.status, h.memory⟩

/-- Every micro-op keeps the data part of the invariant; Resolve, where the operand bytes are complete. -/
theorem perform_dataOk {k : MicroOp} {s t : State} (hl : s.opnds.length = operandCount s.ins.2)
    (hs : s.DataOk) (h : perform k s = .next t) : t.DataOk := by
  by_cases hk : k = .resolve
  · subst hk; exact (resolve_good hl hs).of_next h
  · cases ho : opOk s.ins.1 k with
    | true => exact (perform_good ho hs).of_next h
    | false => exact absurd h (perform_ne_next_of_not_opOk ho hk)

/-! ## The execute step -/

/-- In the course of an execute step: the slots hold a whole instruction and the queue is a rest of its own. -/
structure State.Executing (s : State) : Prop where
  slots : ∃ b, s.op = some b ∧ s.ins = decodePair b ∧ s.opnds.length = operandCount (decodeMode b)
  queue : IsRestOf s.ins s.q
  data : s.DataOk

/-- A micro-op that was taken from the head of a rest leaves a rest. -/
theorem perform_isRestOf {b : Byte} {k : MicroOp} {s t : State} (hi : s.ins = decodePair b)
    (hq : IsRestOf s.ins (k :: s.q)) (h : perform k s = .next t) : IsRestOf s.ins t.q := by
  cases hb : isBranch s.ins.1 with
  | false => rw [perform_q_of_not_branch hb h]; exact hq.tail
  | true =>
    have hbb : isBranch (decodePair b).1 = true := hi ▸ hb
    rcases (isRestOf_branch hbb).mp (hi ▸ hq) with hr | hr | ⟨j, hj, hr⟩
    · obtain ⟨rfl, -⟩ := List.cons.inj hr
      have hm : s.ins.2 = .rel := hi ▸ (buildQueue_branch b hbb).1
      rw [resolve_q_of_rel hm h]
      exact hq.tail
    · obtain ⟨rfl, hnil⟩ := List.cons.inj hr
      obtain ⟨f, test, -, -, hexec⟩ := execBody_branch hb
      simp only [perform, hexec] at h
      cases h
      obtain ⟨j, hj, hjq⟩ := branch_q (test (getFlag f s.p)) s
      rw [hi]
      exact (isRestOf_branch hbb).mpr (.inr (.inr ⟨j, hj, by rw [hjq, hnil, List.nil_append]⟩))
    · obtain rfl : k = .idle := List.eq_of_mem_replicate (hr ▸ List.mem_cons_self)
      cases h
      exact hq.tail

theorem perform_executing {k : MicroOp} {rest : List MicroOp} {s t : State} (hs : s.Executing)
    (hq : s.q = k :: rest) (h : perform k { s with q := rest } = .next t) : t.Executing := by
  obtain ⟨b, hop, hi, hl⟩ := hs.slots
  have hsame := perform_slots h
  refine ⟨⟨b, hsame.op.trans hop, hsame.ins.trans hi, hsame.opnds ▸ hl⟩, ?_, ?_⟩
  · rw [hsame.ins]
    exact perform_isRestOf (s := { s with q := rest }) hi (hq ▸ hs.queue) h
  · exact perform_dataOk (s := { s with q := rest }) (by simpa [hi, decodeMode] using hl)
      (hs.data.congr rfl rfl) h

/-- A micro-op that the budget keeps from running costs 1. -/
theorem headCostsOne_of_budget {limit spent : Nat} {k : MicroOp} {rest : List MicroOp}
    (hspent : spent < limit) (hk : ¬ spent + cost k < limit) : headCostsOne (k :: rest) := by
  have hle := cost_le_one k
  simp only [headCostsOne]
  omega

/-- The drain stops at a queue whose head costs 1. -/
theorem drain_executing {fuel limit spent : Nat} {s t : State} (hspent : spent < limit) (hs : s.Executing)
    (h : drain fuel limit spent s = .next t) : t.Executing ∧ headCostsOne t.q := by
  induction fuel generalizing spent s with
  | zero =>
    cases hq : s.q with
    | nil => simp only [drain, hq] at h; cases h; exact ⟨hs, hq ▸ trivial⟩
    | cons k rest =>
      simp only [drain, hq] at h
      split at h <;> cases h
      exact ⟨hs, hq ▸ headCostsOne_of_budget hspent ‹_›⟩
  | succ fuel ih =>
    cases hq : s.q with
    | nil => simp only [drain, hq] at h; cases h; exact ⟨hs, hq ▸ trivial⟩
    | cons k rest =>
      simp only [drain, hq] at h
      split at h
      · rw [andThen_eq_next] at h
        obtain ⟨u, hu, h⟩ := h
        exact ih ‹_› (perform_executing hs hq hu) h
      · cases h
        exact ⟨hs, hq ▸ headCostsOne_of_budget hspent ‹_›⟩

theorem State.boundary.slotsOk {s : State} (h : s.boundary) : s.SlotsOk := by
  obtain ⟨hop, hopnds, hq⟩ := h
  constructor <;> simp [hop, hopnds, hq, headCostsOne]

/-- Between two ticks of an execution. -/
theorem State.Executing.slotsOk {s : State} (h : s.Executing) (hc : headCostsOne s.q) (hq : s.q ≠ []) :
    s.SlotsOk := by
  obtain ⟨b, hop, hi, hl⟩ := h.slots
  have hrest := h.queue
  rw [hi] at hrest
  constructor
  case program => exact fun _ => hi ▸ hrest.program hc
  all_goals simp [hop, hc, hq, hi, hl]

theorem executeStep_inv {limit : Nat} {s t : State} (hlimit : 0 < limit) (hs : s.Executing)
    (hq : s.q ≠ []) (h : executeStep limit s = .next t) : t.Inv := by
  simp only [executeStep, andThen_eq_next] at h
  obtain ⟨u, hu, ht⟩ := h
  obtain ⟨hu, hc⟩ := drain_executing hlimit hs hu
  have hactive : (!s.q.isEmpty) = true := by simpa using hq
  rw [hactive] at ht
  cases ht
  cases huq : u.q with
  | nil =>
    simp only [endTick, huq, List.isEmpty_nil, Bool.and_self, if_true]
    exact hu.data.inv rfl rfl (State.boundary.slotsOk ⟨rfl, rfl, rfl⟩)
  | cons k rest =>
    have hmore : u.q ≠ [] := by simp [huq]
    have hslots := hu.slotsOk hc hmore
    simp only [endTick, huq, List.isEmpty_cons, Bool.and_false, Bool.false_eq_true, if_false]
    rw [← huq]
    exact hu.data.inv rfl rfl ⟨hslots.idle, hslots.operands, hslots.head, hslots.queued,
      hslots.latch, hslots.awaiting, hslots.program⟩

/-! ## The fetch -/

/-- A byte has just been fetched: the latch is the decode of the opcode slot, and no operand is too many. -/
structure State.Fetched (s : State) : Prop where
  slots : ∃ b, s.op = some b ∧ s.ins = decodePair b ∧ s.opnds.length ≤ operandCount (decodeMode b)
  queue : s.q = []
  data : s.DataOk

theorem fetchByte_fetched {s t : State} (hs : s.Inv) (hq : s.q = []) (h : fetchByte s = .next t) :
    t.Fetched := by
  simp only [fetchByte, andThen_eq_next] at h
  obtain ⟨r, hr, h⟩ := h
  have hmem : r.2.mem = s.bus.mem := (Bus.read_frame hr).2
  cases hop : s.op with
  | none =>
    have hopnds := (hs.slots.idle hop).1
    rw [hop] at h
    cases h
    exact ⟨⟨r.1, rfl, rfl, by simp [hopnds]⟩, hq, hs.data.congr rfl hmem⟩
  | some b =>
    have hlt := hs.slots.awaiting b hop hq
    rw [hop] at h
    cases h
    exact ⟨⟨b, rfl, rfl, by simpa using hlt⟩, hq, hs.data.congr rfl hmem⟩

/-- While operand bytes are missing, counting the tick is all there is to do. -/
theorem State.Fetched.inv_of_incomplete {s : State} (hs : s.Fetched) (h : operandsComplete s = false)
    (c : Nat) : State.Inv { s with cycles := c } := by
  obtain ⟨b, hop, hi, hl⟩ := hs.slots
  have hne : s.opnds.length ≠ operandCount (decodeMode b) := by
    simpa [operandsComplete, hop] using h
  refine hs.data.inv rfl rfl ?_
  constructor <;> simp [hop, hi, hs.queue, headCostsOne, hl]
  omega

theorem State.Fetched.executing_of_complete {s : State} (hs : s.Fetched) (h : operandsComplete s = true) :
    State.Executing { s with q := buildQueue s.ins.1 s.ins.2 } := by
  obtain ⟨b, hop, hi, -⟩ := hs.slots
  exact ⟨⟨b, hop, hi, by simpa [operandsComplete, hop] using h⟩, isRestOf_buildQueue s.ins,
    hs.data.congr rfl rfl⟩

theorem buildQueue_ne_nil (t : InstrType) (md : Mode) : buildQueue t md ≠ [] := by
  unfold buildQueue staticOps; split <;> simp

/-- With an empty queue an execute step only counts. -/
theorem executeStep_of_empty (limit : Nat) {s : State} (hq : s.q = []) :
    executeStep limit s = .next { s with cycles := s.cycles + 1 } := by
  simp [executeStep, drain, endTick, hq]

/-! ## Tick and step -/

theorem State.Inv.executing {s : State} (hs : s.Inv) (hq : s.q ≠ []) : s.Executing := by
  cases hop : s.op with
  | none => exact absurd (hs.slots.idle hop).2 hq
  | some b =>
    exact ⟨⟨b, hop, hs.slots.latch b hop, hs.slots.queued b hop hq⟩, hs.slots.isRestOf hop hq,
      hs.data⟩

/-- Settles O12: a tick with a queue is an execute step from an executing state; one without is a fetch, after
which the instruction awaits operands or its whole queue is built. -/
theorem tickKeepsInvariant : Obligations.TickKeepsInvariant := by
  unfold Obligations.TickKeepsInvariant
  intro s t hs h
  by_cases hq : s.q = []
  · simp only [tick, hq, List.isEmpty_nil, if_true, andThen_eq_next] at h
    obtain ⟨u, hu, h⟩ := h
    have hu := fetchByte_fetched hs hq hu
    cases hc : operandsComplete u with
    | true =>
      rw [hc, if_pos rfl] at h
      exact executeStep_inv Nat.one_pos (hu.executing_of_complete hc) (buildQueue_ne_nil _ _) h
    | false =>
      rw [hc, if_neg Bool.false_ne_true, executeStep_of_empty _ hu.queue] at h
      cases h
      exact hu.inv_of_incomplete hc _
  · rw [tick_queued s hq] at h
    exact executeStep_inv Nat.two_pos (hs.executing hq) hq h

theorem finish_inv {fuel : Nat} {s t : State} (hs : s.Inv) (h : finish fuel s = .next t) : t.Inv := by
  induction fuel generalizing s with
  | zero =>
    simp only [finish] at h
    split at h <;> cases h
    exact hs
  | succ fuel ih =>
    simp only [finish] at h
    split at h
    · cases h; exact hs
    · rw [andThen_eq_next] at h
      obtain ⟨u, hu, h⟩ := h
      exact ih (tickKeepsInvariant s u hs hu) h

theorem fetchPhase_fetched {fuel : Nat} {s t : State} (hs : s.Inv) (hq : s.q = [])
    (h : fetchPhase fuel s = .next t) : t.Fetched ∧ operandsComplete t = true := by
  induction fuel generalizing s with
  | zero => cases h
  | succ fuel ih =>
    simp only [fetchPhase, andThen_eq_next] at h
    obtain ⟨u, hu, h⟩ := h
    have hu := fetchByte_fetched hs hq hu
    cases hc : operandsComplete u with
    | true => rw [hc, if_pos rfl] at h; cases h; exact ⟨hu, hc⟩
    | false =>
      rw [hc, if_neg Bool.false_ne_true] at h
      exact ih (hu.inv_of_incomplete hc (u.cycles + 1)) hu.queue h

/-- The state at the decode of the instruction in the slots is the fetched one with the queue built. -/
theorem loaded_of_slotInstr {s : State} {i : Instr} {b : Byte} (hop : s.op = some b)
    (hi : s.ins = decodePair b) (h : slotInstr s = some i) :
    i.opcode? = some b ∧ loaded i b s = { s with q := buildQueue s.ins.1 s.ins.2 } := by
  simp only [slotInstr, hop] at h
  obtain ⟨ht, hm, hl, -⟩ := instrOf_eq_some h
  have hins : (i.type, i.mode) = s.ins := by rw [ht, hm, hi]; rfl
  refine ⟨opcode_of_instrOf h, ?_⟩
  rw [loaded, hins, hl, ← hop, ← hins]

/-- Settles O13: the fetch phase ends with a whole instruction in the slots, whose decode tick is an execute
step from an executing state; the rest are ticks. -/
theorem stepKeepsInvariant : Obligations.StepKeepsInvariant := by
  unfold Obligations.StepKeepsInvariant
  intro s t hs h
  by_cases hq : s.q = []
  · simp only [step, hq, List.isEmpty_nil, if_true, andThen_eq_next] at h
    obtain ⟨u, hu, h⟩ := h
    obtain ⟨hu, hc⟩ := fetchPhase_fetched hs hq hu
    obtain ⟨b, hop, hi, -⟩ := hu.slots
    cases hslot : slotInstr u with
    | none => rw [hslot] at h; cases h
    | some i =>
      obtain ⟨hopc, hload⟩ := loaded_of_slotInstr hop hi hslot
      rw [hslot] at h
      simp only [exec_eq_runInstr, runInstr, hopc, hload, andThen_eq_next] at h
      obtain ⟨v, hv, h⟩ := h
      exact finish_inv
        (executeStep_inv Nat.one_pos (hu.executing_of_complete hc) (buildQueue_ne_nil _ _) hv) h
  · simp only [step, List.isEmpty_iff, hq, if_false] at h
    exact finish_inv hs h

end Sys2Proof.Machine

/-! PROOFS. Which flags and registers a micro-op, and so an instruction, can write (10_state.md R31 to R39): the
effect of each micro-op on the registers, the flags and registers of each, and that a relation on the registers
that every micro-op of an instruction's queue respects is respected by the instruction. -/

namespace Sys2Proof.Machine

/-! ## What a computation on P leaves -/

theorem OnlyFlags.refl (fs : List Flag) (p : Byte) : OnlyFlags fs p p := fun _ _ _ => rfl

theorem OnlyFlags.trans {fs : List Flag} {p q r : Byte} (h : OnlyFlags fs p q) (h' : OnlyFlags fs q r) :
    OnlyFlags fs p r := fun k hk hn => (h' k hk hn).trans (h k hk hn)

theorem OnlyFlags.mono {fs gs : List Flag} {p q : Byte} (h : OnlyFlags fs p q) (hs : fs ⊆ gs) :
    OnlyFlags gs p q := fun k hk hn => h k hk fun hm => hn (List.map_subset flagBit hs hm)

theorem OnlyFlags.getFlag_eq {fs : List Flag} {p q : Byte} (h : OnlyFlags fs p q) {f : Flag} (hf : f ∉ fs) :
    getFlag f q = getFlag f p := by
  refine h (flagBit f) (flagBit_lt f) fun hm => ?_
  obtain ⟨g, hg, hb⟩ := List.mem_map.mp hm
  exact hf (flagBit_inj hb ▸ hg)

/-- No flag is bit 5, so the reserved bit is kept by whatever writes flags only. -/
theorem OnlyFlags.reserved_eq {fs : List Flag} {p q : Byte} (h : OnlyFlags fs p q) :
    q.getLsbD 5 = p.getLsbD 5 := by
  refine h 5 (by omega) fun hm => ?_
  obtain ⟨g, -, hg⟩ := List.mem_map.mp hm
  cases g <;> cases hg

/-- One flag more is written. -/
theorem OnlyFlags.setFlag_right {fs : List Flag} {p q : Byte} (h : OnlyFlags fs p q) {f : Flag} (hf : f ∈ fs)
    (v : Bool) : OnlyFlags fs p (setFlag f v q) := by
  intro k hk hn
  have hne : k ≠ flagBit f := fun e => hn (e ▸ List.mem_map_of_mem hf)
  rw [setFlag_getLsbD f v q hk, if_neg hne]
  exact h k hk hn

theorem OnlyFlags.setNZ_right {fs : List Flag} {p q : Byte} (h : OnlyFlags fs p q) (hn : Flag.n ∈ fs)
    (hz : Flag.z ∈ fs) (r : Byte) : OnlyFlags fs p (setNZ r q) :=
  (h.setFlag_right hz _).setFlag_right hn _

/-! ## The flags a micro-op can write -/

/-- The flags a micro-op other than PullP can write, in an instruction of this type. -/
def flagsOf (t : InstrType) : MicroOp → List Flag
  | .exec | .modify => flagsWritten t
  | .pullA => [.z, .n]
  | .vector => [.i]
  | _ => []

theorem branch_p (taken : Bool) (s : State) : (branch taken s).p = s.p := by
  cases taken <;> rfl

theorem execBody_onlyFlags {t : InstrType} {s u : State} (h : execBody t s = .next u) :
    OnlyFlags (flagsWritten t) s.p u.p := by
  cases t <;> cases h
  case lda | ldx | ldy | tax | tay | txa | tya | tsx | and | ora | eor | inx | iny | dex | dey =>
    exact (OnlyFlags.refl _ _).setNZ_right (by decide) (by decide) _
  case adc | sbc =>
    exact (((OnlyFlags.refl _ _).setFlag_right (by decide) _).setFlag_right (by decide) _).setNZ_right
      (by decide) (by decide) _
  case cmp | cpx | cpy | asl | lsr | rol | ror =>
    exact ((OnlyFlags.refl _ _).setFlag_right (by decide) _).setNZ_right (by decide) (by decide) _
  case bit =>
    exact (((OnlyFlags.refl _ _).setFlag_right (by decide) _).setFlag_right (by decide) _).setFlag_right
      (by decide) _
  case clc | sec | cli | sei | clv | cld | sed =>
    exact (OnlyFlags.refl _ _).setFlag_right (by decide) _
  case bpl | bmi | bvc | bvs | bcc | bcs | bne | beq =>
    exact (branch_p _ s).symm ▸ OnlyFlags.refl _ _
  case txs | nop | illegal => exact OnlyFlags.refl _ _

theorem modifyBody_onlyFlags {t : InstrType} {s u : State} (h : modifyBody t s = .next u) :
    OnlyFlags (flagsWritten t) s.p u.p := by
  cases t <;> cases h
  case inc | dec => exact (OnlyFlags.refl _ _).setNZ_right (by decide) (by decide) _
  case asl | lsr | rol | ror =>
    exact ((OnlyFlags.refl _ _).setFlag_right (by decide) _).setNZ_right (by decide) (by decide) _

/-! ## The registers after a micro-op -/

/-- The registers after a micro-op that is no Exec or Modify, where `v` is the byte it pulls and `w` the word it
reads, if any (41_scheduler.md R163). -/
def regsAfter (k : MicroOp) (s : State) (v : Byte) (w : Addr) : Regs :=
  match k with
  | .pushA | .pushP | .pushPCH | .pushPCL => { s.regs with sp := s.sp - 1 }
  | .pullA => { s.regs with sp := s.sp + 1, a := v, p := setNZ v s.p }
  | .pullP => { s.regs with sp := s.sp + 1, p := pullImage v }
  | .pullPCL => { s.regs with sp := s.sp + 1, pc := cat (hi8 s.pc) v }
  | .pullPCH => { s.regs with sp := s.sp + 1, pc := cat v (lo8 s.pc) }
  | .jump => { s.regs with pc := s.ea }
  | .incPC => { s.regs with pc := s.pc + 1 }
  | .vector => { s.regs with pc := w, p := setFlag .i true s.p }
  | .resolve | .read | .write | .idle | .exec | .modify => s.regs

theorem push_regs {v : Byte} {s t : State} (h : push v s = .next t) :
    t.regs = { s.regs with sp := s.sp - 1 } := by
  simp only [push, andThen_eq_next] at h
  obtain ⟨b, -, h⟩ := h
  cases h
  rfl

theorem perform_regs {k : MicroOp} {s t : State} (he : k ≠ .exec) (hm : k ≠ .modify)
    (h : perform k s = .next t) : ∃ v w, t.regs = regsAfter k s v w := by
  cases k
  case exec => exact absurd rfl he
  case modify => exact absurd rfl hm
  case resolve => exact ⟨0, 0, resolve_regs h⟩
  case idle | jump | incPC => cases h; exact ⟨0, 0, rfl⟩
  case pushA | pushP | pushPCH | pushPCL => exact ⟨0, 0, push_regs h⟩
  case read | write =>
    simp only [perform, doRead, doWrite, andThen_eq_next] at h
    obtain ⟨r, -, h⟩ := h
    cases h
    exact ⟨0, 0, rfl⟩
  case vector =>
    simp only [perform, doVector, andThen_eq_next] at h
    obtain ⟨r, -, h⟩ := h
    cases h
    exact ⟨0, r.1, rfl⟩
  case pullA | pullP | pullPCL | pullPCH =>
    simp only [perform, doPullA, doPullP, doPullPCL, doPullPCH, pull, andThen_assoc, andThen_next,
      andThen_eq_next] at h
    obtain ⟨r, -, h⟩ := h
    cases h
    exact ⟨r.1, 0, rfl⟩

theorem perform_onlyFlags {k : MicroOp} {s t : State} (hk : k ≠ .pullP) (h : perform k s = .next t) :
    OnlyFlags (flagsOf s.ins.1 k) s.p t.p := by
  by_cases he : k = .exec
  · subst he; exact execBody_onlyFlags h
  by_cases hm : k = .modify
  · subst hm; exact modifyBody_onlyFlags h
  obtain ⟨v, w, hr⟩ := perform_regs he hm h
  rw [show t.p = (regsAfter k s v w).p from congrArg Regs.p hr]
  cases k
  case pullP => exact absurd rfl hk
  case exec => exact absurd rfl he
  case modify => exact absurd rfl hm
  case pullA => exact (OnlyFlags.refl _ _).setNZ_right (by simp [flagsOf]) (by simp [flagsOf]) _
  case vector => exact (OnlyFlags.refl _ _).setFlag_right (by simp [flagsOf]) _
  all_goals exact OnlyFlags.refl _ _

/-- Every micro-op keeps the reserved bit, but for PullP, which sets it (10_state.md R37, R39). -/
theorem perform_reserved {k : MicroOp} {s t : State} (h : perform k s = .next t) :
    t.p.getLsbD 5 = s.p.getLsbD 5 ∨ t.p.getLsbD 5 = true := by
  by_cases hk : k = .pullP
  · subst hk
    obtain ⟨v, w, hr⟩ := perform_regs (by decide) (by decide) h
    rw [show t.p = pullImage v from congrArg Regs.p hr]
    exact .inr (pullImage_fixed v).1
  · exact .inl (perform_onlyFlags hk h).reserved_eq

/-! ## The registers a micro-op can write -/

/-- The registers of 10_state.md R31 to R35. -/
inductive Reg where
  | a | x | y | sp | pc

def Reg.width : Reg → Nat
  | .a | .x | .y | .sp => 8
  | .pc => 16

def Regs.val (r : Regs) : (g : Reg) → BitVec g.width
  | .a => r.a
  | .x => r.x
  | .y => r.y
  | .sp => r.sp
  | .pc => r.pc

/-- The registers that the Exec of an instruction type writes. -/
def execRegs : InstrType → List Reg
  | .lda | .txa | .tya | .adc | .sbc | .and | .ora | .eor | .asl | .lsr | .rol | .ror => [.a]
  | .ldx | .tax | .tsx | .inx | .dex => [.x]
  | .ldy | .tay | .iny | .dey => [.y]
  | .txs => [.sp]
  | .bpl | .bmi | .bvc | .bvs | .bcc | .bcs | .bne | .beq => [.pc]
  | _ => []

/-- The registers a micro-op can write, in an instruction of this type. -/
def regsOf (t : InstrType) : MicroOp → List Reg
  | .exec => execRegs t
  | .pullA => [.a, .sp]
  | .pullPCL | .pullPCH => [.sp, .pc]
  | .pushA | .pushP | .pushPCH | .pushPCL | .pullP => [.sp]
  | .jump | .incPC | .vector => [.pc]
  | .resolve | .read | .write | .idle | .modify => []

theorem execBody_keeps_reg {t : InstrType} {g : Reg} {s u : State} (hg : g ∉ execRegs t)
    (h : execBody t s = .next u) : u.regs.val g = s.regs.val g := by
  cases hb : isBranch t with
  | true =>
    obtain ⟨f, test, -, -, hexec⟩ := execBody_branch hb
    rw [hexec] at h
    cases h
    have hpc : g ≠ .pc := by
      rintro rfl
      cases t <;> simp only [isBranch, Bool.false_eq_true] at hb <;> simp [execRegs] at hg
    generalize test (getFlag f s.p) = taken
    cases taken <;> cases g <;> first | rfl | exact absurd rfl hpc
  | false =>
    cases t
    case bpl | bmi | bvc | bvs | bcc | bcs | bne | beq => cases hb
    all_goals cases h <;> cases g <;> first | rfl | exact absurd List.mem_cons_self hg

theorem perform_keeps_reg {k : MicroOp} {g : Reg} {s t : State} (hg : g ∉ regsOf s.ins.1 k)
    (h : perform k s = .next t) : t.regs.val g = s.regs.val g := by
  by_cases he : k = .exec
  · subst he; exact execBody_keeps_reg hg h
  by_cases hm : k = .modify
  · subst hm
    simp only [perform] at h
    generalize s.ins.1 = ty at h
    cases ty <;> cases h <;> cases g <;> rfl
  obtain ⟨v, w, hr⟩ := perform_regs he hm h
  rw [hr]
  cases k <;> cases g <;> first | rfl | simp [regsOf] at hg

/-! ## From the micro-ops of a queue to the instruction -/

/-- The micro-ops of `addr_ops`, with Resolve and the settle Idle. -/
def addressingOps : List MicroOp := [.resolve, .idle, .read, .write]

theorem addrOps_subset (md : Mode) (c : AccessClass) : addrOps md c ⊆ addressingOps := by
  cases c <;> cases md <;> decide

/-- What stands in a queue: micro-ops of addressing, and those of the handler (41_scheduler.md R171, R178). -/
theorem mem_buildQueue {t : InstrType} {md : Mode} {k : MicroOp} (h : k ∈ buildQueue t md) :
    k ∈ addressingOps ∨ k ∈ handlerOps t md := by
  have hstatic : k ∈ staticOps t md ++ [.idle] := by
    unfold buildQueue at h
    split at h
    · exact h
    · exact List.mem_append_left _ h
  simp only [staticOps, List.mem_append, List.mem_singleton] at hstatic
  rcases hstatic with ((rfl | haddr) | hhandler) | rfl
  · exact .inl (by decide)
  · exact .inl (addrOps_subset _ _ haddr)
  · exact .inr hhandler
  · exact .inl (by decide)

theorem performAll_regs_rel {R : Regs → Regs → Prop} (hrefl : ∀ r, R r r)
    (htrans : ∀ {r r' r''}, R r r' → R r' r'' → R r r'') {l : List MicroOp} {s t : State}
    (hk : ∀ k ∈ l, ∀ u v : State, u.ins.1 = s.ins.1 → perform k u = .next v → R u.regs v.regs)
    (h : performAll l s = .next t) : R s.regs t.regs := by
  induction l generalizing s with
  | nil => cases h; exact hrefl _
  | cons k rest ih =>
    simp only [performAll, andThen_eq_next] at h
    obtain ⟨u, hu, h⟩ := h
    have hi : u.ins.1 = s.ins.1 := by rw [(perform_slots hu).ins]
    exact htrans (hk k List.mem_cons_self s u rfl hu)
      (ih (fun k' hk' v w hv => hk k' (List.mem_cons_of_mem k hk') v w (hv.trans hi)) h)

/-- An instruction that ends in a next state has an opcode byte, which decodes to its type and mode. -/
theorem opcode_of_exec {i : Instr} {s t : State} (h : exec i s = .next t) :
    ∃ b, i.opcode? = some b ∧ decodePair b = (i.type, i.mode) := by
  cases hw : i.wf with
  | true => exact Instr.opcode_of_wf hw
  | false =>
    simp only [exec_eq_runInstr, runInstr, Instr.opcode_of_not_wf hw] at h
    cases h

/-- The run of a branch, from the flag it tests. -/
theorem exec_branch {i : Instr} {b : Byte} (hop : i.opcode? = some b) (hb : isBranch i.type = true) :
    ∃ (f : Flag) (test : Bool → Bool) (b1 : Byte), f ≠ .d ∧ f ≠ .i ∧
      (∀ u, execBody i.type u = .next (branch (test (getFlag f u.p)) u)) ∧
      ∀ s, exec i s =
        .next (completed
          (if test (getFlag f s.p) then if hi8 (s.pc + sext16 b1) = hi8 s.pc then 2 else 3 else 1)
          { loaded i b s with
            ea := s.pc + sext16 b1
            pc := if test (getFlag f s.p) then s.pc + sext16 b1 else s.pc }) := by
  obtain ⟨f, test, hd, hi, hexec⟩ := execBody_branch hb
  obtain ⟨hm, b1, ho⟩ : i.mode = .rel ∧ ∃ b1, i.operandBytes = [b1] := by
    cases i <;> simp only [Instr.type, isBranch, Bool.false_eq_true] at hb <;> exact ⟨rfl, _, rfl⟩
  refine ⟨f, test, b1, hd, hi, hexec, fun s => ?_⟩
  rw [exec_eq_runInstr]
  exact runInstr_branch (cond := fun p => test (getFlag f p)) hop hm ho hb hexec

/-- A relation on the registers that every micro-op of the queue respects holds across the instruction. -/
theorem exec_regs_rel {R : Regs → Regs → Prop} (hrefl : ∀ r, R r r)
    (htrans : ∀ {r r' r''}, R r r' → R r' r'' → R r r'') {i : Instr} {s t : State}
    (hk : ∀ k ∈ buildQueue i.type i.mode, ∀ u v : State, u.ins.1 = i.type → perform k u = .next v →
      R u.regs v.regs)
    (h : exec i s = .next t) : R s.regs t.regs := by
  obtain ⟨b, hop, hdec⟩ := opcode_of_exec h
  cases hb : isBranch i.type with
  | false =>
    rw [exec_eq_performAll hop hb rfl, andThen_eq_next] at h
    obtain ⟨u, hu, h⟩ := h
    cases h
    exact performAll_regs_rel (s := loaded i b s) (t := u) hrefl htrans hk hu
  | true =>
    obtain ⟨f, test, b1, -, -, hexec, hrun⟩ := exec_branch hop hb
    rw [hrun] at h
    cases h
    have hmem : MicroOp.exec ∈ buildQueue i.type i.mode := by
      have hq := (buildQueue_branch b (hdec ▸ hb)).2
      rw [hdec] at hq
      simp [hq]
    have hx := hk .exec hmem { loaded i b s with ea := s.pc + sext16 b1 } _ rfl (hexec _)
    have hp : (loaded i b s).p = s.p := rfl
    simp only [hp] at hx
    cases htest : test (getFlag f s.p) <;> rw [htest] at hx <;> exact hx

/-! ## The flag table and the register writers -/

theorem handlerOps_flags (t : InstrType) (md : Mode) : ∀ k ∈ handlerOps t md,
    flagsOf t k ⊆ flagsWritten t ∧ (k = .pullP → t = .plp ∨ t = .rti) := by
  cases t
  case asl | lsr | rol | ror => by_cases hm : md = .acc <;> simp [handlerOps, hm, flagsOf]
  all_goals simp [handlerOps, flagsOf, flagsWritten]

theorem buildQueue_flags {t : InstrType} {md : Mode} {k : MicroOp} (h : k ∈ buildQueue t md) :
    flagsOf t k ⊆ flagsWritten t ∧ (k = .pullP → t = .plp ∨ t = .rti) := by
  rcases mem_buildQueue h with hk | hk
  · simp only [addressingOps, List.mem_cons, List.not_mem_nil, or_false] at hk
    rcases hk with rfl | rfl | rfl | rfl <;> simp [flagsOf]
  · exact handlerOps_flags t md k hk

/-- An instruction without PullP writes only the flags the table gives its type. -/
theorem exec_onlyFlags {i : Instr} {s t : State} (hplp : i.type ≠ .plp) (hrti : i.type ≠ .rti)
    (h : exec i s = .next t) : OnlyFlags (flagsWritten i.type) s.p t.p := by
  refine exec_regs_rel (R := fun r r' => OnlyFlags (flagsWritten i.type) r.p r'.p)
    (fun _ => OnlyFlags.refl _ _) OnlyFlags.trans (fun k hk u v hu hv => ?_) h
  obtain ⟨hsub, hpull⟩ := buildQueue_flags hk
  have hne : k ≠ .pullP := fun e => (hpull e).elim hplp hrti
  exact (perform_onlyFlags hne hv).mono (hu ▸ hsub)

theorem exec_reserved {i : Instr} {s t : State} (h : exec i s = .next t) :
    t.p.getLsbD 5 = s.p.getLsbD 5 ∨ t.p.getLsbD 5 = true :=
  exec_regs_rel (R := fun r r' => r'.p.getLsbD 5 = r.p.getLsbD 5 ∨ r'.p.getLsbD 5 = true)
    (fun _ => .inl rfl)
    (fun h h' => h'.elim (fun e => h.imp e.trans e.trans) .inr)
    (fun _ _ _ _ _ hv => perform_reserved hv) h

/-- The type of an instruction that moves P to or from the stack determines it. -/
theorem Instr.eq_of_type_eq {i j : Instr} (hj : j ∈ [Instr.php, .plp, .brk, .rti]) (h : i.type = j.type) :
    i = j := by
  simp only [List.mem_cons, List.not_mem_nil, or_false] at hj
  rcases hj with rfl | rfl | rfl | rfl <;> cases i <;> first | rfl | cases h

/-- Settles O53: PLP and RTI load P whole, through the pull path; no other queue holds a PullP. -/
theorem onlyTheTableWritesFlags : Obligations.OnlyTheTableWritesFlags := by
  unfold Obligations.OnlyTheTableWritesFlags
  intro i s t h
  by_cases hpull : i = .plp ∨ i = .rti
  · have hall : ∀ f, f ∈ flagsWritten i.type := by
      rcases hpull with rfl | rfl <;> intro f <;> cases f <;> decide
    exact ⟨fun f hf => absurd (hall f) hf, (exec_reserved h).imp_right fun h5 => ⟨h5, hpull⟩⟩
  · have hplp : i.type ≠ .plp := fun e => hpull (.inl (Instr.eq_of_type_eq (by decide) e))
    have hrti : i.type ≠ .rti := fun e => hpull (.inr (Instr.eq_of_type_eq (by decide) e))
    have honly := exec_onlyFlags hplp hrti h
    exact ⟨fun f hf => honly.getFlag_eq hf, .inl honly.reserved_eq⟩

/-- The registers 10_state.md R31 to R35 list an instruction for. -/
def writesReg (i : Instr) : Reg → Bool
  | .a => writesA i
  | .x => writesX i
  | .y => writesY i
  | .sp => writesSP i
  | .pc => writesPC i

theorem handlerOps_regs (i : Instr) : ∀ k ∈ handlerOps i.type i.mode, ∀ g ∈ regsOf i.type k,
    writesReg i g = true := by
  have hall : ((handlerOps i.type i.mode).all fun k => (regsOf i.type k).all (writesReg i)) = true := by
    cases i
    case asl o | lsr o | rol o | ror o => cases o <;> rfl
    all_goals rfl
  intro k hk
  exact List.all_eq_true.mp (List.all_eq_true.mp hall k hk)

theorem buildQueue_regs {i : Instr} {k : MicroOp} {g : Reg} (h : k ∈ buildQueue i.type i.mode)
    (hg : g ∈ regsOf i.type k) : writesReg i g = true := by
  rcases mem_buildQueue h with hk | hk
  · simp only [addressingOps, List.mem_cons, List.not_mem_nil, or_false] at hk
    rcases hk with rfl | rfl | rfl | rfl <;> cases hg
  · exact handlerOps_regs i k hk g hg

theorem exec_keeps_reg {i : Instr} {g : Reg} {s t : State} (h : exec i s = .next t)
    (hg : writesReg i g = false) : t.regs.val g = s.regs.val g := by
  refine exec_regs_rel (R := fun r r' => r'.val g = r.val g) (fun _ => rfl) (fun h h' => h'.trans h)
    (fun k hk u v hu hv => perform_keeps_reg (fun hmem => ?_) hv) h
  have hwrites := buildQueue_regs hk (hu ▸ hmem)
  rw [hg] at hwrites
  cases hwrites

/-- Settles O54: a register no micro-op of the queue can write is kept. -/
theorem onlyTheListedInstructionsWriteRegisters :
    Obligations.OnlyTheListedInstructionsWriteRegisters := by
  unfold Obligations.OnlyTheListedInstructionsWriteRegisters
  exact fun i s t h => ⟨exec_keeps_reg (g := .a) h, exec_keeps_reg (g := .x) h, exec_keeps_reg (g := .y) h,
    exec_keeps_reg (g := .sp) h, exec_keeps_reg (g := .pc) h⟩

end Sys2Proof.Machine

/-! PROOFS. D and I steer nothing (10_state.md R41, R42): two states that differ in P at one of these flags
stay so under every micro-op but PushP, and under every instruction whose queue has none. -/

namespace Sys2Proof.Machine

/-! ## Writing the same flags on two values of P -/

theorem OnlyFlags.setFlag_both {fs : List Flag} {p q : Byte} (h : OnlyFlags fs p q) (f : Flag) (v : Bool) :
    OnlyFlags fs (setFlag f v p) (setFlag f v q) := by
  intro k hk hn
  rw [setFlag_getLsbD f v p hk, setFlag_getLsbD f v q hk, h k hk hn]

theorem OnlyFlags.setNZ_both {fs : List Flag} {p q : Byte} (h : OnlyFlags fs p q) (r : Byte) :
    OnlyFlags fs (setNZ r p) (setNZ r q) :=
  (h.setFlag_both .z _).setFlag_both .n _

theorem OnlyFlags.sumFlags_both {fs : List Flag} {p q : Byte} (h : OnlyFlags fs p q) (r : Sum) :
    OnlyFlags fs (sumFlags r p) (sumFlags r q) :=
  ((h.setFlag_both .c _).setFlag_both .v _).setNZ_both _

theorem OnlyFlags.shiftFlags_both {fs : List Flag} {p q : Byte} (h : OnlyFlags fs p q) (r : Byte × Bool) :
    OnlyFlags fs (shiftFlags r p) (shiftFlags r q) :=
  (h.setFlag_both .c _).setNZ_both _

/-- A flag that is neither D nor I has one value, where P differs in one of these at most. -/
theorem OnlyFlags.getFlag_of_ne {f g : Flag} {p q : Byte} (h : OnlyFlags [f] p q) (hf : f = .d ∨ f = .i)
    (hd : g ≠ .d) (hi : g ≠ .i) : getFlag g q = getFlag g p := by
  refine h.getFlag_eq fun hm => ?_
  rw [List.mem_singleton] at hm
  exact hf.elim (fun e => hd (hm.trans e)) fun e => hi (hm.trans e)

/-! ## Two states that differ in one flag -/

/-- The second state is the first with flag `f` of P changed, at most. -/
structure DiffersInFlag (f : Flag) (s u : State) : Prop where
  rest : u = { s with p := u.p }
  status : OnlyFlags [f] s.p u.p

/-- Both outcomes are next states that `R` relates, or they are the same fault. -/
def SameOutcome (R : State → State → Prop) (x y : Res State) : Prop :=
  (∃ t u, x = .next t ∧ y = .next u ∧ R t u) ∨ ∃ e, x = .fault e ∧ y = .fault e

theorem SameOutcome.next {R : State → State → Prop} {t u : State} (h : R t u) :
    SameOutcome R (.next t) (.next u) := .inl ⟨t, u, rfl, rfl, h⟩

theorem SameOutcome.bind {R S : State → State → Prop} {x y : Res State} {g h : State → Res State}
    (hxy : SameOutcome R x y) (hgh : ∀ t u, R t u → SameOutcome S (g t) (h u)) :
    SameOutcome S (andThen x g) (andThen y h) := by
  rcases hxy with ⟨t, u, rfl, rfl, htu⟩ | ⟨e, rfl, rfl⟩
  · exact hgh t u htu
  · exact .inr ⟨e, rfl, rfl⟩

/-- After one and the same operation, which is not refused. -/
theorem SameOutcome.after {α : Type} {R : State → State → Prop} {r : Res α} {g h : α → Res State}
    (hr : ∀ e, r ≠ .refused e) (hgh : ∀ v, SameOutcome R (g v) (h v)) :
    SameOutcome R (andThen r g) (andThen r h) := by
  cases r with
  | next v => exact hgh v
  | fault e => exact .inr ⟨e, rfl, rfl⟩
  | refused e => exact absurd rfl (hr e)

theorem Bus.readWord_ne_refused (b : Bus) (a : Addr) (e : Refusal) : b.readWord a ≠ .refused e := by
  rcases Bus.readWord_outcome b a with ⟨r, h, -⟩ | ⟨c, h⟩ <;> simp [h]

theorem effAddr_ne_refused (md : Mode) (l : List Byte) (s : State) (e : Refusal) :
    effAddr md l s ≠ .refused e := by
  have hizy : ∀ a, andThen (s.bus.readWord a) (fun r => .next (r.1 + zext16 s.y, r.2)) ≠ .refused e := by
    intro a
    rcases Bus.readWord_outcome s.bus a with ⟨r, h, -⟩ | ⟨c, h⟩ <;> simp [h]
  unfold effAddr
  split <;> first | exact Bus.readWord_ne_refused _ _ _ | exact hizy _ | nofun

section
variable {f : Flag} {s : State} {p : Byte}

theorem resolveMode_differsInFlag (hp : OnlyFlags [f] s.p p) (md : Mode) (l : List Byte) :
    SameOutcome (DiffersInFlag f) (resolveMode md l s) (resolveMode md l { s with p := p }) := by
  cases md
  case imp | none | acc => exact .next ⟨rfl, hp⟩
  case imm =>
    rcases l with _ | ⟨b1, _ | ⟨b2, l⟩⟩
    · exact .inr ⟨_, rfl, rfl⟩
    · exact .next ⟨rfl, hp⟩
    · exact .inr ⟨_, rfl, rfl⟩
  all_goals exact .after (effAddr_ne_refused _ l s) fun r => .next ⟨rfl, hp⟩

theorem resolve_differsInFlag (hp : OnlyFlags [f] s.p p) :
    SameOutcome (DiffersInFlag f) (resolve s) (resolve { s with p := p }) := by
  refine (resolveMode_differsInFlag hp s.ins.2 s.opnds).bind fun t u htu => .next ?_
  obtain ⟨hu, hstatus⟩ := htu
  rw [hu]
  constructor
  · cases s.ins.1 <;> rfl
  · rw [show (stage s.ins.1 t).p = t.p from congrArg Regs.p (stage_regs _ t)]
    cases s.ins.1 <;> exact hstatus

theorem execBody_differsInFlag (hf : f = .d ∨ f = .i) (hp : OnlyFlags [f] s.p p) (t : InstrType) :
    SameOutcome (DiffersInFlag f) (execBody t s) (execBody t { s with p := p }) := by
  cases hb : isBranch t with
  | true =>
    obtain ⟨g, test, hd, hi, hexec⟩ := execBody_branch hb
    rw [hexec, hexec, hp.getFlag_of_ne hf hd hi]
    cases test (getFlag g s.p) <;> exact .next ⟨rfl, hp⟩
  | false =>
    have hc : getFlag .c p = getFlag .c s.p := hp.getFlag_of_ne hf (by decide) (by decide)
    cases t
    case lda | ldx | ldy | tax | tay | txa | tya | tsx | and | ora | eor | inx | iny | dex | dey =>
      exact .next ⟨rfl, hp.setNZ_both _⟩
    case txs | nop | illegal => exact .next ⟨rfl, hp⟩
    case adc | sbc =>
      simp only [execBody, adcBody, sbcBody, hc]
      exact .next ⟨rfl, hp.sumFlags_both _⟩
    case cmp | cpx | cpy => exact .next ⟨rfl, (hp.setFlag_both .c _).setNZ_both _⟩
    case bit => exact .next ⟨rfl, ((hp.setFlag_both .z _).setFlag_both .n _).setFlag_both .v _⟩
    case asl | lsr | rol | ror =>
      simp only [execBody, aslExec, lsrExec, rolExec, rorExec, shiftExec, hc]
      exact .next ⟨rfl, hp.shiftFlags_both _⟩
    case clc | sec | cli | sei | clv | cld | sed => exact .next ⟨rfl, hp.setFlag_both _ _⟩
    case bpl | bmi | bvc | bvs | bcc | bcs | bne | beq =>
      cases hb
    all_goals exact .inr ⟨_, rfl, rfl⟩

theorem modifyBody_differsInFlag (hf : f = .d ∨ f = .i) (hp : OnlyFlags [f] s.p p) (t : InstrType) :
    SameOutcome (DiffersInFlag f) (modifyBody t s) (modifyBody t { s with p := p }) := by
  have hc : getFlag .c p = getFlag .c s.p := hp.getFlag_of_ne hf (by decide) (by decide)
  cases t
  case inc | dec => exact .next ⟨rfl, hp.setNZ_both _⟩
  case asl | lsr | rol | ror =>
    simp only [modifyBody, aslModify, lsrModify, rolModify, rorModify, shiftModify, hc]
    exact .next ⟨rfl, hp.shiftFlags_both _⟩
  all_goals exact .inr ⟨_, rfl, rfl⟩

theorem perform_differsInFlag (hf : f = .d ∨ f = .i) (hp : OnlyFlags [f] s.p p) {k : MicroOp}
    (hk : k ≠ .pushP) : SameOutcome (DiffersInFlag f) (perform k s) (perform k { s with p := p }) := by
  cases k
  case pushP => exact absurd rfl hk
  case resolve => exact resolve_differsInFlag hp
  case exec => exact execBody_differsInFlag hf hp s.ins.1
  case modify => exact modifyBody_differsInFlag hf hp s.ins.1
  case idle | jump | incPC => exact .next ⟨rfl, hp⟩
  case read => exact .after (Bus.read_ne_refused _ _) fun r => .next ⟨rfl, hp⟩
  case write => exact .after (Bus.write_ne_refused _ _ _) fun b => .next ⟨rfl, hp⟩
  case vector => exact .after (Bus.readWord_ne_refused _ _) fun r => .next ⟨rfl, hp.setFlag_both _ _⟩
  case pushA | pushPCH | pushPCL => exact .after (Bus.write_ne_refused _ _ _) fun b => .next ⟨rfl, hp⟩
  case pullA | pullP | pullPCL | pullPCH =>
    simp only [perform, doPullA, doPullP, doPullPCL, doPullPCH, pull, andThen_assoc, andThen_next]
    refine .after (Bus.read_ne_refused _ _) fun r => .next ⟨rfl, ?_⟩
    first | exact hp | exact hp.setNZ_both _ | exact OnlyFlags.refl _ _

end

theorem performAll_differsInFlag {f : Flag} (hf : f = .d ∨ f = .i) {l : List MicroOp}
    (hl : MicroOp.pushP ∉ l) {s u : State} (h : DiffersInFlag f s u) :
    SameOutcome (DiffersInFlag f) (performAll l s) (performAll l u) := by
  induction l generalizing s u with
  | nil => exact .next h
  | cons k rest ih =>
    obtain ⟨hu, hstatus⟩ := h
    rw [hu]
    rw [List.mem_cons, not_or] at hl
    exact (perform_differsInFlag hf hstatus (Ne.symm hl.1)).bind fun t v htv => ih hl.2 htv

/-! ## Whole instructions -/

theorem DiffersInFlag.sameButFlag_completed {f : Flag} {t u : State} (h : DiffersInFlag f t u) (n : Nat) :
    SameButFlag f (.next (completed n t)) (.next (completed n u)) := by
  obtain ⟨hrest, hstatus⟩ := h
  have hbus : u.bus = t.bus := by rw [hrest]
  have hcycles : u.cycles = t.cycles := by rw [hrest]
  have hregs : u.regs = { t.regs with p := u.p } := by rw [hrest]; rfl
  exact ⟨hbus, congrArg (· + n) hcycles, ⟨rfl, rfl, rfl⟩, ⟨rfl, rfl, rfl⟩, hregs, hstatus⟩

theorem handlerOps_pushP {t : InstrType} {md : Mode} (h : MicroOp.pushP ∈ handlerOps t md) :
    t = .php ∨ t = .brk := by
  cases t
  case php => exact .inl rfl
  case brk => exact .inr rfl
  case asl | lsr | rol | ror => by_cases hm : md = .acc <;> simp [handlerOps, hm] at h
  all_goals simp [handlerOps] at h

theorem pushP_not_mem_buildQueue {i : Instr} (hphp : i ≠ .php) (hbrk : i ≠ .brk) :
    MicroOp.pushP ∉ buildQueue i.type i.mode := by
  intro h
  rcases mem_buildQueue h with hk | hk
  · exact absurd hk (by decide)
  · rcases handlerOps_pushP hk with ht | ht
    · exact hphp (Instr.eq_of_type_eq (by decide) ht)
    · exact hbrk (Instr.eq_of_type_eq (by decide) ht)

theorem exec_sameButFlag {i : Instr} {f : Flag} (hw : i.wf = true) (hphp : i ≠ .php) (hbrk : i ≠ .brk)
    (hf : f = .d ∨ f = .i) {s : State} {p : Byte} (hp : OnlyFlags [f] s.p p) :
    SameOutcome (fun t u => SameButFlag f (.next t) (.next u)) (exec i s) (exec i { s with p := p }) := by
  obtain ⟨b, hop, -⟩ := Instr.opcode_of_wf hw
  cases hb : isBranch i.type with
  | false =>
    rw [exec_eq_performAll hop hb rfl, exec_eq_performAll hop hb rfl]
    have hload : DiffersInFlag f (loaded i b s) (loaded i b { s with p := p }) := ⟨rfl, hp⟩
    exact (performAll_differsInFlag hf (pushP_not_mem_buildQueue hphp hbrk) hload).bind
      fun t u htu => .next (htu.sameButFlag_completed _)
  | true =>
    obtain ⟨g, test, b1, hd, hi, -, hrun⟩ := exec_branch hop hb
    rw [hrun, hrun]
    simp only [hp.getFlag_of_ne hf hd hi]
    exact .next (DiffersInFlag.sameButFlag_completed ⟨rfl, hp⟩ _)

/-- Settles O55: no micro-op of the queue pushes P, so the two runs differ in that flag all along. -/
theorem decimalAndInterruptFlagsHaveNoEffect : Obligations.DecimalAndInterruptFlagsHaveNoEffect := by
  unfold Obligations.DecimalAndInterruptFlagsHaveNoEffect
  intro i s f v hw hphp hbrk hf
  have hp : OnlyFlags [f] s.p (setFlag f v s.p) :=
    (OnlyFlags.refl _ _).setFlag_right (List.mem_singleton_self f) v
  rcases exec_sameButFlag hw hphp hbrk hf hp with ⟨t, u, ht, hu, htu⟩ | ⟨e, ht, hu⟩ <;> rw [ht, hu]
  · exact htu
  · exact rfl

end Sys2Proof.Machine

/-! PROOFS. The images of P (10_state.md R37), the state after reset (R49), and what the host's power_on and
reset leave (70_reset_and_hazards.md R391, R392): both change the core and then read PC from the reset vector. -/

namespace Sys2Proof.Machine

/-- Settles O6: the mask 0x30 is the bits 4 and 5, and 0xCF all but these. -/
theorem pushAndPullImages : Obligations.PushAndPullImages := by
  unfold Obligations.PushAndPullImages
  intro b k hk
  simp only [pushImage, pullImage, BitVec.getLsbD_or, BitVec.getLsbD_and]
  interval_cases k <;> simp

/-- Settles O14: a boundary with the bits 5 and 4 of 0x24, over memory with nothing listed. -/
theorem resetHasInvariant : Obligations.ResetHasInvariant := by
  unfold Obligations.ResetHasInvariant
  have hb : State.reset.boundary := ⟨rfl, rfl, rfl⟩
  exact ⟨⟨hb.slotsOk, ⟨rfl, rfl⟩, rfl⟩, hb⟩

/-- A word read leaves every byte of memory as it was. -/
theorem peek_of_readWord {s t : State} {v a : Addr} {r : Addr × Bus} (h : s.bus.readWord v = .next r)
    (ht : t.bus = r.2) : t.peek a = s.peek a :=
  Bus.ChangedOnlyAt.peek_eq (l := []) (ht ▸ Bus.readWord_changedOnlyAt h) nofun

/-- Settles O57: the vector read is the only access, so its bus is the bus left and its fault the outcome. -/
theorem powerOnSetsEverything : Obligations.PowerOnSetsEverything := by
  unfold Obligations.PowerOnSetsEverything
  refine ⟨fun _ => rfl, fun cfg s => ⟨fun pc b h => ?_, fun f h => ?_⟩⟩
  · have hv : s.bus.readWord Config.resetVector = .next (pc, b) := h
    simp only [powerOn, hv, andThen_next]
    exact ⟨_, rfl, rfl, ⟨rfl, rfl, rfl⟩, rfl, rfl, fun a => peek_of_readWord h rfl, rfl⟩
  · have hv : s.bus.readWord Config.resetVector = .fault f := h
    simp only [powerOn, hv, andThen_fault]

/-- Settles O58: the same read, after SP, I, the slots and the queue were changed. -/
theorem resetKeepsRegisters : Obligations.ResetKeepsRegisters := by
  unfold Obligations.ResetKeepsRegisters
  refine fun s => ⟨fun pc b h => ?_, fun f h => ?_⟩
  · have hv : s.bus.readWord Config.resetVector = .next (pc, b) := h
    have honly : OnlyFlags [.i] s.p (setFlag .i true s.p) :=
      (OnlyFlags.refl _ _).setFlag_right (List.mem_singleton_self _) true
    simp only [hostReset, hv, andThen_next]
    exact ⟨_, rfl, rfl, getFlag_setFlag .i true s.p, honly, ⟨rfl, rfl, rfl⟩, rfl, rfl,
      fun a => peek_of_readWord h rfl, rfl⟩
  · have hv : s.bus.readWord Config.resetVector = .fault f := h
    simp only [hostReset, hv, andThen_fault]

/-- Settles O60: power_on sets every field but the bus, the sink and the latches, which are given; its word read
of the blank bus answers 0 and logs the two accesses of `State.reset`. -/
theorem resetStateIsPowerOn : Obligations.ResetStateIsPowerOn := by
  unfold Obligations.ResetStateIsPowerOn
  intro s l hbus hsink hins hea hm hsv hret
  have hv : s.bus.readWord Config.resetVector = .next (0x0000, State.reset.bus) := by rw [hbus]; rfl
  simp only [powerOn, hv, andThen_next, hsink, hins, hea, hm, hsv, hret]
  rfl

end Sys2Proof.Machine

/-! PROOFS. What memory holds after a run of bus accesses (20_memory.md R60, R61, R64, R72, R77): exactly the
writes made, in order (`Bus.Wrote`). Every instruction makes the writes that `writesOf` names, and
`load_program` those of its image; the frames of memory, and what a later fetch takes, follow from that. -/

namespace Sys2Proof.Machine

/-! ## One access -/

theorem Bus.read_rom {b : Bus} {a : Addr} (h : b.kindAt a = .rom) :
    b.read a =
      .next (b.mem.get (b.cellAt a), { b with log := .read a (b.mem.get (b.cellAt a)) :: b.log }) :=
  Bus.read_stored (by simp [Bus.stored, h])

theorem Bus.write_rom {b : Bus} {a : Addr} (v : Byte) (h : b.kindAt a = .rom) :
    b.write a v = .next { b with log := .write a v :: b.log } := by
  simp [Bus.write, h]

theorem Bus.read_device {b : Bus} {a : Addr} (h : b.kindAt a = .device) :
    b.read a =
      .next ((b.deviceRead (b.cellAt a)).1,
        { (b.deviceRead (b.cellAt a)).2 with
          log := .read a (b.deviceRead (b.cellAt a)).1 :: (b.deviceRead (b.cellAt a)).2.log }) := by
  simp [Bus.read, h, (b.deviceRead_frame _).2.2]

theorem Bus.write_device {b : Bus} {a : Addr} (v : Byte) (h : b.kindAt a = .device) :
    b.write a v = .next { b.deviceWrite (b.cellAt a) v with log := .write a v :: b.log } := by
  simp [Bus.write, h]

/-- An access at a mapped address is answered. -/
theorem Bus.access_of_mapped {b : Bus} {a : Addr} (v : Byte) (h : b.kindAt a ≠ .unmapped) :
    (∃ r, b.read a = .next r) ∧ ∃ b', b.write a v = .next b' := by
  cases hk : b.kindAt a with
  | memory => exact ⟨⟨_, Bus.read_memory hk⟩, _, Bus.write_memory v hk⟩
  | rom => exact ⟨⟨_, Bus.read_rom hk⟩, _, Bus.write_rom v hk⟩
  | device => exact ⟨⟨_, Bus.read_device hk⟩, _, Bus.write_device v hk⟩
  | unmapped => exact absurd hk h

/-- The byte a read of plain memory answers. -/
theorem Bus.read_value {b : Bus} {a : Addr} {r : Byte × Bus} (hk : b.kindAt a = .memory)
    (h : b.read a = .next r) : r.1 = b.mem.get (b.cellAt a) := by
  rw [Bus.read_memory hk] at h
  cases h
  rfl

/-! ## A run of writes -/

/-- Memory after a write is made on the map of `b`: only plain memory takes the byte. -/
def Bus.store (b : Bus) (mem : Memory) (w : Addr × Byte) : Memory :=
  if b.kindAt w.1 = .memory then mem.set (b.cellAt w.1) w.2 else mem

theorem Bus.store_congr {b b' : Bus} (h : b'.map = b.map) : b'.store = b.store := by
  funext mem w
  simp only [Bus.store, Bus.kindAt_congr h, Bus.cellAt_congr h]

theorem Bus.wf_store (b : Bus) {mem : Memory} (w : Addr × Byte) (h : mem.wf = true) :
    (b.store mem w).wf = true := by
  unfold Bus.store
  split
  · exact Memory.wf_set (b.cellAt_lt w.1) w.2 h
  · exact h

theorem Bus.get_store_of_ne (b : Bus) (mem : Memory) {w : Addr × Byte} {c : Nat} (h : c ≠ b.cellAt w.1) :
    (b.store mem w).get c = mem.get c := by
  unfold Bus.store
  split
  · exact Memory.get_set_ne mem w.2 h
  · rfl

theorem Bus.get_store_same (b : Bus) {mem : Memory} {w : Addr × Byte} (hw : mem.wf = true)
    (h : b.kindAt w.1 = .memory) : (b.store mem w).get (b.cellAt w.1) = w.2 := by
  rw [Bus.store, if_pos h]
  exact Memory.get_set_eq _ _ hw

theorem Bus.wf_foldl_store (b : Bus) {mem : Memory} (l : List (Addr × Byte)) (h : mem.wf = true) :
    (l.foldl b.store mem).wf = true := by
  induction l generalizing mem with
  | nil => exact h
  | cons w rest ih => exact ih (b.wf_store w h)

theorem Bus.get_foldl_store_of_ne (b : Bus) (mem : Memory) {l : List (Addr × Byte)} {c : Nat}
    (h : ∀ w ∈ l, c ≠ b.cellAt w.1) : (l.foldl b.store mem).get c = mem.get c := by
  induction l generalizing mem with
  | nil => rfl
  | cons w rest ih =>
    have hrest := ih (b.store mem w) fun w' hw' => h w' (List.mem_cons_of_mem w hw')
    exact hrest.trans (b.get_store_of_ne mem (h w List.mem_cons_self))

/-- From `b` to `b'` the map is kept, and memory is what the writes `l`, in order, make of it. -/
structure Bus.Wrote (l : List (Addr × Byte)) (b b' : Bus) : Prop where
  map : b'.map = b.map
  mem : b'.mem = l.foldl b.store b.mem

theorem Bus.wrote_nil {b b' : Bus} (h : b'.map = b.map ∧ b'.mem = b.mem) : b.Wrote [] b' := ⟨h.1, h.2⟩

theorem Bus.Wrote.trans {l l' : List (Addr × Byte)} {b b' b'' : Bus} (h : b.Wrote l b')
    (h' : b'.Wrote l' b'') : b.Wrote (l ++ l') b'' where
  map := h'.map.trans h.map
  mem := by rw [h'.mem, h.mem, Bus.store_congr h.map, List.foldl_append]

/-- A write, named with any byte `w` that plain memory would be given: elsewhere no byte is stored. -/
theorem Bus.write_wrote {b b' : Bus} {a : Addr} {v w : Byte} (h : b.write a v = .next b')
    (hv : b.kindAt a = .memory → v = w) : b.Wrote [(a, w)] b' := by
  rcases Bus.write_cases h with ⟨hk, rfl⟩ | ⟨hk, rfl⟩ | ⟨hk, rfl⟩
  · exact ⟨rfl, by simp [Bus.store, hk, hv hk]⟩
  · exact ⟨rfl, by simp [Bus.store, hk]⟩
  · exact ⟨rfl, by simp [Bus.store, hk, Bus.deviceWrite]⟩

theorem Bus.Wrote.changedOnlyAt {l : List (Addr × Byte)} {b b' : Bus} (h : b.Wrote l b') :
    b.ChangedOnlyAt (l.map Prod.fst) b' where
  map := h.map
  mem c hc := by
    rw [h.mem]
    exact b.get_foldl_store_of_ne b.mem fun w hw => hc w.1 (List.mem_map_of_mem hw)

/-- The last write to a cell is the byte it holds. -/
theorem Bus.Wrote.get_of_last {before after : List (Addr × Byte)} {a : Addr} {v : Byte} {b b' : Bus}
    (h : b.Wrote (before ++ (a, v) :: after) b') (hw : b.mem.wf = true) (hk : b.kindAt a = .memory)
    (hlast : ∀ w ∈ after, b.cellAt w.1 ≠ b.cellAt a) : b'.mem.get (b.cellAt a) = v := by
  rw [h.mem, List.foldl_append, List.foldl_cons,
    b.get_foldl_store_of_ne _ fun w hw' => (hlast w hw').symm]
  exact b.get_store_same (b.wf_foldl_store before hw) hk

/-! ## The micro-ops that store nothing -/

theorem execBody_bus {t : InstrType} {s u : State} (h : execBody t s = .next u) : u.bus = s.bus := by
  cases hb : isBranch t with
  | true =>
    obtain ⟨f, test, -, -, hexec⟩ := execBody_branch hb
    rw [hexec] at h
    cases h
    unfold branch
    split <;> rfl
  | false =>
    cases t
    case bpl | bmi | bvc | bvs | bcc | bcs | bne | beq => cases hb
    all_goals cases h <;> rfl

theorem modifyBody_bus {t : InstrType} {s u : State} (h : modifyBody t s = .next u) : u.bus = s.bus := by
  cases t <;> cases h <;> rfl

/-- Resolve makes at most the pointer reads of its mode. -/
theorem resolve_wrote {s t : State} (h : resolve s = .next t) : s.bus.Wrote [] t.bus := by
  simp only [resolve, andThen_eq_next] at h
  obtain ⟨u, hu, ht⟩ := h
  cases ht
  rw [stage_bus]
  generalize s.ins.2 = md at hu
  generalize s.opnds = l at hu
  cases md
  case imp | none | acc => cases hu; exact ⟨rfl, rfl⟩
  case imm =>
    simp only [resolveMode] at hu
    split at hu <;> cases hu
    exact ⟨rfl, rfl⟩
  all_goals
    simp only [resolveMode, andThen_eq_next] at hu
    obtain ⟨r, hr, hu⟩ := hu
    cases hu
    exact Bus.wrote_nil (effAddr_frame hr)

theorem pull_wrote {s : State} {r : Byte × State} (h : pull s = .next r) : s.bus.Wrote [] r.2.bus := by
  simp only [pull, andThen_eq_next] at h
  obtain ⟨v, hv, hr⟩ := h
  cases hr
  exact Bus.wrote_nil (Bus.read_frame hv)

/-- The micro-ops that make a bus write (41_scheduler.md R163, R164). -/
def writers : List MicroOp := [.write, .pushA, .pushP, .pushPCH, .pushPCL]

theorem perform_wrote_of_not_writer {k : MicroOp} {s t : State} (hk : k ∉ writers)
    (h : perform k s = .next t) : s.bus.Wrote [] t.bus := by
  cases k
  case write | pushA | pushP | pushPCH | pushPCL => exact absurd (by decide) hk
  case resolve => exact resolve_wrote h
  case exec => exact Bus.wrote_nil (by simp [execBody_bus h])
  case modify => exact Bus.wrote_nil (by simp [modifyBody_bus h])
  case idle | jump | incPC => cases h; exact ⟨rfl, rfl⟩
  case read =>
    simp only [perform, doRead, andThen_eq_next] at h
    obtain ⟨r, hr, ht⟩ := h
    cases ht
    exact Bus.wrote_nil (Bus.read_frame hr)
  case vector =>
    simp only [perform, doVector, andThen_eq_next] at h
    obtain ⟨r, hr, ht⟩ := h
    cases ht
    exact Bus.wrote_nil (Bus.readWord_frame hr)
  case pullA | pullP | pullPCL | pullPCH =>
    simp only [perform, doPullA, doPullP, doPullPCL, doPullPCH, andThen_eq_next] at h
    obtain ⟨r, hr, ht⟩ := h
    cases ht
    exact pull_wrote hr

theorem performAll_wrote_of_no_writer {l : List MicroOp} {s t : State} (hl : ∀ k ∈ l, k ∉ writers)
    (h : performAll l s = .next t) : s.bus.Wrote [] t.bus := by
  induction l generalizing s with
  | nil => cases h; exact ⟨rfl, rfl⟩
  | cons k rest ih =>
    simp only [performAll, andThen_eq_next] at h
    obtain ⟨u, hu, h⟩ := h
    exact (perform_wrote_of_not_writer (hl k List.mem_cons_self) hu).trans
      (ih (fun k' hk' => hl k' (List.mem_cons_of_mem k hk')) h)

/-- No writer stands in the queue of a form that stores nothing (41_scheduler.md R178). -/
theorem not_writer_of_storesNothing {i : Instr} (h : storesNothing i = true) :
    ∀ k ∈ buildQueue i.type i.mode, k ∉ writers := by
  have hall : (buildQueue i.type i.mode).all (fun k => !writers.contains k) = true := by
    cases i
    case asl o | lsr o | rol o | ror o =>
      obtain rfl : o = .acc := of_decide_eq_true h
      rfl
    case sta | stx | sty | inc | dec | jsr | brk | pha | php => cases h
    case lda o | ldx o | ldy o | adc o | sbc o | and o | ora o | eor o | cmp o | cpx o | cpy o | bit o | jmp o =>
      cases o <;> rfl
    all_goals rfl
  intro k hk
  simpa using List.all_eq_true.mp hall k hk

theorem exec_wrote_of_storesNothing {i : Instr} {s t : State} (hn : storesNothing i = true)
    (h : exec i s = .next t) : s.bus.Wrote [] t.bus := by
  obtain ⟨b, hop, -⟩ := opcode_of_exec h
  cases hb : isBranch i.type with
  | false =>
    rw [exec_eq_performAll hop hb rfl, andThen_eq_next] at h
    obtain ⟨u, hu, ht⟩ := h
    cases ht
    exact performAll_wrote_of_no_writer (s := loaded i b s) (t := u) (not_writer_of_storesNothing hn) hu
  | true =>
    obtain ⟨f, test, b1, -, -, -, hrun⟩ := exec_branch hop hb
    rw [hrun] at h
    cases h
    exact ⟨rfl, rfl⟩

/-! ## The stores and the read-modify-write forms -/

theorem aslFn_result (m : Byte) (c : Bool) : (aslFn m c).1 = BitVec.ofNat 8 (m.toNat * 2) :=
  BitVec.eq_of_toNat_eq (by simp [aslFn, Nat.shiftLeft_eq])

theorem lsrFn_result (m : Byte) (c : Bool) : (lsrFn m c).1 = BitVec.ofNat 8 (m.toNat / 2) :=
  BitVec.eq_of_toNat_eq (by simp [lsrFn, Nat.shiftRight_eq_div_pow]; omega)

theorem rolFn_result (m : Byte) (c : Bool) :
    (rolFn m c).1 = BitVec.ofNat 8 (m.toNat * 2 + c.toNat) := by
  revert m c; decide +kernel

theorem rorFn_result (m : Byte) (c : Bool) :
    (rorFn m c).1 = BitVec.ofNat 8 (m.toNat / 2 + c.toNat * 128) := by
  revert m c; decide +kernel

/-- Instruction `i` is a store with the operand `o`: Resolve stages the register that `reg` picks, and Write
stores it. -/
structure IsStore (i : Instr) (o : Operand) (reg : Regs → Byte) : Prop where
  mode : i.mode = o.mode
  bytes : i.operandBytes = o.bytes
  notBranch : isBranch i.type = false
  access : accessClass i.type o.mode = .store
  ops : handlerOps i.type o.mode = []
  stages : ∀ u, stage i.type u = { u with sv := reg u.regs }
  inMem : inMemory o = true
  byte : ∀ s m, storedByte i s m = reg s.regs

/-- Instruction `i` reads, modifies by `body` and writes back the location of the operand `o`. -/
structure IsRmw (i : Instr) (o : Operand) (body : State → State) : Prop where
  mode : i.mode = o.mode
  bytes : i.operandBytes = o.bytes
  notBranch : isBranch i.type = false
  access : accessClass i.type o.mode = .rmw
  ops : handlerOps i.type o.mode = [.modify, .write]
  stages : ∀ u, stage i.type u = u
  modifies : ∀ u, modifyBody i.type u = .next (body u)
  reads : addrOps o.mode .rmw ≠ []
  frame : ∀ u, (body u).ea = u.ea ∧ (body u).bus = u.bus
  byte : ∀ s u : State, u.p = s.p → (body u).sv = storedByte i s u.m

/-- The operand of a store that has an opcode names a memory location. -/
theorem inMemory_of_store {i : Instr} {o : Operand} {b : Byte} (hi : i = .sta o ∨ i = .stx o ∨ i = .sty o)
    (hop : i.opcode? = some b) : inMemory o = true := by
  rcases hi with rfl | rfl | rfl <;> cases o <;> first | rfl | cases hop

/-- The operand of a read-modify-write form that has an opcode is read. -/
theorem addrOps_rmw_ne_nil {i : Instr} {o : Operand} {b : Byte}
    (hi : i = .inc o ∨ i = .dec o ∨ (o ≠ .acc ∧ (i = .asl o ∨ i = .lsr o ∨ i = .rol o ∨ i = .ror o)))
    (hop : i.opcode? = some b) : addrOps o.mode .rmw ≠ [] := by
  rcases hi with rfl | rfl | ⟨hacc, rfl | rfl | rfl | rfl⟩ <;> cases o <;>
    first | exact absurd rfl hacc | exact List.cons_ne_nil _ _ | cases hop

/-- The shift and rotate forms in memory, from the function of the shift. -/
theorem isRmw_of_shift {i : Instr} {o : Operand} {b : Byte} {f : Byte → Bool → Byte × Bool}
    (hi : i = .asl o ∨ i = .lsr o ∨ i = .rol o ∨ i = .ror o) (hacc : o ≠ .acc) (hop : i.opcode? = some b)
    (hf : ∀ u, modifyBody i.type u = .next (shiftModify f u))
    (hbyte : ∀ s m, (f m (getFlag .c s.p)).1 = storedByte i s m) : IsRmw i o (shiftModify f) := by
  have hm : o.mode ≠ .acc := by cases o <;> first | exact absurd rfl hacc | exact Mode.noConfusion
  have hr := addrOps_rmw_ne_nil (.inr (.inr ⟨hacc, hi⟩)) hop
  have hb : ∀ s u : State, u.p = s.p → (shiftModify f u).sv = storedByte i s u.m :=
    fun s u hp => (congrArg (fun p => (f u.m (getFlag .c p)).1) hp).trans (hbyte s u.m)
  rcases hi with rfl | rfl | rfl | rfl <;>
    exact ⟨rfl, rfl, rfl, if_neg hm, if_neg hm, fun _ => rfl, hf, hr, fun _ => ⟨rfl, rfl⟩, hb⟩

/-- A form that stores to its operand's address is a store or a read-modify-write form. -/
theorem isStore_or_isRmw {i : Instr} {o : Operand} {b : Byte} (ho : storeOperand i = some o)
    (hop : i.opcode? = some b) : (∃ reg, IsStore i o reg) ∨ ∃ body, IsRmw i o body := by
  cases i
  case sta o' =>
    cases ho
    exact .inl ⟨Regs.a, rfl, rfl, rfl, rfl, rfl, fun _ => rfl, inMemory_of_store (.inl rfl) hop,
      fun _ _ => rfl⟩
  case stx o' =>
    cases ho
    exact .inl ⟨Regs.x, rfl, rfl, rfl, rfl, rfl, fun _ => rfl, inMemory_of_store (.inr (.inl rfl)) hop,
      fun _ _ => rfl⟩
  case sty o' =>
    cases ho
    exact .inl ⟨Regs.y, rfl, rfl, rfl, rfl, rfl, fun _ => rfl, inMemory_of_store (.inr (.inr rfl)) hop,
      fun _ _ => rfl⟩
  case inc o' =>
    cases ho
    exact .inr ⟨incBody, rfl, rfl, rfl, rfl, rfl, fun _ => rfl, fun _ => rfl,
      addrOps_rmw_ne_nil (.inl rfl) hop, fun _ => ⟨rfl, rfl⟩, fun _ _ _ => rfl⟩
  case dec o' =>
    cases ho
    exact .inr ⟨decBody, rfl, rfl, rfl, rfl, rfl, fun _ => rfl, fun _ => rfl,
      addrOps_rmw_ne_nil (.inr (.inl rfl)) hop, fun _ => ⟨rfl, rfl⟩, fun _ _ _ => rfl⟩
  case asl o' =>
    obtain ⟨hacc, rfl⟩ : o' ≠ .acc ∧ o' = o := by simpa [storeOperand] using ho
    exact .inr ⟨_, isRmw_of_shift (f := aslFn) (.inl rfl) hacc hop (fun _ => rfl)
      fun _ m => aslFn_result m _⟩
  case lsr o' =>
    obtain ⟨hacc, rfl⟩ : o' ≠ .acc ∧ o' = o := by simpa [storeOperand] using ho
    exact .inr ⟨_, isRmw_of_shift (f := lsrFn) (.inr (.inl rfl)) hacc hop (fun _ => rfl)
      fun _ m => lsrFn_result m _⟩
  case rol o' =>
    obtain ⟨hacc, rfl⟩ : o' ≠ .acc ∧ o' = o := by simpa [storeOperand] using ho
    exact .inr ⟨_, isRmw_of_shift (f := rolFn) (.inr (.inr (.inl rfl))) hacc hop (fun _ => rfl)
      fun _ m => rolFn_result m _⟩
  case ror o' =>
    obtain ⟨hacc, rfl⟩ : o' ≠ .acc ∧ o' = o := by simpa [storeOperand] using ho
    exact .inr ⟨_, isRmw_of_shift (f := rorFn) (.inr (.inr (.inr rfl))) hacc hop (fun _ => rfl)
      fun _ m => rorFn_result m _⟩
  all_goals cases ho

theorem exec_wrote_of_isStore {i : Instr} {o : Operand} {reg : Regs → Byte} {b : Byte} {s t : State}
    (hi : IsStore i o reg) (hop : i.opcode? = some b) (h : exec i s = .next t) :
    ∃ r, operandAddr o s = .next r ∧ s.bus.Wrote [(r.1, storedByte i s (s.peek r.1))] t.bus := by
  rw [exec_eq_runInstr, runInstr_store hop hi.mode hi.bytes hi.notBranch hi.access hi.ops hi.stages
    hi.inMem, andThen_eq_next] at h
  obtain ⟨r, hr, h⟩ := h
  obtain ⟨b', hb', ht⟩ := (andThen_eq_next _ _ _).mp h
  cases ht
  refine ⟨r, hr, (Bus.wrote_nil (effAddr_frame hr)).trans (Bus.write_wrote hb' fun _ => ?_)⟩
  exact (hi.byte s _).symm

theorem exec_wrote_of_isRmw {i : Instr} {o : Operand} {body : State → State} {b : Byte} {s t : State}
    (hi : IsRmw i o body) (hop : i.opcode? = some b) (h : exec i s = .next t) :
    ∃ r, operandAddr o s = .next r ∧ s.bus.Wrote [(r.1, storedByte i s (s.peek r.1))] t.bus := by
  rw [exec_eq_runInstr, runInstr_rmw hop hi.mode hi.bytes hi.notBranch hi.access hi.ops hi.stages
    hi.modifies hi.reads hi.frame, andThen_eq_next] at h
  obtain ⟨r, hr, h⟩ := h
  obtain ⟨m, hm, h⟩ := (andThen_eq_next _ _ _).mp h
  obtain ⟨b', hb', ht⟩ := (andThen_eq_next _ _ _).mp h
  cases ht
  obtain ⟨hmap, hmem⟩ := effAddr_frame hr
  obtain ⟨hmap', hmem'⟩ := Bus.read_frame hm
  refine ⟨r, hr, (Bus.wrote_nil ⟨hmap, hmem⟩).trans ((Bus.wrote_nil ⟨hmap', hmem'⟩).trans
    (Bus.write_wrote hb' fun hk => ?_))⟩
  rw [Bus.kindAt_congr hmap'] at hk
  have hpeek : m.1 = s.peek r.1 := by
    rw [Bus.read_value hk hm, hmem, Bus.cellAt_congr hmap]
    rfl
  exact (hi.byte s { loaded i b s with ea := r.1, m := m.1, bus := m.2 } rfl).trans
    (congrArg (storedByte i s) hpeek)

/-! ## The writes of every instruction -/

theorem push_wrote {v : Byte} {s t : State} (h : push v s = .next t) :
    t.sp = s.sp - 1 ∧ t.ret = s.ret ∧ t.p = s.p ∧ s.bus.Wrote [(stackAddr s.sp, v)] t.bus := by
  simp only [push, andThen_eq_next] at h
  obtain ⟨b, hb, ht⟩ := h
  cases ht
  exact ⟨rfl, rfl, rfl, Bus.write_wrote hb fun _ => rfl⟩

/-- The high and then the low byte of the return-address latch. -/
theorem pushRet_wrote {s t u : State} (ht : doPushPCH s = .next t) (hu : doPushPCL t = .next u) :
    u.sp = s.sp - 2 ∧ u.p = s.p ∧
      s.bus.Wrote [(stackAddr s.sp, hi8 s.ret), (stackAddr (s.sp - 1), lo8 s.ret)] u.bus := by
  obtain ⟨hsp, hret, hp, hpch⟩ := push_wrote ht
  obtain ⟨hsp', -, hp', hpcl⟩ := push_wrote hu
  rw [hsp] at hsp'
  rw [hsp, hret] at hpcl
  exact ⟨hsp'.trans (by bv_omega), hp'.trans hp, hpch.trans hpcl⟩

theorem takeTrap_wrote {s t : State} (h : takeTrap s = .next t) :
    s.bus.Wrote [(stackAddr s.sp, hi8 s.ret), (stackAddr (s.sp - 1), lo8 s.ret),
      (stackAddr (s.sp - 2), pushImage s.p)] t.bus := by
  simp only [takeTrap, andThen_eq_next] at h
  obtain ⟨s1, h1, s2, h2, s3, h3, h4⟩ := h
  obtain ⟨hsp, hp, hret⟩ := pushRet_wrote h1 h2
  obtain ⟨-, -, -, hstatus⟩ := push_wrote h3
  rw [hsp, hp] at hstatus
  exact (hret.trans hstatus).trans (perform_wrote_of_not_writer (k := .vector) (by decide) h4)

theorem pushing_of_not_storesNothing {i : Instr} (ho : storeOperand i = none)
    (hn : ¬ storesNothing i = true) : i = .pha ∨ i = .php ∨ (∃ w, i = .jsr w) ∨ i = .brk := by
  cases i
  case pha => exact .inl rfl
  case php => exact .inr (.inl rfl)
  case jsr w => exact .inr (.inr (.inl ⟨w, rfl⟩))
  case brk => exact .inr (.inr (.inr rfl))
  case sta | stx | sty | inc | dec => cases ho
  case asl o | lsr o | rol o | ror o =>
    have hacc : o ≠ .acc := fun e => hn (decide_eq_true e)
    exact absurd ho (by simp [storeOperand, hacc])
  all_goals exact absurd rfl hn

theorem writesOf_of_storesNothing {i : Instr} (s : State) (h : storesNothing i = true) :
    writesOf i s = [] := by
  cases i
  case asl o | lsr o | rol o | ror o =>
    obtain rfl : o = .acc := of_decide_eq_true h
    rfl
  case sta | stx | sty | inc | dec | jsr | brk | pha | php => cases h
  all_goals rfl

/-- Every instruction that ends in a next state makes the writes that `writesOf` names, and no other
(20_memory.md R64). -/
theorem exec_wrote {i : Instr} {s t : State} (h : exec i s = .next t) :
    s.bus.Wrote (writesOf i s) t.bus := by
  by_cases hn : storesNothing i = true
  · rw [writesOf_of_storesNothing s hn]
    exact exec_wrote_of_storesNothing hn h
  cases ho : storeOperand i with
  | some o =>
    obtain ⟨b, hop, -⟩ := opcode_of_exec h
    obtain ⟨r, hr, hw⟩ : ∃ r, operandAddr o s = .next r ∧
        s.bus.Wrote [(r.1, storedByte i s (s.peek r.1))] t.bus := by
      rcases isStore_or_isRmw ho hop with ⟨reg, hi⟩ | ⟨body, hi⟩
      · exact exec_wrote_of_isStore hi hop h
      · exact exec_wrote_of_isRmw hi hop h
    simpa only [writesOf, ho, hr] using hw
  | none =>
    rcases pushing_of_not_storesNothing ho hn with rfl | rfl | ⟨w, rfl⟩ | rfl
    · rw [exec_pha, andThen_eq_next] at h
      obtain ⟨u, hu, ht⟩ := h
      cases ht
      exact (push_wrote hu).2.2.2
    · rw [exec_php, andThen_eq_next] at h
      obtain ⟨u, hu, ht⟩ := h
      cases ht
      exact (push_wrote hu).2.2.2
    · simp only [exec_jsr, andThen_eq_next] at h
      obtain ⟨u, hu, v, hv, ht⟩ := h
      cases ht
      exact (pushRet_wrote hu hv).2.2
    · rw [exec_brk, andThen_eq_next] at h
      obtain ⟨u, hu, ht⟩ := h
      cases ht
      exact takeTrap_wrote hu

/-- Settles O50: such a form makes no write. -/
theorem nonStoringFormsLeaveMemory : Obligations.NonStoringFormsLeaveMemory := by
  unfold Obligations.NonStoringFormsLeaveMemory
  intro i s t hn h a
  have hw := exec_wrote h
  rw [writesOf_of_storesNothing s hn] at hw
  exact hw.changedOnlyAt.peek_eq nofun

/-- Settles O51: the one write is at the effective address. -/
theorem storingFormsWriteOneByte : Obligations.StoringFormsWriteOneByte := by
  unfold Obligations.StoringFormsWriteOneByte
  intro i o s t ho h ea b hea a hne
  have hw := exec_wrote h
  simp only [writesOf, ho, hea] at hw
  exact hw.changedOnlyAt.peek_eq (by simpa using hne)

/-! ## What a fetch takes -/

/-- A fetch where the byte at PC is stored (41_scheduler.md R166). -/
theorem fetchByte_of_stored {u : State} (h : u.bus.stored u.pc = true) :
    ∃ f, fetchByte u = .next f ∧ f.pc = u.pc + 1 ∧
      (u.op = none → f.op = some (u.peek u.pc)) ∧
      (u.op ≠ none → f.op = u.op ∧ f.opnds = u.opnds ++ [u.peek u.pc]) := by
  simp only [fetchByte, Bus.read_stored h, andThen_next]
  cases hop : u.op with
  | none => exact ⟨_, rfl, rfl, fun _ => rfl, fun hne => absurd rfl hne⟩
  | some b => exact ⟨_, rfl, rfl, nofun, fun _ => ⟨rfl, rfl⟩⟩

/-- Settles O56: the byte is the last write to its cell, so that cell holds it, and the fetch reads the cell. -/
theorem storeIsSeenByTheNextFetch : Obligations.StoreIsSeenByTheNextFetch := by
  unfold Obligations.StoreIsSeenByTheNextFetch
  intro i s t u a v before after hwf h hwrites hk hlast hmap hmem hstored hcell
  have hw := exec_wrote h
  rw [hwrites] at hw
  have hv : u.peek u.pc = v := by
    rw [State.peek, hcell, hmem]
    exact hw.get_of_last hwf hk hlast
  exact hv ▸ fetchByte_of_stored hstored

end Sys2Proof.Machine

/-! PROOFS. What one access answers (20_memory.md R60 to R63, R69, R74), in the bus, in a word read and in a
tick; and the image that load_program writes (R72, 70_reset_and_hazards.md R395). -/

namespace Sys2Proof.Machine

/-! ## Accesses -/

/-- Settles O9: a word read is its two reads in a row. -/
theorem wordReadIsLittleEndian : Obligations.WordReadIsLittleEndian := by
  unfold Obligations.WordReadIsLittleEndian
  refine fun b a => ⟨fun lo b1 hi b2 hlo hhi => ?_, fun f hlo => ?_, fun r f hlo hhi => ?_⟩
  · refine ⟨cat hi lo, ?_, cat_toNat hi lo, by simp⟩
    simp only [Bus.readWord, hlo, hhi, andThen_next]
  · simp only [Bus.readWord, hlo, andThen_fault]
  · simp only [Bus.readWord, hlo, hhi, andThen_next, andThen_fault]

/-- A byte written to plain memory is read at every address that stores and names its cell. -/
theorem Bus.read_of_write {b b' : Bus} {a c : Addr} {v : Byte} (hw : b.mem.wf = true)
    (hk : b.kindAt a = .memory) (h : b.write a v = .next b') (hc : b.cellAt c = b.cellAt a)
    (hs : b.stored c = true) : ∃ b2, b'.read c = .next (v, b2) := by
  have hwrote : b.Wrote ([] ++ [(a, v)]) b' := Bus.write_wrote h fun _ => rfl
  have hs' : b'.stored c = true := by simpa only [Bus.stored, Bus.kindAt_congr hwrote.map] using hs
  have hv : b'.mem.get (b'.cellAt c) = v := by
    rw [Bus.cellAt_congr hwrote.map, hc]
    exact hwrote.get_of_last hw hk nofun
  exact ⟨_, hv ▸ Bus.read_stored hs'⟩

/-- Settles O7: the access of each kind, and for plain memory what the write leaves. -/
theorem readAfterWrite : Obligations.ReadAfterWrite := by
  unfold Obligations.ReadAfterWrite
  refine fun b a v => ⟨fun b' hw hk h => ?_, fun hk => ⟨Bus.read_rom hk, Bus.write_rom v hk⟩,
    fun r u hk hr hu => ?_, fun hk hr => ?_, fun hk => Bus.write_device v hk⟩
  · obtain ⟨hmap, hdraws, hmem⟩ := Bus.write_frame h
    have hb' := Bus.write_memory v hk
    rw [h] at hb'
    refine ⟨Bus.write_wf h hw, hmap, ?_, hdraws, ?_, fun c => Bus.read_of_write hw hk h, fun c hc => ?_⟩
    · cases hb'; rfl
    · cases hb'; rfl
    · rw [Bus.cellAt_congr hmap]
      exact hmem _ hc
  · rw [Bus.read_device hk, Bus.deviceRead_defined hr hu]
    rfl
  · simp only [Bus.read_device hk, Bus.deviceRead, hr, Device.goto]

/-! ## Faults -/

/-- A micro-op within the budget, at the head of the queue, that faults ends the execute step. -/
theorem executeStep_of_head_fault {limit : Nat} {s : State} {k : MicroOp} {rest : List MicroOp} {f : Fault}
    (hq : s.q = k :: rest) (hc : cost k < limit) (h : perform k { s with q := rest } = .fault f) :
    executeStep limit s = .fault f := by
  simp only [executeStep, drain, hq, Nat.zero_add, hc, if_true, h, andThen_fault]

theorem fetchByte_of_unmapped {s : State} (h : s.bus.kindAt s.pc = .unmapped) :
    fetchByte s = .fault (.busFault s.pc) := by
  simp only [fetchByte, Bus.read_unmapped h, andThen_fault]

theorem buildQueue_eq_cons (t : InstrType) (md : Mode) :
    buildQueue t md = .resolve :: (buildQueue t md).tail := by
  unfold buildQueue staticOps
  split <;> rfl

/-- Settles O8: only the unmapped kind faults, and every sequence of the tick passes a fault on. -/
theorem unmappedAccessFaults : Obligations.UnmappedAccessFaults := by
  unfold Obligations.UnmappedAccessFaults
  refine ⟨fun b a v h => ⟨Bus.read_unmapped h, Bus.write_unmapped v h⟩,
    fun b a v h => Bus.access_of_mapped v h, fun s hq h => ⟨?_, ?_⟩, fun s k rest f hq h => ?_,
    fun s u f hq hu hc h => ?_⟩
  · simp only [tick, hq, List.isEmpty_nil, if_true, fetchByte_of_unmapped h, andThen_fault]
  · simp only [step, hq, List.isEmpty_nil, if_true, maxLength, fetchPhase, fetchByte_of_unmapped h,
      andThen_fault]
  · rw [tick_queued s (by simp [hq])]
    exact executeStep_of_head_fault hq (Nat.lt_succ_of_le (cost_le_one k)) h
  · simp only [tick, hq, List.isEmpty_nil, if_true, hu, andThen_next, hc]
    exact executeStep_of_head_fault (buildQueue_eq_cons _ _) Nat.one_pos h

/-! ## The image of load_program -/

/-- The writes of `bytes`, the first of them at `base +16 n`. -/
def imageWrites (base : Addr) (n : Nat) (bytes : List Byte) : List (Addr × Byte) :=
  (bytes.zipIdx n).map fun vk => (base + BitVec.ofNat 16 vk.2, vk.1)

theorem Bus.writeAll_wrote {b : Bus} {base : Addr} {n : Nat} {bytes : List Byte}
    (hk : ∀ w ∈ imageWrites base n bytes, b.kindAt w.1 = .memory) :
    ∃ b', b.writeAll (base + BitVec.ofNat 16 n) bytes = .next b' ∧ b.Wrote (imageWrites base n bytes) b' := by
  induction bytes generalizing b n with
  | nil => exact ⟨b, rfl, rfl, rfl⟩
  | cons v rest ih =>
    have hcons : imageWrites base n (v :: rest) =
        (base + BitVec.ofNat 16 n, v) :: imageWrites base (n + 1) rest := rfl
    rw [hcons] at hk ⊢
    have hwrite := Bus.write_memory v (hk _ List.mem_cons_self)
    have hwrote := Bus.write_wrote hwrite fun _ => rfl
    obtain ⟨b', hb', hrest⟩ := ih fun w hw =>
      (Bus.kindAt_congr hwrote.map w.1).trans (hk w (List.mem_cons_of_mem _ hw))
    have hnext : base + BitVec.ofNat 16 n + 1 = base + BitVec.ofNat 16 (n + 1) := by
      rw [BitVec.add_assoc, BitVec.ofNat_add]; rfl
    refine ⟨b', ?_, hwrote.trans hrest⟩
    rw [Bus.writeAll, hwrite, andThen_next, hnext, hb']

theorem mem_imageWrites {base : Addr} {bytes : List Byte} {n : Nat} {w : Addr × Byte}
    (h : w ∈ imageWrites base n bytes) :
    ∃ k, n ≤ k ∧ k < n + bytes.length ∧ w.1 = base + BitVec.ofNat 16 k := by
  obtain ⟨⟨v, k⟩, hvk, rfl⟩ := List.mem_map.mp h
  exact ⟨k, List.le_snd_of_mem_zipIdx hvk, by have := List.snd_lt_add_of_mem_zipIdx hvk; omega, rfl⟩

/-- The writes of an image around that of its byte `k`. -/
theorem imageWrites_eq_append (base : Addr) {bytes : List Byte} {k : Nat} (hk : k < bytes.length) :
    imageWrites base 0 bytes =
      imageWrites base 0 (bytes.take k) ++
        (base + BitVec.ofNat 16 k, bytes.getD k 0) :: imageWrites base (k + 1) (bytes.drop (k + 1)) := by
  have hsplit : bytes = bytes.take k ++ bytes.getD k 0 :: bytes.drop (k + 1) := by
    rw [List.getD_eq_getElem _ _ hk, ← List.drop_eq_getElem_cons hk, List.take_append_drop]
  conv_lhs => rw [hsplit]
  simp [imageWrites, List.zipIdx_append, List.length_take, Nat.min_eq_left hk.le]

/-- Settles O59: the writes of the image are made in order, and byte `k` is the last of its cell. -/
theorem loadProgramWritesTheImage : Obligations.LoadProgramWritesTheImage := by
  unfold Obligations.LoadProgramWritesTheImage
  intro cfg bytes s hwf at_ hkind hcell
  have hmem : ∀ w ∈ imageWrites cfg.loadAddr 0 bytes, ∃ k < bytes.length, w.1 = at_ k := fun w hw => by
    obtain ⟨k, -, hk, hw⟩ := mem_imageWrites hw
    exact ⟨k, by omega, hw⟩
  obtain ⟨b', hb', hwrote⟩ := Bus.writeAll_wrote (b := s.bus) (base := cfg.loadAddr) (n := 0)
    (bytes := bytes) fun w hw => by
      obtain ⟨k, hk, hw⟩ := hmem w hw
      exact hw ▸ hkind k hk
  rw [show cfg.loadAddr + BitVec.ofNat 16 0 = cfg.loadAddr from BitVec.add_zero _] at hb'
  refine ⟨{ s with bus := b' }, by simp only [loadProgram, hb', andThen_next], rfl, hwrote.map,
    fun k hk => ?_, fun a ha => ?_⟩
  · rw [imageWrites_eq_append _ hk] at hwrote
    simp only [State.peek, Bus.cellAt_congr hwrote.map]
    refine hwrote.get_of_last hwf (hkind k hk) fun w hw => ?_
    obtain ⟨j, hkj, hj, hw⟩ := mem_imageWrites hw
    rw [List.length_drop] at hj
    exact hw ▸ hcell j (by omega) k hk (by omega)
  · refine hwrote.changedOnlyAt.peek_eq fun x hx => ?_
    obtain ⟨w, hw, rfl⟩ := List.mem_map.mp hx
    obtain ⟨k, hk, hw⟩ := hmem w hw
    exact hw ▸ ha k hk

end Sys2Proof.Machine

/-! PROOFS. Decoder and encoder (30_encoding.md R94 to R106): both are said through the opcode byte and the operand
bytes (`decode_cons_eq_ok_iff`, `encode_of_opcode`), so both directions of the round trip rest on one fact about an
instruction, that `instrOf` makes it of its opcode byte and its operand bytes. -/

namespace Sys2Proof

/-! ## What the two functions answer -/

/-- The decoder answers the instruction of the opcode byte and the operand bytes its mode takes. -/
theorem decode_cons_eq_ok_iff {b : Byte} {tail rest : List Byte} {i : Instr} :
    decode (b :: tail) = .ok (i, rest) ↔
      instrOf b (tail.take (operandCount (decodeMode b))) = some i ∧
        tail.drop (operandCount (decodeMode b)) = rest := by
  rw [decode]
  cases instrOf b (tail.take (operandCount (decodeMode b))) <;> simp

theorem decode_cons_of_instrOf_none {b : Byte} {tail : List Byte}
    (h : instrOf b (tail.take (operandCount (decodeMode b))) = none) :
    decode (b :: tail) = .error .operandMissing := by
  rw [decode, h]

theorem encode_of_opcode {i : Instr} {b : Byte} (h : i.opcode? = some b) :
    encode i = some (b :: i.operandBytes) := by
  rw [encode, h, Option.map_some]

theorem encode_of_not_wf {i : Instr} (h : i.wf = false) : encode i = none := by
  rw [encode, Instr.opcode_of_not_wf h, Option.map_none]

/-! ## The instruction of an opcode byte and its operand bytes -/

theorem Instr.opcode_illegal {c b : Byte} (h : (Instr.illegal c).opcode? = some b) : c = b := by
  simp only [Instr.opcode?, Option.ite_none_right_eq_some, Option.some.injEq] at h
  exact h.2

/-- The opcode byte and the operand bytes of a well-formed instruction are it again. -/
theorem Instr.exists_instrOf_of_wf {i : Instr} (h : i.wf = true) :
    ∃ b, instrOf b i.operandBytes = some i := by
  obtain ⟨b, hop, hpair⟩ := Instr.opcode_of_wf h
  refine ⟨b, instrOf_operandBytes hpair fun c hc => ?_⟩
  subst hc
  exact Instr.opcode_illegal hop

/-- What an opcode byte and operand bytes are is well-formed, since it has an opcode byte. -/
theorem Instr.wf_of_instrOf {b : Byte} {l : List Byte} {i : Instr} (h : instrOf b l = some i) :
    i.wf = true := by
  by_contra hwf
  have hnone := Instr.opcode_of_not_wf (Bool.eq_false_iff.mpr hwf)
  rw [opcode_of_instrOf h] at hnone
  cases hnone

/-- Only as many operand bytes as the mode takes make an instruction. -/
theorem length_of_instrOf {b : Byte} {l : List Byte} {i : Instr} (h : instrOf b l = some i) :
    l.length = operandCount (decodeMode b) := by
  obtain ⟨-, hmode, hbytes, -⟩ := instrOf_eq_some h
  rw [← hbytes, Instr.operandBytes_length, hmode]

/-! ## The round trip -/

/-- The operand bytes of an instruction are as many as its opcode byte takes, so the decoder takes exactly
these from what follows the opcode byte. -/
theorem decode_of_instrOf {b : Byte} {l : List Byte} {i : Instr} (h : instrOf b l = some i)
    (rest : List Byte) : decode (b :: (l ++ rest)) = .ok (i, rest) := by
  rw [decode_cons_eq_ok_iff, ← length_of_instrOf h, List.take_left, List.drop_left]
  exact ⟨h, rfl⟩

theorem encode_of_instrOf {b : Byte} {l : List Byte} {i : Instr} (h : instrOf b l = some i) :
    encode i = some (b :: l) := by
  obtain ⟨-, -, hbytes, -⟩ := instrOf_eq_some h
  rw [encode_of_opcode (opcode_of_instrOf h), hbytes]

/-- Settles O3: a well-formed instruction is what its opcode byte and operand bytes are, so both functions follow
that one fact. -/
theorem decodeOfEncode : Obligations.DecodeOfEncode := by
  unfold Obligations.DecodeOfEncode
  refine fun i => ⟨fun hwf => ?_, encode_of_not_wf⟩
  obtain ⟨b, hinstr⟩ := Instr.exists_instrOf_of_wf hwf
  exact ⟨b :: i.operandBytes, encode_of_instrOf hinstr, decode_of_instrOf hinstr⟩

/-- Settles O4: what the decoder answers is the instruction of the bytes it took. -/
theorem encodeOfDecode : Obligations.EncodeOfDecode := by
  unfold Obligations.EncodeOfDecode
  intro bytes rest i hdec
  cases bytes with
  | nil => cases hdec
  | cons b tail =>
    obtain ⟨hinstr, hrest⟩ := decode_cons_eq_ok_iff.mp hdec
    refine ⟨Instr.wf_of_instrOf hinstr, _, encode_of_instrOf hinstr, ?_⟩
    rw [← hrest, List.cons_append, List.take_append_drop]

/-- Settles O5: with enough bytes `instrOf` gets its full count and answers; with fewer it gets fewer than the
count, which no instruction has. -/
theorem lengthFromTheOpcodeAlone : Obligations.LengthFromTheOpcodeAlone := by
  unfold Obligations.LengthFromTheOpcodeAlone
  refine fun b tail => ⟨fun henough => ?_, fun hshort => ?_⟩
  · obtain ⟨i, hinstr⟩ := instrOf_some (List.length_take_of_le henough)
    obtain ⟨htype, hmode, -, -⟩ := instrOf_eq_some hinstr
    exact ⟨i, decode_cons_eq_ok_iff.mpr ⟨hinstr, rfl⟩, htype, hmode⟩
  · refine decode_cons_of_instrOf_none (Option.eq_none_iff_forall_ne_some.mpr fun i hinstr => ?_)
    have hlen := length_of_instrOf hinstr
    rw [List.length_take] at hlen
    omega

/-! ## The matrix -/

/-- Settles O1: each word by running the decoder on it. -/
theorem knownWordsDecode : Obligations.KnownWordsDecode :=
  ⟨rfl, rfl, rfl, rfl, rfl, rfl, rfl, rfl, rfl, rfl, rfl, rfl, rfl, rfl, rfl, rfl⟩

/-- Settles O2: each column group by its 64 entries. -/
theorem columnGroupsGiveTheMatrix : Obligations.ColumnGroupsGiveTheMatrix := by
  unfold Obligations.ColumnGroupsGiveTheMatrix
  intro byte
  refine ⟨?_, ?_, ?_, ?_⟩ <;> decide +kernel

end Sys2Proof

/-! PROOFS. The address modes (40_address_modes.md R130 to R143): the sums as numbers, the address of each operand
form, and what Resolve stages and leaves. -/

namespace Sys2Proof.Machine

/-! ## The sums -/

/-- The zero-page sum is taken on bytes, so it stays in page 0 (40_address_modes.md R133, R134). -/
theorem zext16_add_toNat (b c : Byte) : (zext16 (b + c)).toNat = (b.toNat + c.toNat) % 256 := by
  rw [zext16_toNat, BitVec.toNat_add]

theorem add_zext16_toNat (w : Addr) (b : Byte) : (w + zext16 b).toNat = (w.toNat + b.toNat) % 65536 := by
  rw [BitVec.toNat_add, zext16_toNat]

/-- The two cases of `sext16` differ by 2^8 as bytes and by 2^16 as words (00_scope.md R12). -/
theorem sext16_toInt (b : Byte) : (sext16 b).toInt = b.toInt := by
  have hb := b.isLt
  have hn : (sext16 b).toNat = if b.toNat < 128 then b.toNat else b.toNat + 0xFF00 := by
    rw [sext16, BitVec.toNat_ofNat]
    split <;> omega
  rw [BitVec.toInt_eq_toNat_cond, BitVec.toInt_eq_toNat_cond, hn]
  split <;> omega

theorem add_sext16_toNat (w : Addr) (b : Byte) :
    ((w + sext16 b).toNat : Int) = ((w.toNat : Int) + b.toInt) % 65536 := by
  rw [← sext16_toInt, BitVec.toNat_add, BitVec.toInt_eq_toNat_cond]
  split <;> omega

/-! ## The forms with a word operand and the indirect ones -/

/-- The two operand bytes of a word give that word back (40_address_modes.md R136). -/
theorem operandAddr_abs (w : Addr) (s : State) : operandAddr (.abs w) s = .next (w, s.bus) := by
  simp only [operandAddr, Operand.mode, Operand.bytes, effAddr, cat_hi8_lo8]

theorem operandAddr_abx (w : Addr) (s : State) :
    operandAddr (.abx w) s = .next (w + zext16 s.x, s.bus) := by
  simp only [operandAddr, Operand.mode, Operand.bytes, effAddr, cat_hi8_lo8]

theorem operandAddr_aby (w : Addr) (s : State) :
    operandAddr (.aby w) s = .next (w + zext16 s.y, s.bus) := by
  simp only [operandAddr, Operand.mode, Operand.bytes, effAddr, cat_hi8_lo8]

theorem operandAddr_ind (w : Addr) (s : State) : operandAddr (.ind w) s = s.bus.readWord w := by
  simp only [operandAddr, Operand.mode, Operand.bytes, effAddr, cat_hi8_lo8]

theorem operandAddr_izy (b1 : Byte) (s : State) :
    operandAddr (.izy b1) s =
      andThen (s.bus.readWord (zext16 b1)) fun r => .next (r.1 + zext16 s.y, r.2) := rfl

theorem decodeMode_eq_ind_iff (b : Byte) : decodeMode b = .ind ↔ b = 0x6C := by
  revert b
  decide +kernel

/-- Settles O10: each mode by its equation, and each sum by its value as a number. -/
theorem addressModes : Obligations.AddressModes := by
  unfold Obligations.AddressModes
  refine ⟨decodeMode_eq_ind_iff, fun s b1 w => ⟨rfl, rfl, ?zp, ?zpx, ?zpy, operandAddr_abs w s, ?abx, ?aby,
    ?rel, operandAddr_ind w s, ?izx, ?izy⟩⟩
  case zp => exact ⟨_, rfl, zext16_toNat b1⟩
  case zpx => exact ⟨_, rfl, zext16_add_toNat b1 s.x⟩
  case zpy => exact ⟨_, rfl, zext16_add_toNat b1 s.y⟩
  case abx => exact ⟨_, operandAddr_abx w s, add_zext16_toNat w s.x⟩
  case aby => exact ⟨_, operandAddr_aby w s, add_zext16_toNat w s.y⟩
  case rel => exact ⟨_, rfl, add_sext16_toNat s.pc b1⟩
  case izx => exact ⟨_, zext16_add_toNat b1 s.x, rfl⟩
  case izy =>
    refine ⟨_, zext16_toNat b1, fun v b hv => ?_, fun f hf => ?_⟩
    · exact ⟨_, by rw [operandAddr_izy, hv, andThen_next], add_zext16_toNat v s.y⟩
    · rw [operandAddr_izy, hf, andThen_fault]

/-! ## Resolve -/

/-- The mode's part of Resolve writes `ea`, `m` and the bus alone (40_address_modes.md R131 to R141). -/
theorem resolveMode_frame {md : Mode} {l : List Byte} {s u : State} (h : resolveMode md l s = .next u) :
    ∃ ea m b, u = { s with ea := ea, m := m, bus := b } := by
  cases md
  case imp | none | acc => cases h; exact ⟨_, _, _, rfl⟩
  case imm =>
    simp only [resolveMode] at h
    split at h <;> cases h
    exact ⟨_, _, _, rfl⟩
  all_goals
    simp only [resolveMode, andThen_eq_next] at h
    obtain ⟨r, -, h⟩ := h
    cases h
    exact ⟨_, _, _, rfl⟩

theorem stage_frame (t : InstrType) (s : State) :
    stage t s = { s with sv := (stage t s).sv, ret := (stage t s).ret } := by
  cases t <;> rfl

/-- Settles O21: the mode's part leaves the registers that staging reads, and staging writes by type. -/
theorem resolveStagesTheLatches : Obligations.ResolveStagesTheLatches := by
  unfold Obligations.ResolveStagesTheLatches
  intro s t h
  have hwrote : s.bus.Wrote [] t.bus := resolve_wrote h
  obtain ⟨u, hu, ht⟩ := (andThen_eq_next _ _ _).mp h
  cases ht
  obtain ⟨ea, m, b, rfl⟩ := resolveMode_frame hu
  refine ⟨?_, hwrote.mem, hwrote.map, ?_, ?_⟩
  · rw [stage_frame]
  · cases s.ins.1 <;> rfl
  · cases s.ins.1 <;> rfl

end Sys2Proof.Machine

/-! PROOFS. The micro-ops (41_scheduler.md R163, R164, R171) and the count of ticks (R173, R177, R179): what each
row of R163 does, which rows touch no bus, the queue of every opcode, and the ticks that a tick and an instruction
count. -/

namespace Sys2Proof.Machine

/-! ## Micro-ops -/

/-- Settles O18: the two tables, at each of the 256 bytes. -/
theorem queueTable : Obligations.QueueTable := by
  unfold Obligations.QueueTable
  decide +kernel

/-- Settles O19: the kinds left are Exec and Modify, which keep the bus, and three that make no access. -/
theorem onlyTheListedMicroOpsTouchTheBus : Obligations.OnlyTheListedMicroOpsTouchTheBus := by
  unfold Obligations.OnlyTheListedMicroOpsTouchTheBus
  intro k s t hk h
  cases k
  case exec => exact execBody_bus h
  case modify => exact modifyBody_bus h
  case idle | jump | incPC => cases h; rfl
  all_goals exact absurd (by decide) hk

theorem push_of_write {v : Byte} {s : State} {b : Bus} (h : s.bus.write (stackAddr s.sp) v = .next b) :
    push v s = .next { s with sp := s.sp - 1, bus := b } := by
  rw [push, h, andThen_next]

theorem push_of_write_fault {v : Byte} {s : State} {f : Fault}
    (h : s.bus.write (stackAddr s.sp) v = .fault f) : push v s = .fault f := by
  rw [push, h, andThen_fault]

theorem pull_of_read {v : Byte} {s : State} {b : Bus}
    (h : s.bus.read (stackAddr (s.sp + 1)) = .next (v, b)) :
    pull s = .next (v, { s with sp := s.sp + 1, bus := b }) := by
  rw [pull, h, andThen_next]

theorem pull_of_read_fault {s : State} {f : Fault} (h : s.bus.read (stackAddr (s.sp + 1)) = .fault f) :
    pull s = .fault f := by
  rw [pull, h, andThen_fault]

theorem setNZ_NZof (v p : Byte) : NZof v (setNZ v p) := by
  refine ⟨getFlag_setFlag _ _ _, ?_⟩
  rw [setNZ, getFlag_setFlag_ne (by decide), getFlag_setFlag]
  rfl

/-- Settles O20: each row by its equation, with what its one access answers. -/
theorem microOpBodies : Obligations.MicroOpBodies := by
  unfold Obligations.MicroOpBodies
  refine fun s => ⟨rfl, rfl, rfl, fun v b h => ?_, fun f h => ?_, fun b h => ?_, fun f h => ?_,
    fun x hx => ⟨fun b h => ?_, fun f h => ?_⟩, fun v b h => ?_, fun f h k hk => ?_, fun w b h => ?_,
    fun f h => ?_⟩
  · rw [perform, doRead, h, andThen_next]
  · rw [perform, doRead, h, andThen_fault]
  · rw [perform, doWrite, h, andThen_next]
  · rw [perform, doWrite, h, andThen_fault]
  · have hpush := push_of_write h
    simp only [List.mem_cons, List.not_mem_nil, or_false] at hx
    rcases hx with rfl | rfl | rfl | rfl <;> exact hpush
  · have hpush := push_of_write_fault h
    simp only [List.mem_cons, List.not_mem_nil, or_false] at hx
    rcases hx with rfl | rfl | rfl | rfl <;> exact hpush
  · have hpull := pull_of_read h
    have honly := (OnlyFlags.refl [.n, .z] s.p).setNZ_right (by decide) (by decide) v
    refine ⟨⟨setNZ v s.p, ?_, setNZ_NZof v s.p, honly⟩, ?_, ?_, ?_⟩
    · rw [perform, doPullA, hpull, andThen_next]
    · rw [perform, doPullP, hpull, andThen_next, pullImage]
    · rw [perform, doPullPCL, hpull, andThen_next]
    · rw [perform, doPullPCH, hpull, andThen_next]
  · have hpull := pull_of_read_fault h
    simp only [List.mem_cons, List.not_mem_nil, or_false] at hk
    rcases hk with rfl | rfl | rfl | rfl <;>
      simp only [perform, doPullA, doPullP, doPullPCL, doPullPCH, hpull, andThen_fault]
  · have hv : s.bus.readWord Config.irqVector = .next (w, b) := h
    rw [perform, doVector, hv, andThen_next]
    rfl
  · have hv : s.bus.readWord Config.irqVector = .fault f := h
    rw [perform, doVector, hv, andThen_fault]

/-! ## The count of ticks -/

/-- A fetch fills the opcode slot, and touches neither the queue nor the counter (41_scheduler.md R166). -/
theorem fetchByte_frame {s t : State} (h : fetchByte s = .next t) :
    t.q = s.q ∧ t.cycles = s.cycles ∧ t.op ≠ none := by
  simp only [fetchByte, andThen_eq_next] at h
  obtain ⟨r, -, h⟩ := h
  cases hop : s.op <;> rw [hop] at h <;> cases h <;> exact ⟨rfl, rfl, nofun⟩

/-- With an empty queue a tick fetches, and then decodes, or only counts (41_scheduler.md R162, R167, R168). -/
theorem tick_of_empty {s : State} (hq : s.q = []) :
    tick s = andThen (fetchByte s) fun u =>
      if operandsComplete u then executeStep 1 { u with q := buildQueue u.ins.1 u.ins.2 }
      else .next { u with cycles := u.cycles + 1 } := by
  simp only [tick, hq, List.isEmpty_nil, if_true]
  refine andThen_congr fun u hu => ?_
  rw [executeStep_of_empty 2 ((fetchByte_frame hu).1.trans hq)]

/-- Settles O22: every tick ends in an execute step, or in the count alone. -/
theorem everyTickIsCounted : Obligations.EveryTickIsCounted := by
  unfold Obligations.EveryTickIsCounted
  intro s t h
  by_cases hq : s.q = []
  · rw [tick_of_empty hq, andThen_eq_next] at h
    obtain ⟨u, hu, h⟩ := h
    obtain ⟨-, hcycles, -⟩ := fetchByte_frame hu
    rw [← hcycles]
    split at h
    · exact (executeStep_end h).1
    · cases h; rfl
  · rw [tick_queued s hq] at h
    exact (executeStep_end h).1

theorem Operand.mode_ne_rel (o : Operand) : o.mode ≠ .rel := by
  cases o <;> nofun

/-- The mode REL is the branches' (30_encoding.md R102). -/
theorem isBranch_iff_rel (i : Instr) : isBranch i.type = true ↔ i.mode = .rel := by
  cases i
  case bpl | bmi | bvc | bvs | bcc | bcs | bne | beq => exact iff_of_true rfl rfl
  case lda o | ldx o | ldy o | sta o | stx o | sty o | adc o | sbc o | and o | ora o | eor o | cmp o | cpx o |
      cpy o | bit o | inc o | dec o | asl o | lsr o | rol o | ror o | jmp o =>
    exact iff_of_false nofun (Operand.mode_ne_rel o)
  all_goals exact iff_of_false nofun nofun

/-- The condition of a branch's Exec is that of `takes` (45_control.md R295 to R302). -/
theorem execBody_of_rel {i : Instr} (h : i.mode = .rel) (u : State) :
    execBody i.type u = .next (branch (takes i u.p) u) := by
  have hb := (isBranch_iff_rel i).mpr h
  cases i
  case bpl | bmi | bvc | bvs | bcc | bcs | bne | beq => rfl
  all_goals cases hb

theorem Instr.wf_of_opcode {i : Instr} {b : Byte} (h : i.opcode? = some b) : i.wf = true := by
  by_contra hwf
  rw [Instr.opcode_of_not_wf (Bool.eq_false_iff.mpr hwf)] at h
  cases h

/-- One tick for each operand byte, one for the decode, and the cost of the queue (41_scheduler.md R177). -/
theorem tableTicks_eq {i : Instr} (hw : i.wf = true) (hm : i.mode ≠ .rel) :
    1 + totalCost (buildQueue i.type i.mode) + operandCount i.mode = tableTicks i := by
  cases i
  case bpl | bmi | bvc | bvs | bcc | bcs | bne | beq => exact absurd rfl hm
  case lda o | ldx o | ldy o | sta o | stx o | sty o | adc o | sbc o | and o | ora o | eor o | cmp o | cpx o |
      cpy o | bit o | inc o | dec o | asl o | lsr o | rol o | ror o | jmp o =>
    cases o <;> first | rfl | cases hw
  all_goals rfl

/-- Settles O25: without a branch the ticks are the cost of the queue; a branch has its own run. -/
theorem tickCountsAreTheTable : Obligations.TickCountsAreTheTable := by
  unfold Obligations.TickCountsAreTheTable
  intro i s t h
  obtain ⟨b, hop, -⟩ := opcode_of_exec h
  refine ⟨fun hm => ?_, fun hm => ?_⟩
  · have hb : isBranch i.type = false := Bool.eq_false_iff.mpr fun e => hm ((isBranch_iff_rel i).mp e)
    rw [exec_eq_performAll hop hb rfl, andThen_eq_next] at h
    obtain ⟨u, hu, ht⟩ := h
    cases ht
    have hcycles : u.cycles = s.cycles := (performAll_slots hu).cycles
    rw [completed_cycles, hcycles, ← tableTicks_eq (Instr.wf_of_opcode hop) hm]
    omega
  · have hb : isBranch i.type = true := (isBranch_iff_rel i).mpr hm
    obtain ⟨b1, ho⟩ : ∃ b1, i.operandBytes = [b1] :=
      List.length_eq_one_iff.mp (by rw [Instr.operandBytes_length, hm]; rfl)
    rw [exec_eq_runInstr, runInstr_branch hop hm ho hb (execBody_of_rel hm)] at h
    cases h
    cases htaken : takes i s.p with
    | false => rfl
    | true =>
      simp only [completed_cycles, loaded_cycles, if_true, Nat.add_assoc]
      by_cases hpage : hi8 (s.pc + sext16 b1) = hi8 s.pc <;> simp [completed, hpage]

end Sys2Proof.Machine

/-! PROOFS. No run ends in an internal fault (41_scheduler.md R176): from a state with the invariant every micro-op
of a queue, every tick and every step ends in a state with the invariant, or in a bus fault; the bounds of the
model's loops are never met. -/

namespace Sys2Proof.Machine

/-! ## Micro-ops -/

theorem Good.imp {P Q : State → Prop} {r : Res State} (h : Good P r) (hpq : ∀ t, r = .next t → P t → Q t) :
    Good Q r := by
  rcases h with ⟨t, ht, hp⟩ | ha
  · exact .inl ⟨t, ht, hpq t ht hp⟩
  · exact .inr ha

theorem Good.outcome {P : State → Prop} {r : Res State} (h : Good P r) :
    (∃ t, r = .next t) ∨ ∃ a, r = .fault (.busFault a) :=
  h.imp_left fun ⟨t, ht, _⟩ => ⟨t, ht⟩

/-- A built queue holds Resolve and micro-ops that its type has. -/
theorem opOk_of_mem_buildQueue {b : Byte} {k : MicroOp}
    (h : k ∈ buildQueue (decodePair b).1 (decodePair b).2) :
    k = .resolve ∨ opOk (decodePair b).1 k = true := by
  cases hb : isBranch (decodePair b).1 with
  | false =>
    obtain ⟨rest, hq, hrest⟩ := buildQueue_facts b hb
    rw [hq, List.mem_cons] at h
    exact h.imp_right (List.all_eq_true.mp hrest k)
  | true =>
    have hexec : opOk (decodePair b).1 .exec = true := by
      generalize (decodePair b).1 = t at hb
      cases t <;> first | rfl | cases hb
    rw [(buildQueue_branch b hb).2] at h
    simp only [List.mem_cons, List.not_mem_nil, or_false] at h
    rcases h with rfl | rfl
    · exact .inl rfl
    · exact .inr hexec

theorem IsRestOf.opOk_of_mem {b : Byte} {q : List MicroOp} {k : MicroOp} (h : IsRestOf (decodePair b) q)
    (hk : k ∈ q) : k = .resolve ∨ opOk (decodePair b).1 k = true := by
  obtain ⟨n, j, -, -, rfl⟩ := h
  rcases List.mem_append.mp (List.mem_of_mem_drop hk) with hk | hk
  · exact opOk_of_mem_buildQueue hk
  · exact .inr (List.eq_of_mem_replicate hk ▸ rfl)

theorem perform_good_of_executing {s : State} {k : MicroOp} {rest : List MicroOp} (hs : s.Executing)
    (hq : s.q = k :: rest) : Good State.Executing (perform k { s with q := rest }) := by
  obtain ⟨b, -, hi, hl⟩ := hs.slots
  have hdata : State.DataOk { s with q := rest } := hs.data.congr rfl rfl
  have hmem := (hi ▸ hs.queue).opOk_of_mem (hq ▸ List.mem_cons_self)
  have hgood : Good State.DataOk (perform k { s with q := rest }) := by
    rcases hmem with rfl | hok
    · exact resolve_good (by simpa [hi, decodeMode] using hl) hdata
    · exact perform_good (by simpa [hi] using hok) hdata
  exact hgood.imp fun t ht _ => perform_executing hs hq ht

/-! ## The execute step -/

/-- A list of Idles that has a head. -/
theorem idle_and_idles_of_cons {k : MicroOp} {rest : List MicroOp} {j : Nat}
    (h : k :: rest = List.replicate j .idle) : k = .idle ∧ rest = List.replicate (j - 1) .idle :=
  ⟨List.eq_of_mem_replicate (h ▸ List.mem_cons_self), by rw [← List.tail_replicate, ← h, List.tail_cons]⟩

/-- A micro-op leaves the rest of the queue, unless it is the Exec of a branch: then Idles are left. -/
theorem perform_q_cases {b : Byte} {k : MicroOp} {s t : State} (hi : s.ins = decodePair b)
    (hq : IsRestOf s.ins (k :: s.q)) (h : perform k s = .next t) :
    t.q = s.q ∨ k = .exec ∧ ∃ j, t.q = List.replicate j .idle := by
  cases hb : isBranch s.ins.1 with
  | false => exact .inl (perform_q_of_not_branch hb h)
  | true =>
    have hbb : isBranch (decodePair b).1 = true := hi ▸ hb
    rcases (isRestOf_branch hbb).mp (hi ▸ hq) with hr | hr | ⟨j, -, hr⟩
    · obtain ⟨rfl, -⟩ := List.cons.inj hr
      exact .inl (resolve_q_of_rel (hi ▸ (buildQueue_branch b hbb).1) h)
    · obtain ⟨rfl, hnil⟩ := List.cons.inj hr
      obtain ⟨f, test, -, -, hexec⟩ := execBody_branch hb
      simp only [perform, hexec] at h
      cases h
      obtain ⟨j, -, hj⟩ := branch_q (test (getFlag f s.p)) s
      exact .inr ⟨rfl, j, by rw [hj, hnil, List.nil_append]⟩
    · obtain ⟨rfl, -⟩ := idle_and_idles_of_cons hr
      cases h
      exact .inl rfl

/-- With the budget used up, a drain stops at a head that costs 1. -/
theorem drain_of_headCostsOne {limit spent : Nat} (fuel : Nat) {s : State} (hc : headCostsOne s.q)
    (h : limit ≤ spent + 1) : drain fuel limit spent s = .next s := by
  cases hq : s.q with
  | nil => cases fuel <;> simp only [drain, hq]
  | cons k rest =>
    have hk : cost k = 1 := by rwa [hq] at hc
    have hover : ¬ spent + cost k < limit := by omega
    cases fuel <;> simp only [drain, hq, hover, if_false]

theorem headCostsOne_idles (j : Nat) : headCostsOne (List.replicate j .idle) := by
  cases j with
  | zero => trivial
  | succ j => rfl

/-- The fuel is enough for a drain: it outlasts the queue, or only Idles are left and it outlasts the budget. -/
def HasRoom (limit fuel spent : Nat) (q : List MicroOp) : Prop :=
  q.length < fuel ∨ (∃ j, q = List.replicate j .idle) ∧ limit ≤ spent + fuel + 1

theorem HasRoom.perform {limit fuel spent : Nat} {k : MicroOp} {rest : List MicroOp} {s t : State}
    (hlimit : limit ≤ 2) (h : HasRoom limit (fuel + 1) spent (k :: rest)) (hs : s.Executing)
    (hq : s.q = k :: rest) (ht : perform k { s with q := rest } = .next t) :
    HasRoom limit fuel (spent + cost k) t.q := by
  obtain ⟨b, -, hi, -⟩ := hs.slots
  have hcases := perform_q_cases (s := { s with q := rest }) hi (hq ▸ hs.queue) ht
  rcases h with hlen | ⟨⟨j, hj⟩, hbudget⟩
  · rw [List.length_cons] at hlen
    rcases hcases with hrest | ⟨-, j, hidle⟩
    · exact .inl (by rw [hrest]; exact Nat.lt_of_succ_lt_succ hlen)
    · exact .inr ⟨⟨j, hidle⟩, by omega⟩
  · obtain ⟨rfl, hrest⟩ := idle_and_idles_of_cons hj
    rcases hcases with ht | ⟨hne, -⟩
    · exact .inr ⟨⟨j - 1, ht.trans hrest⟩, by simp only [cost]; omega⟩
    · cases hne

/-- With room, a drain does not run into its bound. -/
theorem drain_good {limit fuel spent : Nat} {s : State} (hlimit : limit ≤ 2) (hs : s.Executing)
    (hroom : HasRoom limit fuel spent s.q) : Good State.Executing (drain fuel limit spent s) := by
  induction fuel generalizing spent s with
  | zero =>
    rcases hroom with hlen | ⟨⟨j, hj⟩, hbudget⟩
    · exact absurd hlen (Nat.not_lt_zero _)
    · rw [drain_of_headCostsOne 0 (hj ▸ headCostsOne_idles j) hbudget]
      exact .inl ⟨s, rfl, hs⟩
  | succ fuel ih =>
    simp only [drain]
    cases hq : s.q with
    | nil => exact .inl ⟨s, rfl, hs⟩
    | cons k rest =>
      by_cases hb : spent + cost k < limit
      · simp only [hb, if_true]
        have hrun := (perform_good_of_executing hs hq).imp
          (Q := fun t => t.Executing ∧ HasRoom limit fuel (spent + cost k) t.q)
          fun t ht hex => ⟨hex, (hq ▸ hroom).perform hlimit hs hq ht⟩
        exact hrun.bind fun t ⟨hex, ht⟩ => ih hex ht
      · simp only [hb, if_false]
        exact .inl ⟨s, rfl, hs⟩

theorem executeStep_good {limit : Nat} {s : State} (hpos : 0 < limit) (hlimit : limit ≤ 2) (hs : s.Executing)
    (hq : s.q ≠ []) : Good State.Inv (executeStep limit s) := by
  have hrun : Good (fun _ => True) (executeStep limit s) :=
    (drain_good hlimit hs (.inl (Nat.lt_succ_self _))).bind fun u _ => .inl ⟨_, rfl, trivial⟩
  exact hrun.imp fun t ht _ => executeStep_inv hpos hs hq ht

/-! ## The tick -/

theorem fetchByte_good {s : State} (hs : s.Inv) (hq : s.q = []) : Good State.Fetched (fetchByte s) := by
  have hrun : Good (fun _ => True) (fetchByte s) := by
    unfold fetchByte
    rcases Bus.read_outcome s.bus s.pc with ⟨r, hr, -⟩ | hr <;> rw [hr]
    · cases s.op <;> exact .inl ⟨_, rfl, trivial⟩
    · exact .inr ⟨_, rfl⟩
  exact hrun.imp fun t ht _ => fetchByte_fetched hs hq ht

theorem tick_good {s : State} (hs : s.Inv) : Good State.Inv (tick s) := by
  by_cases hq : s.q = []
  · rw [tick_of_empty hq]
    refine (fetchByte_good hs hq).bind fun u hu => ?_
    cases hc : operandsComplete u with
    | true =>
      exact executeStep_good Nat.one_pos one_le_two (hu.executing_of_complete hc) (buildQueue_ne_nil _ _)
    | false => exact .inl ⟨_, rfl, hu.inv_of_incomplete hc _⟩
  · rw [tick_queued s hq]
    exact executeStep_good Nat.two_pos le_rfl (hs.executing hq) hq

theorem tickN_good {s : State} (hs : s.Inv) (n : Nat) : Good State.Inv (tickN n s) := by
  induction n generalizing s with
  | zero => exact .inl ⟨s, rfl, hs⟩
  | succ n ih => exact (tick_good hs).bind fun _ => ih

/-! ## The rest of an instruction -/

theorem endTick_q (active : Bool) (s : State) : (endTick active s).q = s.q := by
  unfold endTick
  exact (apply_ite State.q ..).trans (ite_self _)

/-- The queue of a branch between two ticks is the Idles that its Exec appended. -/
theorem IsRestOf.idles_of_branch {b : Byte} {q : List MicroOp} (h : IsRestOf (decodePair b) q)
    (hb : isBranch (decodePair b).1 = true) (hc : headCostsOne q) : ∃ j, q = List.replicate j .idle := by
  rcases (isRestOf_branch hb).mp h with rfl | rfl | ⟨j, -, hj⟩
  · cases hc
  · cases hc
  · exact ⟨j, hj⟩

/-- A tick that begins with a queue makes it shorter. -/
theorem tick_q_lt {s t : State} (hs : s.Inv) (hq : s.q ≠ []) (h : tick s = .next t) :
    t.q.length < s.q.length := by
  have hex := hs.executing hq
  obtain ⟨b, -, hi, -⟩ := hex.slots
  obtain ⟨k, rest, hk⟩ := List.exists_cons_of_ne_nil hq
  have hcost : cost k = 1 := by have := hs.slots.head; rwa [hk] at this
  rw [tick_queued s hq] at h
  cases hb : isBranch s.ins.1 with
  | false =>
    have hs' : s.at s.q s.cycles = s := rfl
    rw [← hs', executeStep_eq _ _ _ _ hb, andThen_eq_next] at h
    obtain ⟨u, -, ht⟩ := h
    cases ht
    have hsplit := congrArg List.length (budgetSplit_append 2 1 rest)
    rw [List.length_append] at hsplit
    rw [endTick_q, State.at_q, hk, budgetSplit_two hcost, List.length_cons]
    exact Nat.lt_succ_of_le (hsplit ▸ Nat.le_add_left _ _)
  | true =>
    obtain ⟨j, hj⟩ := (hi ▸ hex.queue).idles_of_branch (hi ▸ hb) hs.slots.head
    obtain ⟨rfl, hrest⟩ := idle_and_idles_of_cons (hk ▸ hj)
    rw [executeStep, hk, drain, hk] at h
    simp only [cost, Nat.zero_add, Nat.one_lt_two, if_true, perform, andThen_next] at h
    rw [drain_of_headCostsOne (s := { s with q := rest }) _ (hrest ▸ headCostsOne_idles _) le_rfl] at h
    cases h
    rw [endTick_q, hk]
    exact Nat.lt_succ_self _

theorem finish_good {fuel : Nat} {s : State} (hs : s.Inv) (hf : s.q.length ≤ fuel) :
    Good State.Inv (finish fuel s) := by
  induction fuel generalizing s with
  | zero =>
    rw [finish_of_empty 0 s (List.eq_nil_of_length_eq_zero (Nat.le_zero.mp hf))]
    exact .inl ⟨s, rfl, hs⟩
  | succ fuel ih =>
    by_cases hq : s.q = []
    · rw [finish_of_empty _ s hq]
      exact .inl ⟨s, rfl, hs⟩
    · simp only [finish, List.isEmpty_iff, hq, if_false]
      have hrun := (tick_good hs).imp (Q := fun t => t.Inv ∧ t.q.length ≤ fuel)
        fun t ht hinv => ⟨hinv, by have := tick_q_lt hs hq ht; omega⟩
      exact hrun.bind fun t ⟨hinv, hlen⟩ => ih hinv hlen

/-- The run of the instruction in the slots, from its decode: its queue is built, and drained to its end. -/
def runSlots (s : State) : Res State :=
  andThen (executeStep 1 { s with q := buildQueue s.ins.1 s.ins.2 }) fun u => finish (tickBound u) u

theorem runSlots_good {s : State} (hs : s.Fetched) (hc : operandsComplete s = true) :
    Good State.Inv (runSlots s) :=
  (executeStep_good Nat.one_pos one_le_two (hs.executing_of_complete hc) (buildQueue_ne_nil _ _)).bind
    fun u hu => finish_good hu (by unfold tickBound; omega)

/-- A whole instruction in the slots is one of the core's, and its meaning is its run. -/
theorem exec_of_slotInstr {s : State} (hs : s.Fetched) (hc : operandsComplete s = true) :
    ∃ i, slotInstr s = some i ∧ exec i s = runSlots s := by
  obtain ⟨b, hop, hi, -⟩ := hs.slots
  have hlen : s.opnds.length = operandCount (decodeMode b) := by simpa [operandsComplete, hop] using hc
  obtain ⟨i, hinstr⟩ := instrOf_some hlen
  have hslot : slotInstr s = some i := by rw [slotInstr, hop]; exact hinstr
  obtain ⟨hopc, hload⟩ := loaded_of_slotInstr hop hi hslot
  exact ⟨i, hslot, by rw [exec_eq_runInstr, runInstr, hopc, runSlots, ← hload]⟩

/-- With an empty queue, a step is the fetch and the run of what was fetched. -/
theorem step_of_empty {s : State} (hs : s.Inv) (hq : s.q = []) :
    step s = andThen (fetchPhase maxLength s) runSlots := by
  rw [step, hq, List.isEmpty_nil, if_pos rfl]
  refine andThen_congr fun u hu => ?_
  obtain ⟨hu, hc⟩ := fetchPhase_fetched hs hq hu
  obtain ⟨i, hslot, hrun⟩ := exec_of_slotInstr hu hc
  rw [hslot]
  exact hrun

theorem step_of_queue {s : State} (hq : s.q ≠ []) : step s = finish (tickBound s) s := by
  simp only [step, List.isEmpty_iff, hq, if_false]

/-! ## The fetch phase -/

/-- At most `n` bytes of the instruction are still to be fetched. -/
def State.Awaits (n : Nat) (s : State) : Prop :=
  (s.op = none → maxLength ≤ n) ∧ ∀ b, s.op = some b → operandCount (decodeMode b) ≤ s.opnds.length + n

theorem State.awaits_maxLength (s : State) : s.Awaits maxLength :=
  ⟨fun _ => le_rfl, fun b _ => by have := operandCount_le (decodeMode b); unfold maxLength; omega⟩

theorem State.Inv.not_awaits_zero {s : State} (hs : s.Inv) (hq : s.q = []) : ¬ s.Awaits 0 := by
  rintro ⟨hnone, hsome⟩
  cases hop : s.op with
  | none => exact absurd (hnone hop) (by decide)
  | some b => exact absurd (hsome b hop) (Nat.not_le.mpr (hs.slots.awaiting b hop hq))

theorem fetchByte_awaits {n : Nat} {s t : State} (h : fetchByte s = .next t) (hn : s.Awaits (n + 1)) :
    t.Awaits n := by
  simp only [fetchByte, andThen_eq_next] at h
  obtain ⟨r, -, h⟩ := h
  cases hop : s.op <;> rw [hop] at h <;> cases h
  case none =>
    have hmax : 3 ≤ n + 1 := hn.1 hop
    refine ⟨nofun, fun b _ => ?_⟩
    have hle := operandCount_le (decodeMode b)
    omega
  case some b =>
    have hle := hn.2 b hop
    refine ⟨nofun, fun c hc => ?_⟩
    cases hc
    rw [List.length_append, List.length_singleton]
    omega

theorem fetchPhase_good {fuel : Nat} {s : State} (hs : s.Inv) (hq : s.q = []) (hf : s.Awaits fuel) :
    Good (fun u => u.Fetched ∧ operandsComplete u = true) (fetchPhase fuel s) := by
  induction fuel generalizing s with
  | zero => exact absurd hf (hs.not_awaits_zero hq)
  | succ fuel ih =>
    have hrun := (fetchByte_good hs hq).imp (Q := fun u => u.Fetched ∧ u.Awaits fuel)
      fun u hu hfetched => ⟨hfetched, fetchByte_awaits hu hf⟩
    refine hrun.bind fun u ⟨hu, hawaits⟩ => ?_
    cases hc : operandsComplete u with
    | true => exact .inl ⟨u, rfl, hu, hc⟩
    | false => exact ih (hu.inv_of_incomplete hc _) hu.queue hawaits

theorem step_good {s : State} (hs : s.Inv) : Good State.Inv (step s) := by
  by_cases hq : s.q = []
  · rw [step_of_empty hs hq]
    exact (fetchPhase_good hs hq s.awaits_maxLength).bind fun u ⟨hu, hc⟩ => runSlots_good hu hc
  · rw [step_of_queue hq]
    exact finish_good hs (by unfold tickBound; omega)

/-- Settles O15: a tick and a step from a state with the invariant end in one with the invariant, or in a
bus fault. -/
theorem noInternalFault : Obligations.NoInternalFault := by
  unfold Obligations.NoInternalFault
  exact fun s hs n => ⟨(tickN_good hs n).outcome, (step_good hs).outcome⟩

end Sys2Proof.Machine

/-! PROOFS. A step is the ticks up to the first that completes an instruction (41_scheduler.md R160, R162, R170):
the loops of `finish` and `fetchPhase`, read as ticks. -/

namespace Sys2Proof.Machine

/-- The ticks from `s` on go up to the first that completes an instruction or faults, and end in `r`. -/
inductive TicksTo : State → Res State → Prop
  | done {s t : State} : tick s = .next t → t.boundary → TicksTo s (.next t)
  | fault {s : State} {f : Fault} : tick s = .fault f → TicksTo s (.fault f)
  | more {s u : State} {r : Res State} : tick s = .next u → u.op ≠ none → TicksTo u r → TicksTo s r

theorem tickN_succ_of_next {s u : State} (h : tick s = .next u) (n : Nat) : tickN (n + 1) s = tickN n u := by
  rw [tickN, h, andThen_next]

/-- How many ticks these are. -/
theorem TicksTo.exists_tickN {s : State} {r : Res State} (h : TicksTo s r) :
    ∃ n, 0 < n ∧ tickN n s = r ∧ (∀ t, r = .next t → t.boundary) ∧
      ∀ m u, 0 < m → m < n → tickN m s = .next u → u.op ≠ none := by
  induction h with
  | done ht hb =>
    exact ⟨1, Nat.one_pos, tickN_succ_of_next ht 0, fun _ e => Host.Outcome.next.inj e ▸ hb,
      fun m _ hm hlt => absurd hm (by omega)⟩
  | fault hf =>
    exact ⟨1, Nat.one_pos, by rw [tickN, hf, andThen_fault], fun _ e => (by cases e),
      fun m _ hm hlt => absurd hm (by omega)⟩
  | more hu hop _ ih =>
    obtain ⟨n, hn, hr, hb, hfirst⟩ := ih
    refine ⟨n + 1, Nat.succ_pos n, (tickN_succ_of_next hu n).trans hr, hb, fun m v hm hlt hv => ?_⟩
    obtain ⟨m, rfl⟩ : ∃ k, m = k + 1 := ⟨m - 1, by omega⟩
    rw [tickN_succ_of_next hu] at hv
    cases m with
    | zero => cases hv; exact hop
    | succ m => exact hfirst _ v (Nat.succ_pos m) (by omega) hv

/-- An execute step that leaves no queue has completed the instruction. -/
theorem executeStep_boundary {limit : Nat} {s t : State} (hq : s.q ≠ []) (h : executeStep limit s = .next t)
    (ht : t.q = []) : t.boundary := by
  obtain ⟨-, -, ⟨-, hb, -⟩ | ⟨hq' | hq', -⟩⟩ := executeStep_end h
  · exact hb
  · exact absurd hq' hq
  · exact absurd ht hq'

/-- A tick that is an execute step of a queue, and what comes after it: nothing, once the queue is empty. -/
theorem TicksTo.of_executeStep {limit : Nat} {s w : State} {g : State → Res State} (hs : s.Inv)
    (htick : tick s = executeStep limit w) (hw : w.q ≠ []) (hdone : ∀ u : State, u.q = [] → g u = .next u)
    (hmore : ∀ u : State, tick s = .next u → u.Inv → u.q ≠ [] → TicksTo u (g u)) :
    TicksTo s (andThen (executeStep limit w) g) := by
  rcases tick_good hs with ⟨u, hu, hinv⟩ | ⟨a, ha⟩
  · rw [← htick, hu, andThen_next]
    by_cases huq : u.q = []
    · rw [hdone u huq]
      exact .done hu (executeStep_boundary hw (htick ▸ hu) huq)
    · exact .more hu (fun hop => huq (hinv.slots.idle hop).2) (hmore u hu hinv huq)
  · rw [← htick, ha, andThen_fault]
    exact .fault ha

theorem finish_ticksTo {fuel : Nat} {s : State} (hs : s.Inv) (hq : s.q ≠ []) (hf : s.q.length ≤ fuel) :
    TicksTo s (finish fuel s) := by
  induction fuel generalizing s with
  | zero => exact absurd (List.eq_nil_of_length_eq_zero (Nat.le_zero.mp hf)) hq
  | succ fuel ih =>
    have htick := tick_queued s hq
    have hfinish : finish (fuel + 1) s = andThen (executeStep 2 s) (finish fuel) := by
      simp only [finish, List.isEmpty_iff, hq, if_false, htick]
    rw [hfinish]
    refine .of_executeStep hs htick hq (finish_of_empty fuel) fun u hu hinv huq => ih hinv huq ?_
    have hlt := tick_q_lt hs hq hu
    omega

/-- The fetch phase and the run, from the byte fetched first: it completes the operands, or the phase goes on. -/
theorem fetchPhase_then_run (fuel : Nat) (s : State) :
    andThen (fetchPhase (fuel + 1) s) runSlots = andThen (fetchByte s) fun u =>
      if operandsComplete u then runSlots u
      else andThen (fetchPhase fuel { u with cycles := u.cycles + 1 }) runSlots := by
  rw [fetchPhase, andThen_assoc]
  refine andThen_congr fun u _ => ?_
  cases operandsComplete u <;> rfl

theorem fetch_ticksTo {fuel : Nat} {s : State} (hs : s.Inv) (hq : s.q = []) (hf : s.Awaits fuel) :
    TicksTo s (andThen (fetchPhase fuel s) runSlots) := by
  induction fuel generalizing s with
  | zero => exact absurd hf (hs.not_awaits_zero hq)
  | succ fuel ih =>
    have htick := tick_of_empty hq
    rw [fetchPhase_then_run]
    rcases fetchByte_good hs hq with ⟨u, hu, hfetched⟩ | ⟨a, ha⟩
    · rw [hu, andThen_next] at htick ⊢
      cases hc : operandsComplete u with
      | true =>
        rw [hc, if_pos rfl] at htick
        refine .of_executeStep hs htick (buildQueue_ne_nil _ _) (fun v => finish_of_empty _ v)
          fun v _ hinv hvq => finish_ticksTo hinv hvq ?_
        unfold tickBound
        omega
      | false =>
        rw [hc, if_neg Bool.false_ne_true] at htick
        have hinv := hfetched.inv_of_incomplete hc (u.cycles + 1)
        have hawaits : u.Awaits fuel := fetchByte_awaits hu hf
        obtain ⟨-, -, hop⟩ := fetchByte_frame hu
        exact .more htick hop (ih hinv hfetched.queue hawaits)
    · rw [ha, andThen_fault] at htick ⊢
      exact .fault htick

theorem step_ticksTo {s : State} (hs : s.Inv) : TicksTo s (step s) := by
  by_cases hq : s.q = []
  · rw [step_of_empty hs hq]
    exact fetch_ticksTo hs hq s.awaits_maxLength
  · rw [step_of_queue hq]
    exact finish_ticksTo hs hq (by unfold tickBound; omega)

/-- Settles O24: a step is the loop of `finish`, after the fetch phase where no queue is built; both are ticks. -/
theorem stepIsTicksToCompletion : Obligations.StepIsTicksToCompletion := by
  unfold Obligations.StepIsTicksToCompletion
  intro s hs
  obtain ⟨n, hn, hr, hb, hfirst⟩ := (step_ticksTo hs).exists_tickN
  exact ⟨fun t h => ⟨n, hn, hr.trans h, hb t h, hfirst⟩, fun f h => ⟨n, hr.trans h⟩⟩

end Sys2Proof.Machine

/-! PROOFS. The fetch of an instruction whose bytes are stored (41_scheduler.md R165 to R168): the fetch phase ends
in the state `afterFetch`; and the worked example of R181, tick by tick. -/

namespace Sys2Proof.Machine

/-! ## The fetch of stored bytes -/

theorem State.boundary.q_eq_nil {s : State} (h : s.boundary) : s.q = [] := h.2.2

/-- The first byte of an instruction goes to the opcode slot. -/
theorem fetchByte_first {s : State} {v : Byte} (hb : s.boundary) (hs : s.bus.stored s.pc = true)
    (hv : s.peek s.pc = v) : fetchByte s = .next (afterFetch s [v]) := by
  obtain ⟨hop, hopnds, -⟩ := hb
  subst hv
  simp [fetchByte, Bus.read_stored hs, hop, hopnds, afterFetch, State.peek]

/-- Every other byte goes to the operand buffer. -/
theorem fetchByte_afterFetch {s : State} {b v : Byte} {l : List Byte} (c : Nat)
    (hs : s.bus.stored (s.pc + BitVec.ofNat 16 (b :: l).length) = true)
    (hv : s.peek (s.pc + BitVec.ofNat 16 (b :: l).length) = v) :
    fetchByte ((afterFetch s (b :: l)).at s.q c) = .next ((afterFetch s (b :: (l ++ [v]))).at s.q c) := by
  subst hv
  have hread : ((afterFetch s (b :: l)).at s.q c).bus.stored (s.pc + BitVec.ofNat 16 (b :: l).length) = true :=
    hs
  have hpc : s.pc + BitVec.ofNat 16 (b :: l).length + 1 = s.pc + BitVec.ofNat 16 ((b :: l).length + 1) := by
    rw [BitVec.add_assoc, BitVec.ofNat_add]; rfl
  have hlog : (b :: (l ++ [s.peek (s.pc + BitVec.ofNat 16 (b :: l).length)])).zipIdx =
      (b :: l).zipIdx ++ [(s.peek (s.pc + BitVec.ofNat 16 (b :: l).length), (b :: l).length)] := by
    rw [← List.cons_append, List.zipIdx_append, Nat.zero_add]; rfl
  have hpc' : ((afterFetch s (b :: l)).at s.q c).pc = s.pc + BitVec.ofNat 16 (b :: l).length := rfl
  rw [fetchByte, hpc', Bus.read_stored hread, andThen_next]
  simp only [State.at, afterFetch, hlog, List.map_append, List.reverse_append, hpc]
  simp [State.peek, Bus.cellAt]

theorem operandsComplete_afterFetch (s : State) (b : Byte) (l : List Byte) (q : List MicroOp) (c : Nat) :
    operandsComplete ((afterFetch s (b :: l)).at q c) = true ↔ l.length = operandCount (decodeMode b) :=
  beq_iff_eq

/-- The fetch phase goes on to the last operand byte: `rest` is what it has still to fetch. -/
theorem fetchPhase_afterFetch {s : State} {b : Byte} {rest : List Byte} (fuel : Nat) (l : List Byte)
    (hold : HoldsAtPC s (b :: (l ++ rest))) (hlen : (l ++ rest).length = operandCount (decodeMode b))
    (hne : rest ≠ []) (hf : rest.length ≤ fuel) :
    fetchPhase fuel ((afterFetch s (b :: l)).at s.q (s.cycles + (b :: l).length)) =
      .next (afterFetch s (b :: (l ++ rest))) := by
  induction rest generalizing fuel l with
  | nil => exact absurd rfl hne
  | cons v rest ih =>
    obtain ⟨fuel, rfl⟩ : ∃ n, fuel = n + 1 := ⟨fuel - 1, by rw [List.length_cons] at hf; omega⟩
    have hsplit : l ++ v :: rest = (l ++ [v]) ++ rest := by simp
    obtain ⟨hs, hv⟩ := hold (b :: l).length (by simp)
    have hv' : s.peek (s.pc + BitVec.ofNat 16 (b :: l).length) = v := hv.trans (by simp)
    rw [fetchPhase, fetchByte_afterFetch _ hs hv', andThen_next]
    cases rest with
    | nil =>
      rw [if_pos ((operandsComplete_afterFetch ..).mpr hlen)]
      simp [State.at, afterFetch]
    | cons w rest =>
      have hlong : (l ++ [v]).length ≠ operandCount (decodeMode b) := by rw [← hlen]; simp
      rw [if_neg (mt (operandsComplete_afterFetch ..).mp hlong), hsplit]
      have hrest := ih fuel (l ++ [v]) (hsplit ▸ hold) (hsplit ▸ hlen) (List.cons_ne_nil _ _)
        (by simpa using hf)
      rwa [show (b :: (l ++ [v])).length = (b :: l).length + 1 by simp, ← Nat.add_assoc] at hrest

/-- The fetch phase of an instruction whose bytes are stored at PC. -/
theorem fetchPhase_of_holds {s : State} {b : Byte} {l : List Byte} (hb : s.boundary)
    (hold : HoldsAtPC s (b :: l)) (hlen : l.length = operandCount (decodeMode b)) :
    fetchPhase maxLength s = .next (afterFetch s (b :: l)) := by
  obtain ⟨hs, hv⟩ := hold 0 (by simp)
  rw [show s.pc + BitVec.ofNat 16 0 = s.pc from BitVec.add_zero _] at hs hv
  have hle := operandCount_le (decodeMode b)
  rw [show maxLength = 2 + 1 from rfl, fetchPhase, fetchByte_first hb hs hv, andThen_next]
  have hcomplete := operandsComplete_afterFetch s b [] s.q s.cycles
  cases l with
  | nil => exact if_pos (hcomplete.mpr hlen)
  | cons v rest =>
    have hlong : ([] : List Byte).length ≠ operandCount (decodeMode b) := by rw [← hlen]; simp
    exact (if_neg (mt hcomplete.mp hlong)).trans
      (fetchPhase_afterFetch 2 [] hold hlen (List.cons_ne_nil _ _) (hlen ▸ hle))

/-- Settles O11: the fetch phase takes the bytes of the instruction, which are it again in the slots. -/
theorem stepRunsTheDecodedInstruction : Obligations.StepRunsTheDecodedInstruction := by
  unfold Obligations.StepRunsTheDecodedInstruction
  intro s i bytes hb hw henc hold
  obtain ⟨b, hinstr⟩ := Instr.exists_instrOf_of_wf hw
  rw [encode_of_instrOf hinstr] at henc
  cases henc
  rw [step, hb.q_eq_nil, List.isEmpty_nil, if_pos rfl, fetchPhase_of_holds hb hold (length_of_instrOf hinstr),
    andThen_next]
  have hslot : slotInstr (afterFetch s (b :: i.operandBytes)) = some i := hinstr
  rw [hslot]

/-! ## The worked example -/

/-- `LDA $1234` after its decode tick (41_scheduler.md R181). -/
def afterLdaDecode (s : State) : State :=
  { afterFetch s [0xAD, 0x34, 0x12] with ea := 0x1234, q := [.read, .exec], cycles := s.cycles + 3 }

/-- Its operand latch and the bus after the byte `v` is read. -/
def afterLdaRead (s : State) (v : Byte) : State :=
  { afterLdaDecode s with
    m := v
    bus := { (afterLdaDecode s).bus with log := .read 0x1234 v :: (afterLdaDecode s).bus.log } }

/-- And after its last tick. -/
def afterLda (s : State) (v : Byte) : State := completed 1 (ldaBody (afterLdaRead s v))

theorem afterLda_p (s : State) (v : Byte) : (afterLda s v).p = setNZ v s.p := rfl

theorem executeStep_lda_decode (s : State) :
    executeStep 1 (loaded (.lda (.abs 0x1234)) 0xAD (afterFetch s [0xAD, 0x34, 0x12])) =
      .next (afterLdaDecode s) := rfl

theorem tick_afterLdaDecode {s : State} {v : Byte} (hs : s.bus.stored 0x1234 = true)
    (hv : s.peek 0x1234 = v) : tick (afterLdaDecode s) = .next (afterLda s v) := by
  subst hv
  have hread : (afterLdaDecode s).bus.stored 0x1234 = true := hs
  have hea : (afterLdaDecode s).ea = 0x1234 := rfl
  have hrun : doRead (afterLdaDecode s) = .next (afterLdaRead s (s.peek 0x1234)) := by
    rw [doRead, hea, Bus.read_stored hread, andThen_next]
    rfl
  have hstep := executeStep_eq 2 [.read, .exec] (afterLdaDecode s) (s.cycles + 3) rfl
  have hat : (afterLdaDecode s).at [.read, .exec] (s.cycles + 3) = afterLdaDecode s := rfl
  have hsplit : budgetSplit 2 0 [.read, .exec] = ([.read, .exec], []) := rfl
  rw [hat, hsplit] at hstep
  simp only [performAll, perform, hrun, andThen_next] at hstep
  rw [tick_queued _ (List.cons_ne_nil _ _), hstep]
  rfl

section
variable {s : State} (hb : s.boundary) (hold : HoldsAtPC s [0xAD, 0x34, 0x12])
include hb hold

theorem tick_lda_first : tick s = .next ((afterFetch s [0xAD]).at s.q (s.cycles + 1)) := by
  obtain ⟨hs, hv⟩ := hold 0 (by decide)
  rw [show s.pc + BitVec.ofNat 16 0 = s.pc from BitVec.add_zero _] at hs hv
  rw [tick_of_empty hb.q_eq_nil, fetchByte_first hb hs hv]
  rfl

theorem tick_lda_second :
    tick ((afterFetch s [0xAD]).at s.q (s.cycles + 1)) =
      .next ((afterFetch s [0xAD, 0x34]).at s.q (s.cycles + 2)) := by
  obtain ⟨hs, hv⟩ := hold 1 (by decide)
  have hq : ((afterFetch s [0xAD]).at s.q (s.cycles + 1)).q = [] := hb.q_eq_nil
  have hfetch : fetchByte ((afterFetch s [0xAD]).at s.q (s.cycles + 1)) =
      .next ((afterFetch s [0xAD, 0x34]).at s.q (s.cycles + 1)) :=
    fetchByte_afterFetch (b := 0xAD) (l := []) _ hs hv
  rw [tick_of_empty hq, hfetch]
  rfl

/-- The third tick takes the last operand byte and decodes. -/
theorem tick_lda_third :
    tick ((afterFetch s [0xAD, 0x34]).at s.q (s.cycles + 2)) = .next (afterLdaDecode s) := by
  obtain ⟨hs, hv⟩ := hold 2 (by decide)
  have hq : ((afterFetch s [0xAD, 0x34]).at s.q (s.cycles + 2)).q = [] := hb.q_eq_nil
  have hfetch : fetchByte ((afterFetch s [0xAD, 0x34]).at s.q (s.cycles + 2)) =
      .next ((afterFetch s [0xAD, 0x34, 0x12]).at s.q (s.cycles + 2)) :=
    fetchByte_afterFetch (b := 0xAD) (l := [0x34]) _ hs hv
  have hcomplete : operandsComplete ((afterFetch s [0xAD, 0x34, 0x12]).at s.q (s.cycles + 2)) = true := rfl
  rw [tick_of_empty hq, hfetch, andThen_next, if_pos hcomplete]
  exact executeStep_lda_decode s

theorem step_lda {v : Byte} (hs : s.bus.stored 0x1234 = true) (hv : s.peek 0x1234 = v) :
    step s = .next (afterLda s v) := by
  have hopc : (Instr.lda (.abs 0x1234)).opcode? = some 0xAD := rfl
  have hfinish : finish (tickBound (afterLdaDecode s)) (afterLdaDecode s) =
      andThen (tick (afterLdaDecode s)) (finish 5) := rfl
  rw [stepRunsTheDecodedInstruction s (.lda (.abs 0x1234)) [0xAD, 0x34, 0x12] hb rfl rfl hold,
    exec_eq_runInstr, runInstr, hopc]
  simp only [executeStep_lda_decode, andThen_next]
  rw [hfinish, tick_afterLdaDecode hs hv, andThen_next, finish_of_empty 5 _ rfl]

end

/-- Settles O26: two fetches that leave operands to come, the decode tick, and the tick that reads and completes. -/
theorem workedExampleLda1234 : Obligations.WorkedExampleLda1234 := by
  unfold Obligations.WorkedExampleLda1234
  intro s hb hpc hold hs hv
  have hq : s.q = [] := hb.q_eq_nil
  have h1 : ∀ n, tickN (n + 1) s = tickN n _ := tickN_succ_of_next (tick_lda_first hb hold)
  have h2 : ∀ n, tickN (n + 2) s = tickN n _ := fun n =>
    (h1 (n + 1)).trans (tickN_succ_of_next (tick_lda_second hb hold) n)
  have h3 : ∀ n, tickN (n + 3) s = tickN n _ := fun n =>
    (h2 (n + 1)).trans (tickN_succ_of_next (tick_lda_third hb hold) n)
  have h4 : tickN 4 s = .next (afterLda s 0x80) :=
    (h3 1).trans (tickN_succ_of_next (tick_afterLdaDecode hs hv) 0)
  have hpc1 : s.pc + 1 = 0x0601 := by rw [hpc]; rfl
  have hpc2 : s.pc + 2 = 0x0602 := by rw [hpc]; rfl
  have hpc3 : s.pc + 3 = 0x0603 := by rw [hpc]; rfl
  have hnz : NZof 0x80 (afterLda s 0x80).p := by rw [afterLda_p]; exact setNZ_NZof _ _
  exact ⟨⟨_, h1 0, rfl, hpc1, rfl, hq⟩, ⟨_, h2 0, rfl, hpc2, hq⟩, ⟨_, h3 0, rfl, hpc3, rfl, rfl, rfl⟩,
    ⟨_, h4, rfl, rfl, hnz.2, hnz.1, ⟨rfl, rfl, rfl⟩, hpc3, rfl⟩, ⟨_, step_lda hb hold hs hv, h4⟩⟩

end Sys2Proof.Machine

/-! PROOFS. No latch carries a value across an instruction boundary (41_scheduler.md R175, 10_state.md R44): a
micro-op reads only latches that an earlier one of the same queue wrote, so two states that differ in the latches
at a boundary stay so to the end of the step. -/

namespace Sys2Proof.Machine

/-! ## The latches a micro-op reads and writes -/

/-- The latches of 10_state.md R44. -/
inductive Latch where
  | ea | m | sv | ret
  deriving DecidableEq

def Latch.width : Latch → Nat
  | .ea | .ret => 16
  | .m | .sv => 8

def State.latch (s : State) : (l : Latch) → BitVec l.width
  | .ea => s.ea
  | .m => s.m
  | .sv => s.sv
  | .ret => s.ret

/-- The latches that the Exec of an instruction type reads: a branch its target, the READ class and the shifts of
A their operand. -/
def execReads (t : InstrType) : List Latch :=
  if isBranch t then [.ea]
  else
    match t with
    | .lda | .ldx | .ldy | .adc | .sbc | .and | .ora | .eor | .cmp | .cpx | .cpy | .bit
    | .asl | .lsr | .rol | .ror => [.m]
    | _ => []

/-- The latches a micro-op reads, in an instruction of this type (41_scheduler.md R163). -/
def latchReads (t : InstrType) : MicroOp → List Latch
  | .read | .jump => [.ea]
  | .write => [.ea, .sv]
  | .exec => execReads t
  | .modify => [.m]
  | .pushPCH | .pushPCL => [.ret]
  | _ => []

/-- The latches that staging writes (40_address_modes.md R143). -/
def stageWrites : InstrType → List Latch
  | .sta | .stx | .sty => [.sv]
  | .jsr | .brk => [.ret]
  | _ => []

/-- The latch that the mode's part of Resolve writes (40_address_modes.md R131 to R141). -/
def modeWrites : Mode → List Latch
  | .imp | .none => []
  | .acc | .imm => [.m]
  | _ => [.ea]

/-- The latches a micro-op writes, in an instruction of this type and mode. -/
def latchWrites (x : InstrType × Mode) : MicroOp → List Latch
  | .resolve => stageWrites x.1 ++ modeWrites x.2
  | .read => [.m]
  | .modify => [.sv]
  | _ => []

/-- With the latches `known` written, each micro-op of the list reads only latches written before it. -/
def readsOnlyWritten (x : InstrType × Mode) : List Latch → List MicroOp → Bool
  | _, [] => true
  | known, k :: rest =>
    (latchReads x.1 k).all known.contains && readsOnlyWritten x (latchWrites x k ++ known) rest

theorem Instr.decodePair_of_opcode {i : Instr} {b : Byte} (h : i.opcode? = some b) :
    decodePair b = (i.type, i.mode) := by
  obtain ⟨c, hc, hpair⟩ := Instr.opcode_of_wf (Instr.wf_of_opcode h)
  cases h.symm.trans hc
  exact hpair

theorem buildQueue_readsOnlyWritten (b : Byte) :
    readsOnlyWritten (decodePair b) [] (buildQueue (decodePair b).1 (decodePair b).2) = true := by
  revert b
  decide +kernel

/-! ## Two states that differ in the latches -/

def State.setLatch (s : State) : (l : Latch) → BitVec l.width → State
  | .ea, v => { s with ea := v }
  | .m, v => { s with m := v }
  | .sv, v => { s with sv := v }
  | .ret, v => { s with ret := v }

theorem latch_setLatch_same (s : State) (l : Latch) (v : BitVec l.width) : (s.setLatch l v).latch l = v := by
  cases l <;> rfl

theorem latch_setLatch_of_ne (s : State) {l j : Latch} (h : j ≠ l) (v : BitVec l.width) :
    (s.setLatch l v).latch j = s.latch j := by
  cases l <;> cases j <;> first | rfl | exact absurd rfl h

/-- The second state is the first with other latches, and the two agree on the latches `known`. -/
structure AgreesOn (known : List Latch) (s u : State) : Prop where
  rest : ∃ ea m sv ret, u = { s with ea := ea, m := m, sv := sv, ret := ret }
  known : ∀ l ∈ known, u.latch l = s.latch l

/-- One value written to a latch of both states is known from then on. -/
theorem AgreesOn.setLatch {known : List Latch} {s u : State} (h : AgreesOn known s u) (l : Latch)
    (v : BitVec l.width) : AgreesOn (l :: known) (s.setLatch l v) (u.setLatch l v) where
  rest := by
    obtain ⟨⟨ea, m, sv, ret, rfl⟩, -⟩ := h
    cases l <;> exact ⟨_, _, _, _, rfl⟩
  known j hj := by
    by_cases hjl : j = l
    · subst hjl
      rw [latch_setLatch_same, latch_setLatch_same]
    · rw [latch_setLatch_of_ne _ hjl, latch_setLatch_of_ne _ hjl]
      exact h.known j (List.mem_of_ne_of_mem hjl hj)

section
variable {known : List Latch} {s u : State}

theorem stage_agreesOn (h : AgreesOn known s u) (t : InstrType) :
    AgreesOn (stageWrites t ++ known) (stage t s) (stage t u) := by
  obtain ⟨ea, m, sv, ret, rfl⟩ := h.rest
  cases t
  case sta => exact h.setLatch .sv s.a
  case stx => exact h.setLatch .sv s.x
  case sty => exact h.setLatch .sv s.y
  case jsr => exact h.setLatch .ret (s.pc - 1 : Addr)
  case brk => exact h.setLatch .ret (s.pc + 1 : Addr)
  all_goals exact h

theorem resolveMode_agreesOn (h : AgreesOn known s u) (md : Mode) (l : List Byte) :
    SameOutcome (AgreesOn (modeWrites md ++ known)) (resolveMode md l s) (resolveMode md l u) := by
  obtain ⟨ea, m, sv, ret, rfl⟩ := h.rest
  cases md
  case imp | none => exact .next h
  case acc => exact .next (h.setLatch .m s.a)
  case imm =>
    rcases l with _ | ⟨b1, _ | ⟨b2, l⟩⟩
    · exact .inr ⟨_, rfl, rfl⟩
    · exact .next (h.setLatch .m b1)
    · exact .inr ⟨_, rfl, rfl⟩
  all_goals
    refine .after (effAddr_ne_refused _ l s) fun r => .next ?_
    have hbus : AgreesOn known { s with bus := r.2 }
        { s with ea := ea, m := m, sv := sv, ret := ret, bus := r.2 } := ⟨⟨_, _, _, _, rfl⟩, h.known⟩
    exact hbus.setLatch .ea r.1

theorem execBody_agreesOn (h : AgreesOn known s u) {t : InstrType} (hr : ∀ l ∈ execReads t, l ∈ known) :
    SameOutcome (AgreesOn known) (execBody t s) (execBody t u) := by
  obtain ⟨⟨ea, m, sv, ret, rfl⟩, hknown⟩ := h
  cases hb : isBranch t with
  | true =>
    obtain rfl : ea = s.ea := hknown .ea (hr .ea (by simp [execReads, hb]))
    obtain ⟨f, test, -, -, hexec⟩ := execBody_branch hb
    rw [hexec, hexec]
    cases test (getFlag f s.p) <;> exact .next ⟨⟨_, _, _, _, rfl⟩, hknown⟩
  | false =>
    cases t
    case bpl | bmi | bvc | bvs | bcc | bcs | bne | beq => cases hb
    case lda | ldx | ldy | adc | sbc | and | ora | eor | cmp | cpx | cpy | bit | asl | lsr | rol | ror =>
      obtain rfl : m = s.m := hknown .m (hr .m List.mem_cons_self)
      exact .next ⟨⟨_, _, _, _, rfl⟩, hknown⟩
    case sta | stx | sty | inc | dec | jmp | jsr | rts | pha | php | pla | plp | brk | rti =>
      exact .inr ⟨_, rfl, rfl⟩
    all_goals exact .next ⟨⟨_, _, _, _, rfl⟩, hknown⟩

/-- A Modify body computes `sv` and P from `m` and P; the other types have none. -/
theorem modifyBody_cases (t : InstrType) :
    (∃ f g : Byte → Byte → Byte,
      ∀ s, modifyBody t s = .next { s with p := g s.m s.p, sv := f s.m s.p }) ∨
      ∀ s, modifyBody t s = .fault (.internalFault .handler) := by
  have hshift : ∀ fn : Byte → Bool → Byte × Bool, ∃ f g : Byte → Byte → Byte,
      ∀ s, shiftModify fn s = { s with p := g s.m s.p, sv := f s.m s.p } := fun fn =>
    ⟨fun m p => (fn m (getFlag .c p)).1, fun m p => shiftFlags (fn m (getFlag .c p)) p, fun _ => rfl⟩
  cases t
  case inc => exact .inl ⟨fun m _ => m + 1, fun m p => setNZ (m + 1) p, fun _ => rfl⟩
  case dec => exact .inl ⟨fun m _ => m - 1, fun m p => setNZ (m - 1) p, fun _ => rfl⟩
  case asl => obtain ⟨f, g, h⟩ := hshift aslFn; exact .inl ⟨f, g, fun s => congrArg _ (h s)⟩
  case lsr => obtain ⟨f, g, h⟩ := hshift lsrFn; exact .inl ⟨f, g, fun s => congrArg _ (h s)⟩
  case rol => obtain ⟨f, g, h⟩ := hshift rolFn; exact .inl ⟨f, g, fun s => congrArg _ (h s)⟩
  case ror => obtain ⟨f, g, h⟩ := hshift rorFn; exact .inl ⟨f, g, fun s => congrArg _ (h s)⟩
  all_goals exact .inr fun _ => rfl

theorem modifyBody_agreesOn (h : AgreesOn known s u) (hm : .m ∈ known) (t : InstrType) :
    SameOutcome (AgreesOn (.sv :: known)) (modifyBody t s) (modifyBody t u) := by
  obtain ⟨⟨ea, m, sv, ret, rfl⟩, hknown⟩ := h
  obtain rfl : m = s.m := hknown .m hm
  rcases modifyBody_cases t with ⟨f, g, hbody⟩ | hbody
  · rw [hbody, hbody]
    have hp : AgreesOn known { s with p := g s.m s.p }
        { s with ea := ea, sv := sv, ret := ret, p := g s.m s.p } := ⟨⟨_, _, _, _, rfl⟩, hknown⟩
    exact .next (hp.setLatch .sv (f s.m s.p))
  · exact .inr ⟨_, hbody _, hbody _⟩

theorem perform_agreesOn (h : AgreesOn known s u) {k : MicroOp}
    (hr : ∀ l ∈ latchReads s.ins.1 k, l ∈ known) :
    SameOutcome (AgreesOn (latchWrites s.ins k ++ known)) (perform k s) (perform k u) := by
  have hkeep := h
  obtain ⟨⟨ea, m, sv, ret, rfl⟩, hknown⟩ := h
  cases k
  case resolve =>
    refine (resolveMode_agreesOn hkeep s.ins.2 s.opnds).bind fun t v htv => .next ?_
    rw [latchWrites, List.append_assoc]
    exact stage_agreesOn htv s.ins.1
  case exec => exact execBody_agreesOn hkeep hr
  case modify => exact modifyBody_agreesOn hkeep (hr .m List.mem_cons_self) s.ins.1
  case idle | incPC => exact .next ⟨⟨_, _, _, _, rfl⟩, hknown⟩
  case jump =>
    obtain rfl : ea = s.ea := hknown .ea (hr .ea List.mem_cons_self)
    exact .next ⟨⟨_, _, _, _, rfl⟩, hknown⟩
  case read =>
    obtain rfl : ea = s.ea := hknown .ea (hr .ea List.mem_cons_self)
    refine .after (Bus.read_ne_refused _ _) fun r => .next ?_
    have hbus : AgreesOn known { s with bus := r.2 } { s with m := m, sv := sv, ret := ret, bus := r.2 } :=
      ⟨⟨_, _, _, _, rfl⟩, hknown⟩
    exact hbus.setLatch .m r.1
  case write =>
    obtain rfl : ea = s.ea := hknown .ea (hr .ea List.mem_cons_self)
    obtain rfl : sv = s.sv := hknown .sv (hr .sv (List.mem_cons_of_mem _ List.mem_cons_self))
    exact .after (Bus.write_ne_refused _ _ _) fun b => .next ⟨⟨_, _, _, _, rfl⟩, hknown⟩
  case pushPCH | pushPCL =>
    obtain rfl : ret = s.ret := hknown .ret (hr .ret List.mem_cons_self)
    exact .after (Bus.write_ne_refused _ _ _) fun b => .next ⟨⟨_, _, _, _, rfl⟩, hknown⟩
  case pushA | pushP =>
    exact .after (Bus.write_ne_refused _ _ _) fun b => .next ⟨⟨_, _, _, _, rfl⟩, hknown⟩
  case vector =>
    exact .after (Bus.readWord_ne_refused _ _) fun r => .next ⟨⟨_, _, _, _, rfl⟩, hknown⟩
  case pullA | pullP | pullPCL | pullPCH =>
    simp only [perform, doPullA, doPullP, doPullPCL, doPullPCH, pull, andThen_assoc, andThen_next]
    exact .after (Bus.read_ne_refused _ _) fun r => .next ⟨⟨_, _, _, _, rfl⟩, hknown⟩

end

theorem SameOutcome.and_left {R : State → State → Prop} {P : State → Prop} {x y : Res State}
    (h : SameOutcome R x y) (hx : ∀ t, x = .next t → P t) : SameOutcome (fun t u => R t u ∧ P t) x y := by
  rcases h with ⟨t, u, ht, hu, hr⟩ | he
  · exact .inl ⟨t, u, ht, hu, hr, hx t ht⟩
  · exact .inr he

theorem performAll_agreesOn {x : InstrType × Mode} {l : List MicroOp} {known : List Latch} {s u : State}
    (h : AgreesOn known s u) (hi : s.ins = x) (hl : readsOnlyWritten x known l = true) :
    SameOutcome (AgreesOn []) (performAll l s) (performAll l u) := by
  induction l generalizing known s u with
  | nil => exact .next ⟨h.rest, nofun⟩
  | cons k rest ih =>
    subst hi
    simp only [readsOnlyWritten, Bool.and_eq_true, List.all_eq_true, List.contains_iff_mem] at hl
    have hins : ∀ t, perform k s = .next t → t.ins = s.ins := fun t ht => (perform_slots ht).ins
    exact ((perform_agreesOn h hl.1).and_left hins).bind fun t v ⟨htv, hi⟩ => ih htv hi hl.2

/-! ## The step -/

theorem exec_sameButLatches {i : Instr} {b : Byte} {s u : State} (hop : i.opcode? = some b)
    (h : AgreesOn [] s u) :
    SameOutcome (fun t v => SameButLatches (.next t) (.next v)) (exec i s) (exec i u) := by
  obtain ⟨ea, m, sv, ret, rfl⟩ := h.rest
  cases hb : isBranch i.type with
  | false =>
    rw [exec_eq_performAll hop hb rfl, exec_eq_performAll hop hb rfl]
    have hwritten := buildQueue_readsOnlyWritten b
    rw [Instr.decodePair_of_opcode hop] at hwritten
    have hload : AgreesOn [] (loaded i b s) (loaded i b { s with ea := ea, m := m, sv := sv, ret := ret }) :=
      ⟨⟨_, _, _, _, rfl⟩, nofun⟩
    refine (performAll_agreesOn hload rfl hwritten).bind fun t v htv => .next ?_
    obtain ⟨ea, m, sv, ret, rfl⟩ := htv.rest
    rfl
  | true =>
    obtain ⟨f, test, b1, -, -, -, hrun⟩ := exec_branch hop hb
    rw [hrun, hrun]
    exact .next rfl

theorem opcode_of_slotInstr {s : State} {i : Instr} (h : slotInstr s = some i) : ∃ b, i.opcode? = some b := by
  cases hop : s.op with
  | none => rw [slotInstr, hop] at h; cases h
  | some b => rw [slotInstr, hop] at h; exact ⟨b, opcode_of_instrOf h⟩

/-- A fetch replaces the instruction latch and touches no other. -/
theorem fetchByte_agreesOn (s : State) (ins : InstrType × Mode) (ea ret : Addr) (m sv : Byte) :
    SameOutcome (AgreesOn []) (fetchByte s)
      (fetchByte { s with ins := ins, ea := ea, m := m, sv := sv, ret := ret }) := by
  refine .after (Bus.read_ne_refused _ _) fun r => ?_
  cases hop : s.op <;> exact .next ⟨⟨_, _, _, _, rfl⟩, nofun⟩

theorem fetchPhase_agreesOn (fuel : Nat) (s : State) (ins : InstrType × Mode) (ea ret : Addr) (m sv : Byte) :
    SameOutcome (AgreesOn []) (fetchPhase fuel s)
      (fetchPhase fuel { s with ins := ins, ea := ea, m := m, sv := sv, ret := ret }) := by
  induction fuel generalizing s ins ea m sv ret with
  | zero => exact .inr ⟨_, rfl, rfl⟩
  | succ fuel ih =>
    refine (fetchByte_agreesOn s ins ea ret m sv).bind fun t v htv => ?_
    obtain ⟨ea, m, sv, ret, rfl⟩ := htv.rest
    cases hc : operandsComplete t with
    | true =>
      have hc' : operandsComplete { t with ea := ea, m := m, sv := sv, ret := ret } = true := hc
      rw [if_pos hc']
      exact .next htv
    | false =>
      have hc' : operandsComplete { t with ea := ea, m := m, sv := sv, ret := ret } = false := hc
      rw [hc', if_neg Bool.false_ne_true]
      exact ih { t with cycles := t.cycles + 1 } t.ins ea ret m sv

/-- Settles O27: the fetch phase leaves states that differ in the latches alone, and so does the run of what it
fetched. -/
theorem latchesCarryNothingAcrossInstructions : Obligations.LatchesCarryNothingAcrossInstructions := by
  unfold Obligations.LatchesCarryNothingAcrossInstructions
  rintro s ins ea ret m sv ⟨-, -, hq⟩
  have hempty : s.q.isEmpty = true := List.isEmpty_iff.mpr hq
  have hstep : SameOutcome (fun t v => SameButLatches (.next t) (.next v)) (step s)
      (step { s with ins := ins, ea := ea, m := m, sv := sv, ret := ret }) := by
    simp only [step, hempty, if_true]
    refine (fetchPhase_agreesOn maxLength s ins ea ret m sv).bind fun t v htv => ?_
    obtain ⟨ea, m, sv, ret, rfl⟩ := htv.rest
    have hsame : slotInstr { t with ea := ea, m := m, sv := sv, ret := ret } = slotInstr t := rfl
    rw [hsame]
    cases hslot : slotInstr t with
    | none => exact .inr ⟨_, rfl, rfl⟩
    | some i =>
      obtain ⟨b, hop⟩ := opcode_of_slotInstr hslot
      exact exec_sameButLatches hop htv
  rcases hstep with ⟨t, v, ht, hv, htv⟩ | ⟨e, ht, hv⟩ <;> rw [ht, hv]
  · exact htv
  · exact rfl

end Sys2Proof.Machine

/-! PROOFS. Loads, stores and transfers (42_load_store_transfer.md R200 to R212), from one lemma for each shape of
instruction: a READ form (`IsRead.readRule`), a STORE form (`storeRule_of_isStore`) and an instruction whose only
step is its Exec (`IsBare.bareRule`). The opcode bytes of a type are those of its opcode list. -/

namespace Sys2Proof.Machine

/-! ## Opcode bytes -/

theorem decodePair_of_mem_opcodesOf (t : InstrType) : ∀ x ∈ opcodesOf t, decodePair x.2 = (t, x.1) := by
  cases t <;> decide +kernel

/-- The matrix has a documented type at exactly the bytes that the type's rule lists (30_encoding.md R103). -/
theorem hasOpcodes_opcodesOf {t : InstrType} (ht : t ≠ .illegal) : HasOpcodes t (opcodesOf t) := by
  refine fun b md => ⟨fun hpair => ?_, decodePair_of_mem_opcodesOf t (md, b)⟩
  obtain ⟨rfl, rfl⟩ : decodeType b = t ∧ decodeMode b = md := Prod.ext_iff.mp hpair
  have hlookup := (decodePair_facts b).2.2 ht
  obtain ⟨before, after, hlist, -⟩ := List.lookup_eq_some_iff.mp hlookup
  rw [hlist]
  exact List.mem_append_right _ List.mem_cons_self

/-! ## Completion -/

/-- An instruction that completes from a state with the counter and the sink it began with has taken the ticks of
the table (41_scheduler.md R179). -/
theorem ends_of_exec_completed {i : Instr} {n : Nat} {s u : State} (hm : i.mode ≠ .rel)
    (h : exec i s = .next (completed n u)) (hcycles : u.cycles = s.cycles) (hsink : u.sink = s.sink) :
    Ends i s u.regs u.bus := by
  have hticks : u.cycles + n + operandCount i.mode = s.cycles + tableTicks i :=
    (tickCountsAreTheTable i s _ h).1 hm
  obtain rfl : n = tableTicks i - operandCount i.mode := by omega
  refine ⟨_, h, rfl, rfl, ⟨rfl, rfl, rfl⟩, ?_, ?_⟩
  · rw [completed_cycles, hcycles]
  · rw [completed_sink, hcycles, hsink]

/-- The same for an instruction whose last step is its Exec, from a state `u` in its course. -/
theorem ends_of_exec_body {i : Instr} {n : Nat} {s u v : State} (hm : i.mode ≠ .rel)
    (h : exec i s = .next (completed n v)) (hx : execBody i.type u = .next v) (hins : u.ins.1 = i.type)
    (hcycles : u.cycles = s.cycles) (hsink : u.sink = s.sink) : Ends i s v.regs u.bus := by
  have hperform : perform .exec u = .next v := by rw [perform, hins, hx]
  have hslots := perform_slots hperform
  rw [← execBody_bus hx]
  exact ends_of_exec_completed hm h (hslots.cycles.trans hcycles) (hslots.sink.trans hsink)

/-! ## READ forms -/

/-- The operand modes of the READ forms (40_address_modes.md R142). -/
def readModes : List Mode := .zpy :: aluModes

/-- The type of a READ form stages nothing, its handler is Exec (41_scheduler.md R178), and its operands have the
modes of READ. -/
theorem handler_of_access_read {t : InstrType} {md : Mode} (h : accessClass t md = .read) :
    isBranch t = false ∧ handlerOps t md = [.exec] ∧ (∀ u, stage t u = u) ∧ t.modes ⊆ readModes := by
  cases t
  case lda | ldx | ldy | and | ora | eor | adc | sbc | cmp | cpx | cpy | bit =>
    exact ⟨rfl, rfl, fun _ => rfl, by decide⟩
  case asl | lsr | rol | ror => by_cases hm : md = .acc <;> simp [accessClass, hm] at h
  all_goals cases h

/-- Such an operand is immediate or names a memory location. -/
theorem imm_or_inMemory_of_mem_readModes {o : Operand} (h : o.mode ∈ readModes) :
    (∃ b1, o = .imm b1) ∨ inMemory o = true := by
  have hnone : Mode.acc ∉ readModes ∧ Mode.ind ∉ readModes := by decide
  cases o
  case imm b1 => exact .inl ⟨b1, rfl⟩
  case acc => exact absurd h hnone.1
  case ind => exact absurd h hnone.2
  all_goals exact .inr rfl

/-- The value of a memory operand is the byte read at its address. -/
theorem operandValue_of_inMemory {o : Operand} (h : inMemory o = true) (s : State) :
    operandValue o s = andThen (operandAddr o s) fun r => r.2.read r.1 := by
  cases o
  case acc | imm => cases h
  all_goals rfl

/-- `mk` makes READ instructions, whose Exec is `body`. -/
structure IsRead (mk : Operand → Instr) (body : State → State) : Prop where
  mode : ∀ o, (mk o).mode = o.mode
  bytes : ∀ o, (mk o).operandBytes = o.bytes
  access : ∀ o, accessClass (mk o).type o.mode = .read
  executes : ∀ o u, execBody (mk o).type u = .next (body u)

/-- The state in which a READ form runs its Exec: the operand's address, its value and the bus after its reads. -/
def State.withOperand (s : State) (ea : Addr) (r : Byte × Bus) : State :=
  { s with ea := ea, m := r.1, bus := r.2 }

/-- The meaning of a READ form: its operand is read, and its Exec runs with the value in `m`. The ticks and the
latch `ea` depend on the form. -/
theorem IsRead.exec_eq {mk : Operand → Instr} {body : State → State} (hi : IsRead mk body) {o : Operand}
    {b : Byte} (hop : (mk o).opcode? = some b) (s : State) :
    ∃ n ea, exec (mk o) s = andThen (operandValue o s) fun r =>
      .next (completed n (body ((loaded (mk o) b s).withOperand ea r))) := by
  obtain ⟨hbranch, hops, hstage, hmodes⟩ := handler_of_access_read (hi.access o)
  have hform : o.mode ∈ (mk o).type.modes := by
    have hwf := Bool.and_eq_true_iff.mp (Instr.wf_of_opcode hop)
    exact List.contains_iff_mem.mp (hi.mode o ▸ hwf.1)
  rw [exec_eq_runInstr]
  rcases imm_or_inMemory_of_mem_readModes (hmodes hform) with ⟨b1, rfl⟩ | hmem
  · rw [runInstr_readImm hop (hi.mode _) (hi.bytes _) hbranch (hi.access _) hops hstage (hi.executes _)]
    exact ⟨1, s.ea, rfl⟩
  · rw [runInstr_readMem hop (hi.mode o) (hi.bytes o) hbranch (hi.access o) hops hstage (hi.executes o) hmem,
      operandValue_of_inMemory hmem]
    cases operandAddr o s with
    | next r => exact ⟨_, r.1, rfl⟩
    | fault e => exact ⟨0, 0, rfl⟩
    | refused e => exact ⟨0, 0, rfl⟩

/-- A READ instruction does to the registers what its Exec does with the value of the operand in `m`. -/
theorem IsRead.readRule {mk : Operand → Instr} {body : State → State} {post : Byte → Regs → Regs → Prop}
    (hi : IsRead mk body) (hpost : ∀ u : State, post u.m u.regs (body u).regs) : ReadRule mk post := by
  intro o s hwf
  obtain ⟨b, hop, -⟩ := Instr.opcode_of_wf hwf
  obtain ⟨n, ea, hexec⟩ := hi.exec_eq hop s
  have hm : (mk o).mode ≠ .rel := hi.mode o ▸ Operand.mode_ne_rel o
  refine ⟨hi.access o, fun v b' hv => ?_, fun f hf => ?_⟩
  · rw [hv, andThen_next] at hexec
    exact ⟨_, hpost ((loaded (mk o) b s).withOperand ea (v, b')),
      ends_of_exec_body hm hexec (hi.executes o _) rfl rfl rfl⟩
  · rw [hexec, hf, andThen_fault]

/-- The registers after a load: N and Z are those of the value, and P is otherwise as before. -/
theorem loadPost_setNZ (upd : Byte → Regs → Regs) (v : Byte) (r : Regs) :
    LoadPost upd v r { upd v r with p := setNZ v r.p } :=
  ⟨rfl, setNZ_NZof v r.p, (OnlyFlags.refl _ _).setNZ_right (by decide) (by decide) v⟩

/-- Settles O28: each load is a READ form whose Exec copies `m` and sets N and Z from it. -/
theorem loadsFillTheirRegister : Obligations.LoadsFillTheirRegister := by
  unfold Obligations.LoadsFillTheirRegister
  have hlda : IsRead .lda ldaBody := ⟨fun _ => rfl, fun _ => rfl, fun _ => rfl, fun _ _ => rfl⟩
  have hldx : IsRead .ldx ldxBody := ⟨fun _ => rfl, fun _ => rfl, fun _ => rfl, fun _ _ => rfl⟩
  have hldy : IsRead .ldy ldyBody := ⟨fun _ => rfl, fun _ => rfl, fun _ => rfl, fun _ _ => rfl⟩
  exact ⟨hasOpcodes_opcodesOf nofun, hlda.readRule fun u => loadPost_setNZ _ u.m u.regs,
    hasOpcodes_opcodesOf nofun, hldx.readRule fun u => loadPost_setNZ _ u.m u.regs,
    hasOpcodes_opcodesOf nofun, hldy.readRule fun u => loadPost_setNZ _ u.m u.regs⟩

/-! ## STORE forms -/

/-- A store to memory idles, if at all, before its Write (41_scheduler.md R178). -/
theorem addrOps_store {o : Operand} (h : inMemory o = true) :
    ∃ idles, (∀ k ∈ idles, k = .idle) ∧ addrOps o.mode .store = idles ++ [.write] := by
  cases o
  case acc | imm | ind => cases h
  case zp | abs => exact ⟨[], nofun, rfl⟩
  case zpx | zpy | abx | aby => exact ⟨[.idle], by decide, rfl⟩
  case izx | izy => exact ⟨[.idle, .idle, .idle], by decide, rfl⟩

/-- A memory operand has operand bytes, so its queue gets no settle Idle (41_scheduler.md R171). -/
theorem operandCount_ne_zero_of_inMemory {o : Operand} (h : inMemory o = true) : operandCount o.mode ≠ 0 := by
  cases o
  case acc | imm | ind => cases h
  all_goals exact Nat.succ_ne_zero _

theorem IsStore.buildQueue_eq {i : Instr} {o : Operand} {reg : Regs → Byte} (hi : IsStore i o reg) :
    buildQueue i.type o.mode = .resolve :: addrOps o.mode .store := by
  rw [buildQueue, if_neg fun h => operandCount_ne_zero_of_inMemory hi.inMem h.1, staticOps, hi.access, hi.ops,
    List.append_nil, List.singleton_append]

/-- The register that a store stages is written at the operand's address. -/
theorem storeRule_of_isStore {mk : Operand → Instr} {reg : Regs → Byte}
    (hstore : ∀ o, (mk o).wf = true → IsStore (mk o) o reg) : StoreRule mk fun s => reg s.regs := by
  intro o s hwf
  have hi := hstore o hwf
  obtain ⟨b, hop, -⟩ := Instr.opcode_of_wf hwf
  obtain ⟨idles, hidles, hops⟩ := addrOps_store hi.inMem
  have hexec := (exec_eq_runInstr (mk o) s).trans (runInstr_store hop hi.mode hi.bytes hi.notBranch hi.access
    hi.ops hi.stages hi.inMem)
  have hm : (mk o).mode ≠ .rel := hi.mode ▸ Operand.mode_ne_rel o
  refine ⟨hi.access, ⟨idles, hidles, ?_⟩, fun ea b b' hea hwrite => ?_, fun f hf => ?_,
    fun ea b f hea hf => ?_⟩
  · rw [hi.buildQueue_eq, hops, List.cons_append]
  · rw [hea, andThen_next, hwrite, andThen_next] at hexec
    exact ends_of_exec_completed hm hexec rfl rfl
  · rw [hexec, hf, andThen_fault]
  · rw [hexec, hea, andThen_next, hf, andThen_fault]

/-- Settles O29: each store is a STORE form that stages its register. -/
theorem storesWriteTheirRegister : Obligations.StoresWriteTheirRegister := by
  unfold Obligations.StoresWriteTheirRegister
  have hmem {i : Instr} {o : Operand} (hi : i = .sta o ∨ i = .stx o ∨ i = .sty o) (hwf : i.wf = true) :
      inMemory o = true :=
    (Instr.opcode_of_wf hwf).elim fun b hb => inMemory_of_store hi hb.1
  have hsta (o : Operand) (hwf : (Instr.sta o).wf = true) : IsStore (.sta o) o Regs.a :=
    ⟨rfl, rfl, rfl, rfl, rfl, fun _ => rfl, hmem (.inl rfl) hwf, fun _ _ => rfl⟩
  have hstx (o : Operand) (hwf : (Instr.stx o).wf = true) : IsStore (.stx o) o Regs.x :=
    ⟨rfl, rfl, rfl, rfl, rfl, fun _ => rfl, hmem (.inr (.inl rfl)) hwf, fun _ _ => rfl⟩
  have hsty (o : Operand) (hwf : (Instr.sty o).wf = true) : IsStore (.sty o) o Regs.y :=
    ⟨rfl, rfl, rfl, rfl, rfl, fun _ => rfl, hmem (.inr (.inr rfl)) hwf, fun _ _ => rfl⟩
  exact ⟨hasOpcodes_opcodesOf nofun, storeRule_of_isStore hsta, hasOpcodes_opcodesOf nofun,
    storeRule_of_isStore hstx, hasOpcodes_opcodesOf nofun, storeRule_of_isStore hsty⟩

/-! ## Instructions without bus access -/

/-- Instruction `i` has no operand bytes and no staging, and its only step is its Exec, which is `body`. -/
structure IsBare (i : Instr) (body : State → State) : Prop where
  wf : i.wf = true
  mode : i.mode = .imp ∨ i.mode = .none
  access : accessClass i.type i.mode = .other
  ops : handlerOps i.type i.mode = [.exec]
  stages : ∀ u, stage i.type u = u
  executes : ∀ u, execBody i.type u = .next (body u)

/-- Such an instruction does to the registers what its Exec does, and its Exec leaves the bus. -/
theorem IsBare.bareRule {i : Instr} {body : State → State} {post : Regs → Regs → Prop} (hi : IsBare i body)
    (hpost : ∀ u : State, post u.regs (body u).regs) : BareRule i post := by
  intro s
  obtain ⟨b, hop, -⟩ := Instr.opcode_of_wf hi.wf
  have hm : i.mode ≠ .rel := by rcases hi.mode with hm | hm <;> rw [hm] <;> nofun
  have hb : isBranch i.type = false := Bool.eq_false_iff.mpr fun e => hm ((isBranch_iff_rel i).mp e)
  have hexec := (exec_eq_runInstr i s).trans
    (runInstr_bare hop hb hi.mode hi.access hi.ops hi.stages hi.executes)
  exact ⟨_, hpost (loaded i b s), ends_of_exec_body (u := loaded i b s) hm hexec (hi.executes _) rfl rfl rfl⟩

/-- Settles O30: the Exec of a transfer copies a register and, but for TXS, sets N and Z from it. -/
theorem transfersCopyTheirRegister : Obligations.TransfersCopyTheirRegister := by
  unfold Obligations.TransfersCopyTheirRegister
  have htax : IsBare .tax taxBody := ⟨rfl, .inl rfl, rfl, rfl, fun _ => rfl, fun _ => rfl⟩
  have htay : IsBare .tay tayBody := ⟨rfl, .inl rfl, rfl, rfl, fun _ => rfl, fun _ => rfl⟩
  have htxa : IsBare .txa txaBody := ⟨rfl, .inl rfl, rfl, rfl, fun _ => rfl, fun _ => rfl⟩
  have htya : IsBare .tya tyaBody := ⟨rfl, .inl rfl, rfl, rfl, fun _ => rfl, fun _ => rfl⟩
  have htsx : IsBare .tsx tsxBody := ⟨rfl, .inl rfl, rfl, rfl, fun _ => rfl, fun _ => rfl⟩
  have htxs : IsBare .txs txsBody := ⟨rfl, .inl rfl, rfl, rfl, fun _ => rfl, fun _ => rfl⟩
  exact ⟨hasOpcodes_opcodesOf nofun, htax.bareRule fun u => loadPost_setNZ _ u.a u.regs,
    hasOpcodes_opcodesOf nofun, htay.bareRule fun u => loadPost_setNZ _ u.a u.regs,
    hasOpcodes_opcodesOf nofun, htxa.bareRule fun u => loadPost_setNZ _ u.x u.regs,
    hasOpcodes_opcodesOf nofun, htya.bareRule fun u => loadPost_setNZ _ u.y u.regs,
    hasOpcodes_opcodesOf nofun, htsx.bareRule fun u => loadPost_setNZ _ u.sp u.regs,
    hasOpcodes_opcodesOf nofun, htxs.bareRule fun _ => rfl⟩

end Sys2Proof.Machine

/-! PROOFS. Arithmetic and logic (43_arith_logic.md R230 to R245): what each computation on P leaves in the flags
it writes, the sum of ADC and SBC as numbers, and one lemma for the read-modify-write forms
(`rmwRule_of_isRmw`). -/

namespace Sys2Proof.Machine

/-! ## The flags of a result -/

theorem getFlag_setNZ_ne {f : Flag} (hn : f ≠ .n) (hz : f ≠ .z) (v p : Byte) :
    getFlag f (setNZ v p) = getFlag f p := by
  rw [setNZ, getFlag_setFlag_ne hn, getFlag_setFlag_ne hz]

theorem getFlag_c_sumFlags (x : Sum) (p : Byte) : getFlag .c (sumFlags x p) = x.carry := by
  rw [sumFlags, getFlag_setNZ_ne (by decide) (by decide), getFlag_setFlag_ne (by decide), getFlag_setFlag]

theorem getFlag_v_sumFlags (x : Sum) (p : Byte) : getFlag .v (sumFlags x p) = x.overflow := by
  rw [sumFlags, getFlag_setNZ_ne (by decide) (by decide), getFlag_setFlag]

theorem onlyFlags_sumFlags (x : Sum) (p : Byte) : OnlyFlags [.n, .v, .z, .c] p (sumFlags x p) :=
  (((OnlyFlags.refl _ p).setFlag_right (by decide) _).setFlag_right (by decide) _).setNZ_right
    (by decide) (by decide) _

/-- The difference of a compare is 0 exactly where the two are equal. -/
theorem comparePost_compareFlags (x m : Byte) (r : Regs) :
    ComparePost x m r { r with p := compareFlags x m r.p } := by
  obtain ⟨hn, hz⟩ := setNZ_NZof (x - m) (setFlag .c (decide (m.toNat ≤ x.toNat)) r.p)
  refine ⟨rfl, ?_, ?_, hn, ?_⟩
  · rw [compareFlags, getFlag_setNZ_ne (by decide) (by decide), getFlag_setFlag]
  · exact hz.trans (decide_eq_decide.mpr sub_eq_zero)
  · exact ((OnlyFlags.refl _ r.p).setFlag_right (by decide) _).setNZ_right (by decide) (by decide) _

/-- N and V come from the operand, Z from A and the operand (43_arith_logic.md R239). -/
theorem bitFlags_flags (a m p : Byte) :
    getFlag .z (bitFlags a m p) = decide (a &&& m = 0) ∧ getFlag .n (bitFlags a m p) = m.getLsbD 7 ∧
      getFlag .v (bitFlags a m p) = m.getLsbD 6 ∧ OnlyFlags [.n, .v, .z] p (bitFlags a m p) := by
  refine ⟨?_, ?_, getFlag_setFlag _ _ _, ?_⟩
  · rw [bitFlags, getFlag_setFlag_ne (by decide), getFlag_setFlag_ne (by decide), getFlag_setFlag]
    rfl
  · rw [bitFlags, getFlag_setFlag_ne (by decide), getFlag_setFlag]
  · exact (((OnlyFlags.refl _ p).setFlag_right (by decide) _).setFlag_right (by decide) _).setFlag_right
      (by decide) _

/-! ## The sum of ADC and SBC -/

theorem and_0x7F_toNat (v : Byte) : (v &&& 0x7F).toNat = v.toNat % 128 :=
  (BitVec.toNat_and v 0x7F).trans (Nat.and_two_pow_sub_one_eq_mod v.toNat 7)

/-- The mask 0x80 picks the sign bit. -/
theorem and_0x80_ne_zero_iff (v : Byte) : v &&& 0x80 ≠ 0 ↔ v.msb = true := by
  revert v; decide +kernel

/-- The two forms of the overflow (43_arith_logic.md R231): the carries into and out of bit 7 differ exactly where
both operands have a sign that the result does not. -/
theorem addWithCarry_overflow (a n : Byte) (c : Bool) :
    (addWithCarry a n c).overflow =
      decide ((a ^^^ (addWithCarry a n c).r) &&& (n ^^^ (addWithCarry a n c).r) &&& 0x80 ≠ 0) := by
  have hc : c.toNat < 2 := c.toNat_lt
  have hr : (addWithCarry a n c).r.toNat = (a.toNat + n.toNat + c.toNat) % 256 := BitVec.toNat_ofNat _ 8
  generalize (addWithCarry a n c).r = r at hr ⊢
  rw [Bool.eq_iff_iff, decide_eq_true_iff, and_0x80_ne_zero_iff, BitVec.msb_and, BitVec.msb_xor,
    BitVec.msb_xor]
  simp only [addWithCarry, BitVec.msb_eq_decide, hr, Bool.and_eq_true, bne_iff_ne, ne_eq, decide_eq_decide]
  omega

/-- ADC and SBC leave the sum of A, the byte added and the carry. -/
theorem addPost_addWithCarry (n : Byte) (r : Regs) :
    AddPost n r { r with
      a := (addWithCarry r.a n (getFlag .c r.p)).r
      p := sumFlags (addWithCarry r.a n (getFlag .c r.p)) r.p } := by
  refine ⟨rfl, BitVec.toNat_ofNat _ 8, setNZ_NZof _ _, getFlag_c_sumFlags _ _, ?_, ?_, onlyFlags_sumFlags _ _⟩
  · rw [getFlag_v_sumFlags, and_0x7F_toNat, and_0x7F_toNat]
    rfl
  · rw [getFlag_v_sumFlags]
    exact addWithCarry_overflow r.a n (getFlag .c r.p)

/-- Adding the complement subtracts, and the carry says that no borrow was needed (43_arith_logic.md R232). -/
theorem AddPost.borrow {m : Byte} {r r' : Regs} (h : AddPost (~~~m) r r') :
    (r'.a.toNat : Int) = ((r.a.toNat : Int) - m.toNat - (1 - (getFlag .c r.p).toNat)) % 256 ∧
      getFlag .c r'.p = decide (r.a.toNat ≥ m.toNat + (1 - (getFlag .c r.p).toNat)) := by
  obtain ⟨-, ha, -, hc, -⟩ := h
  have hcarry : (getFlag .c r.p).toNat < 2 := Bool.toNat_lt _
  have hm : (~~~m).toNat = 255 - m.toNat := BitVec.toNat_not
  rw [hm] at ha hc
  refine ⟨by omega, hc.trans (decide_eq_decide.mpr (by omega))⟩

/-- Settles O31: ADC is a READ form whose Exec is the sum with the operand. -/
theorem adcAddsWithCarry : Obligations.AdcAddsWithCarry := by
  unfold Obligations.AdcAddsWithCarry
  have hadc : IsRead .adc adcBody := ⟨fun _ => rfl, fun _ => rfl, fun _ => rfl, fun _ _ => rfl⟩
  exact ⟨hasOpcodes_opcodesOf nofun, hadc.readRule fun u => addPost_addWithCarry u.m u.regs⟩

/-- Settles O32: SBC is the sum with the complemented operand, which subtracts. -/
theorem sbcSubtractsWithBorrow : Obligations.SbcSubtractsWithBorrow := by
  unfold Obligations.SbcSubtractsWithBorrow
  have hsbc : IsRead .sbc sbcBody := ⟨fun _ => rfl, fun _ => rfl, fun _ => rfl, fun _ _ => rfl⟩
  refine ⟨hasOpcodes_opcodesOf nofun, hsbc.readRule fun u => ?_⟩
  have hsum := addPost_addWithCarry (~~~u.m) u.regs
  exact ⟨hsum, hsum.borrow⟩

/-! ## The other READ forms -/

/-- Settles O33: A is loaded with the combination of A and the operand. -/
theorem logicCombinesBitwise : Obligations.LogicCombinesBitwise := by
  unfold Obligations.LogicCombinesBitwise
  have hand : IsRead .and andBody := ⟨fun _ => rfl, fun _ => rfl, fun _ => rfl, fun _ _ => rfl⟩
  have hora : IsRead .ora oraBody := ⟨fun _ => rfl, fun _ => rfl, fun _ => rfl, fun _ _ => rfl⟩
  have heor : IsRead .eor eorBody := ⟨fun _ => rfl, fun _ => rfl, fun _ => rfl, fun _ _ => rfl⟩
  exact ⟨hasOpcodes_opcodesOf nofun, hand.readRule fun u => loadPost_setNZ _ (u.a &&& u.m) u.regs,
    hasOpcodes_opcodesOf nofun, hora.readRule fun u => loadPost_setNZ _ (u.a ||| u.m) u.regs,
    hasOpcodes_opcodesOf nofun, heor.readRule fun u => loadPost_setNZ _ (u.a ^^^ u.m) u.regs⟩

/-- Settles O34: each compare is a READ form that writes P only. -/
theorem comparesSetCarryZeroNegative : Obligations.ComparesSetCarryZeroNegative := by
  unfold Obligations.ComparesSetCarryZeroNegative
  have hcmp : IsRead .cmp cmpBody := ⟨fun _ => rfl, fun _ => rfl, fun _ => rfl, fun _ _ => rfl⟩
  have hcpx : IsRead .cpx cpxBody := ⟨fun _ => rfl, fun _ => rfl, fun _ => rfl, fun _ _ => rfl⟩
  have hcpy : IsRead .cpy cpyBody := ⟨fun _ => rfl, fun _ => rfl, fun _ => rfl, fun _ _ => rfl⟩
  exact ⟨hasOpcodes_opcodesOf nofun, hcmp.readRule fun u => comparePost_compareFlags u.a u.m u.regs,
    hasOpcodes_opcodesOf nofun, hcpx.readRule fun u => comparePost_compareFlags u.x u.m u.regs,
    hasOpcodes_opcodesOf nofun, hcpy.readRule fun u => comparePost_compareFlags u.y u.m u.regs⟩

/-- Settles O35: BIT is a READ form that writes three flags only. -/
theorem bitTestsTheOperand : Obligations.BitTestsTheOperand := by
  unfold Obligations.BitTestsTheOperand
  have hbit : IsRead .bit bitBody := ⟨fun _ => rfl, fun _ => rfl, fun _ => rfl, fun _ _ => rfl⟩
  exact ⟨hasOpcodes_opcodesOf nofun, hbit.readRule fun u => ⟨rfl, bitFlags_flags u.a u.m u.p⟩⟩

/-! ## Counting up and down by one -/

theorem byte_add_one (v : Byte) : v + 1 = BitVec.ofNat 8 (v.toNat + 1) :=
  BitVec.eq_of_toNat_eq (by simp)

theorem byte_sub_one (v : Byte) : v - 1 = BitVec.ofNat 8 (v.toNat + 255) :=
  BitVec.eq_of_toNat_eq (by simp [Nat.add_comm])

theorem loadPost_add_one (upd : Byte → Regs → Regs) (v : Byte) (r : Regs) :
    LoadPost upd (BitVec.ofNat 8 (v.toNat + 1)) r { upd (v + 1) r with p := setNZ (v + 1) r.p } :=
  byte_add_one v ▸ loadPost_setNZ upd (v + 1) r

theorem loadPost_sub_one (upd : Byte → Regs → Regs) (v : Byte) (r : Regs) :
    LoadPost upd (BitVec.ofNat 8 (v.toNat + 255)) r { upd (v - 1) r with p := setNZ (v - 1) r.p } :=
  byte_sub_one v ▸ loadPost_setNZ upd (v - 1) r

/-- Settles O37: the only step of each is an Exec that loads an index register with its neighbour. -/
theorem indexRegistersCount : Obligations.IndexRegistersCount := by
  unfold Obligations.IndexRegistersCount
  have hinx : IsBare .inx inxBody := ⟨rfl, .inl rfl, rfl, rfl, fun _ => rfl, fun _ => rfl⟩
  have hiny : IsBare .iny inyBody := ⟨rfl, .inl rfl, rfl, rfl, fun _ => rfl, fun _ => rfl⟩
  have hdex : IsBare .dex dexBody := ⟨rfl, .inl rfl, rfl, rfl, fun _ => rfl, fun _ => rfl⟩
  have hdey : IsBare .dey deyBody := ⟨rfl, .inl rfl, rfl, rfl, fun _ => rfl, fun _ => rfl⟩
  exact ⟨hasOpcodes_opcodesOf nofun, hinx.bareRule fun u => loadPost_add_one _ u.x u.regs,
    hasOpcodes_opcodesOf nofun, hiny.bareRule fun u => loadPost_add_one _ u.y u.regs,
    hasOpcodes_opcodesOf nofun, hdex.bareRule fun u => loadPost_sub_one _ u.x u.regs,
    hasOpcodes_opcodesOf nofun, hdey.bareRule fun u => loadPost_sub_one _ u.y u.regs⟩

/-! ## Read-modify-write forms -/

/-- The address of a read-modify-write form needs no bus access, and at most one Idle stands before its Read
(41_scheduler.md R178). -/
theorem operand_of_rmw {o : Operand} (h : addrOps o.mode .rmw ≠ []) (s : State) :
    inMemory o = true ∧ (∃ ea, operandAddr o s = .next (ea, s.bus)) ∧
      ∃ idles, (∀ k ∈ idles, k = .idle) ∧ addrOps o.mode .rmw = idles ++ [.read] := by
  cases o
  case zp | abs => exact ⟨rfl, ⟨_, rfl⟩, [], nofun, rfl⟩
  case zpx | zpy | abx | aby => exact ⟨rfl, ⟨_, rfl⟩, [.idle], by decide, rfl⟩
  case acc | imm | ind | izx | izy => exact absurd rfl h

theorem IsRmw.buildQueue_eq {i : Instr} {o : Operand} {body : State → State} (hi : IsRmw i o body)
    (hmem : inMemory o = true) :
    buildQueue i.type o.mode = .resolve :: addrOps o.mode .rmw ++ [.modify, .write] := by
  rw [buildQueue, if_neg fun h => operandCount_ne_zero_of_inMemory hmem h.1, staticOps, hi.access, hi.ops,
    List.singleton_append]

/-- A read-modify-write form whose Modify writes `sv` and P, and these from `m` and P alone, does to the location
what Modify does to `m`. -/
theorem rmwRule_of_isRmw {mk : Operand → Instr} {body : State → State} {res : Byte → State → Byte}
    {post : Byte → Byte → Byte → Byte → Prop}
    (hrmw : ∀ o, (mk o).wf = true → o ≠ .acc → IsRmw (mk o) o body)
    (hres : ∀ m (s u : State), u.p = s.p → res m u = res m s)
    (hbody : ∀ u : State, ∃ p, post u.m (res u.m u) u.p p ∧ body u = { u with sv := res u.m u, p := p }) :
    RmwRule mk res post := by
  intro o s hwf hacc
  have hi := hrmw o hwf hacc
  obtain ⟨b, hop, -⟩ := Instr.opcode_of_wf hwf
  obtain ⟨hmem, ⟨ea, hea⟩, idles, hidles, hops⟩ := operand_of_rmw hi.reads s
  have hexec := (exec_eq_runInstr (mk o) s).trans (runInstr_rmw hop hi.mode hi.bytes hi.notBranch hi.access
    hi.ops hi.stages hi.modifies hi.reads hi.frame)
  rw [hea, andThen_next] at hexec
  have hm : (mk o).mode ≠ .rel := hi.mode ▸ Operand.mode_ne_rel o
  refine ⟨hi.access, ⟨idles, hidles, ?_⟩, fun hins => ?_, ea, hea, fun m b1 b2 hread hwrite => ?_,
    fun f hf => ?_⟩
  · rw [hi.buildQueue_eq hmem, hops, List.cons_append, List.append_assoc]
    rfl
  · obtain ⟨p, hp, hbody⟩ := hbody s
    exact ⟨p, hp, by rw [perform, hins, hi.modifies, hbody]⟩
  · obtain ⟨p, hp, hbody⟩ := hbody { loaded (mk o) b s with ea := ea, m := m, bus := b1 }
    have hsame := hres m s { loaded (mk o) b s with ea := ea, m := m, bus := b1 } rfl
    rw [hsame] at hp hbody
    rw [hread, andThen_next, hbody, hwrite, andThen_next] at hexec
    exact ⟨p, hp, ends_of_exec_completed hm hexec rfl rfl⟩
  · rw [hexec, hf, andThen_fault]

/-- Settles O36: the Modify of INC and of DEC takes the neighbour of `m` and sets N and Z from it. -/
theorem incAndDecModifyMemory : Obligations.IncAndDecModifyMemory := by
  unfold Obligations.IncAndDecModifyMemory
  have hinc (o : Operand) (hwf : (Instr.inc o).wf = true) : IsRmw (.inc o) o incBody :=
    (Instr.opcode_of_wf hwf).elim fun b hb => ⟨rfl, rfl, rfl, rfl, rfl, fun _ => rfl, fun _ => rfl,
      addrOps_rmw_ne_nil (.inl rfl) hb.1, fun _ => ⟨rfl, rfl⟩, fun _ _ _ => rfl⟩
  have hdec (o : Operand) (hwf : (Instr.dec o).wf = true) : IsRmw (.dec o) o decBody :=
    (Instr.opcode_of_wf hwf).elim fun b hb => ⟨rfl, rfl, rfl, rfl, rfl, fun _ => rfl, fun _ => rfl,
      addrOps_rmw_ne_nil (.inr (.inl rfl)) hb.1, fun _ => ⟨rfl, rfl⟩, fun _ _ _ => rfl⟩
  have hnz (v p : Byte) : NZof v (setNZ v p) ∧ OnlyFlags [.n, .z] p (setNZ v p) :=
    ⟨setNZ_NZof v p, (OnlyFlags.refl _ p).setNZ_right (by decide) (by decide) v⟩
  refine ⟨hasOpcodes_opcodesOf nofun,
    rmwRule_of_isRmw (fun o hwf _ => hinc o hwf) (fun _ _ _ _ => rfl) fun u => ?_,
    hasOpcodes_opcodesOf nofun,
    rmwRule_of_isRmw (fun o hwf _ => hdec o hwf) (fun _ _ _ _ => rfl) fun u => ?_⟩
  · rw [← byte_add_one]
    exact ⟨_, hnz (u.m + 1) u.p, rfl⟩
  · rw [← byte_sub_one]
    exact ⟨_, hnz (u.m - 1) u.p, rfl⟩

end Sys2Proof.Machine

/-! PROOFS. Shifts and rotates (44_shift_rotate.md R270 to R274): the carry of each shift function as a number, and
one lemma for both forms of a shift from its function (`IsShift.shiftRule`). -/

namespace Sys2Proof.Machine

/-! ## Result, carry and flags -/

theorem getLsbD_seven_eq_decide (m : Byte) : m.getLsbD 7 = decide (m.toNat ≥ 128) :=
  BitVec.msb_eq_decide m

theorem getLsbD_zero_eq_decide (m : Byte) : m.getLsbD 0 = decide (m.toNat % 2 = 1) :=
  Nat.testBit_zero m.toNat

/-- The shift function `fn` of the model computes on bytes what `f` says as numbers. -/
structure ComputesShift (fn : Byte → Bool → Byte × Bool) (f : ShiftFn) : Prop where
  result : ∀ m c, (fn m c).1 = BitVec.ofNat 8 (f.result m.toNat c.toNat)
  carry : ∀ m c, (fn m c).2 = f.carry m.toNat

/-- P after a shift: C is the carry out, N and Z are those of the result. -/
theorem ComputesShift.shiftPost {fn : Byte → Bool → Byte × Bool} {f : ShiftFn} (h : ComputesShift fn f)
    (m : Byte) (c : Bool) (p : Byte) : ShiftPost f m (fn m c).1 p (shiftFlags (fn m c) p) := by
  refine ⟨setNZ_NZof _ _, ?_, ?_⟩
  · rw [shiftFlags, getFlag_setNZ_ne (by decide) (by decide), getFlag_setFlag, h.carry]
  · exact ((OnlyFlags.refl _ p).setFlag_right (by decide) _).setNZ_right (by decide) (by decide) _

/-! ## Both forms of a shift -/

/-- `mk` makes the forms of a shift or rotate, whose function is `fn`: Exec and Modify run it, and it computes
what `f` says. -/
structure IsShift (mk : Operand → Instr) (fn : Byte → Bool → Byte × Bool) (f : ShiftFn) : Prop where
  mnemonic : ∀ o, mk o = .asl o ∨ mk o = .lsr o ∨ mk o = .rol o ∨ mk o = .ror o
  executes : ∀ u, execBody (mk .acc).type u = .next (shiftExec fn u)
  modifies : ∀ o u, modifyBody (mk o).type u = .next (shiftModify fn u)
  stored : ∀ o s m, storedByte (mk o) s m = BitVec.ofNat 8 (f.result m.toNat (getFlag .c s.p).toNat)
  computes : ComputesShift fn f

/-- The accumulator form makes no bus access and stages nothing; its only step is its Exec, with one settle Idle
after it (41_scheduler.md R171, R178). -/
theorem accumulator_form_of_shift {i : Instr}
    (hi : i = .asl .acc ∨ i = .lsr .acc ∨ i = .rol .acc ∨ i = .ror .acc) :
    i.wf = true ∧ i.mode = .acc ∧ isBranch i.type = false ∧ accessClass i.type .acc = .other ∧
      handlerOps i.type .acc = [.exec] ∧ (∀ u, stage i.type u = u) ∧
      buildQueue i.type .acc = [.resolve, .exec, .idle] := by
  rcases hi with rfl | rfl | rfl | rfl <;> exact ⟨rfl, rfl, rfl, rfl, rfl, fun _ => rfl, rfl⟩

/-- The accumulator form: Resolve takes A into `m`, and Exec writes the result to A. -/
theorem IsShift.accRule {mk : Operand → Instr} {fn : Byte → Bool → Byte × Bool} {f : ShiftFn}
    (hi : IsShift mk fn f) : BareRule (mk .acc) fun r r' =>
      r' = { r with a := (fn r.a (getFlag .c r.p)).1, p := r'.p } ∧
        ShiftPost f r.a (fn r.a (getFlag .c r.p)).1 r.p r'.p := by
  intro s
  obtain ⟨hwf, hmode, hbranch, haccess, hops, hstage, -⟩ := accumulator_form_of_shift (hi.mnemonic .acc)
  obtain ⟨b, hop, -⟩ := Instr.opcode_of_wf hwf
  have hexec := (exec_eq_runInstr (mk .acc) s).trans
    (runInstr_acc hop hbranch hmode haccess hops hstage hi.executes)
  have hm : (mk .acc).mode ≠ .rel := by rw [hmode]; nofun
  refine ⟨_, ⟨?_, ?_⟩, ends_of_exec_body (u := { loaded (mk .acc) b s with m := s.a }) hm hexec
    (hi.executes _) rfl rfl rfl⟩
  · rfl
  · exact hi.computes.shiftPost s.a (getFlag .c s.p) s.p

/-- The memory form: Modify computes the result from `m` into `sv`. -/
theorem IsShift.rmwRule {mk : Operand → Instr} {fn : Byte → Bool → Byte × Bool} {f : ShiftFn}
    (hi : IsShift mk fn f) : RmwRule mk (fun m s => (fn m (getFlag .c s.p)).1) (ShiftPost f) := by
  refine rmwRule_of_isRmw (body := shiftModify fn) (fun o hwf hacc => ?_) (fun m s u hp => ?_) fun u => ?_
  · obtain ⟨b, hop, -⟩ := Instr.opcode_of_wf hwf
    exact isRmw_of_shift (hi.mnemonic o) hacc hop (hi.modifies o) fun s m =>
      (hi.computes.result m _).trans (hi.stored o s m).symm
  · rw [hp]
  · exact ⟨_, hi.computes.shiftPost u.m (getFlag .c u.p) u.p, rfl⟩

theorem IsShift.shiftRule {mk : Operand → Instr} {fn : Byte → Bool → Byte × Bool} {f : ShiftFn}
    (hi : IsShift mk fn f) : ShiftRule mk f := by
  obtain ⟨-, -, -, -, -, -, hqueue⟩ := accumulator_form_of_shift (hi.mnemonic .acc)
  have hacc := hi.accRule
  have hmem := hi.rmwRule
  simp only [hi.computes.result] at hacc hmem
  exact ⟨hqueue, hacc, hmem⟩

/-- Settles O38: each is a shift, whose function has the result and the carry of its rule. -/
theorem shiftsAndRotates : Obligations.ShiftsAndRotates := by
  unfold Obligations.ShiftsAndRotates
  have hasl : IsShift .asl aslFn { result := fun m _ => m * 2, carry := fun m => decide (m ≥ 128) } :=
    ⟨fun _ => .inl rfl, fun _ => rfl, fun _ _ => rfl, fun _ _ _ => rfl,
      aslFn_result, fun m _ => getLsbD_seven_eq_decide m⟩
  have hlsr : IsShift .lsr lsrFn { result := fun m _ => m / 2, carry := fun m => decide (m % 2 = 1) } :=
    ⟨fun _ => .inr (.inl rfl), fun _ => rfl, fun _ _ => rfl, fun _ _ _ => rfl,
      lsrFn_result, fun m _ => getLsbD_zero_eq_decide m⟩
  have hrol : IsShift .rol rolFn { result := fun m c => m * 2 + c, carry := fun m => decide (m ≥ 128) } :=
    ⟨fun _ => .inr (.inr (.inl rfl)), fun _ => rfl, fun _ _ => rfl, fun _ _ _ => rfl,
      rolFn_result, fun m _ => getLsbD_seven_eq_decide m⟩
  have hror : IsShift .ror rorFn
      { result := fun m c => m / 2 + c * 128, carry := fun m => decide (m % 2 = 1) } :=
    ⟨fun _ => .inr (.inr (.inr rfl)), fun _ => rfl, fun _ _ => rfl, fun _ _ _ => rfl,
      rorFn_result, fun m _ => getLsbD_zero_eq_decide m⟩
  exact ⟨hasOpcodes_opcodesOf nofun, hasl.shiftRule, hasOpcodes_opcodesOf nofun, hlsr.shiftRule,
    hasOpcodes_opcodesOf nofun, hrol.shiftRule, hasOpcodes_opcodesOf nofun, hror.shiftRule⟩

end Sys2Proof.Machine

/-! PROOFS. Control (45_control.md R290 to R302): the two pushes and the two pulls of PC as bus accesses
(`pushRet_eq`, `pullPC_eq`), the meanings of JMP, JSR and RTS from these, the round trip of JSR and RTS, and one
lemma for the eight branches (`IsConditional.branchRule`). -/

namespace Sys2Proof.Machine

/-! ## Completion -/

/-- `EndsIn` for a run that completes from a state with the counter and the sink the instruction began with
(41_scheduler.md R170). -/
theorem endsIn_of_exec_completed {i : Instr} {n : Nat} {s u : State} (h : exec i s = .next (completed n u))
    (hcycles : u.cycles = s.cycles) (hsink : u.sink = s.sink) : EndsIn n i s u.regs u.bus :=
  ⟨_, h, rfl, rfl, ⟨rfl, rfl, rfl⟩, by rw [completed_cycles, hcycles],
    by rw [completed_sink, hcycles, hsink]⟩

/-! ## JMP -/

/-- JMP goes to the address of its operand, after the pointer reads of its form. -/
theorem exec_jmp {o : Operand} {b : Byte} (hop : (Instr.jmp o).opcode? = some b) (s : State) :
    exec (.jmp o) s = andThen (operandAddr o s) fun r =>
      .next (completed (1 + totalCost (addrOps o.mode .jump))
        { loaded (.jmp o) b s with ea := r.1, pc := r.1, bus := r.2 }) := by
  cases o
  case abs w =>
    rw [exec_eq_performAll (q := [.resolve, .jump]) hop rfl rfl]
    rfl
  case ind w =>
    rw [exec_eq_performAll (q := [.resolve, .idle, .idle, .jump]) hop rfl rfl]
    simp only [performAll, perform, resolve, resolveMode, loaded_ins, Instr.mode, Operand.mode, andThen_assoc,
      andThen_next]
    rfl
  all_goals cases hop

theorem ends_jmp {o : Operand} {b : Byte} {s : State} {r : Addr × Bus} (hop : (Instr.jmp o).opcode? = some b)
    (h : operandAddr o s = .next r) : Ends (.jmp o) s { s.regs with pc := r.1 } r.2 := by
  have hexec := exec_jmp hop s
  rw [h, andThen_next] at hexec
  have hm : (Instr.jmp o).mode ≠ .rel := Operand.mode_ne_rel o
  exact ends_of_exec_completed hm hexec rfl rfl

/-- Settles O39: the target is the address of the operand, which in the form IND is the word read there. -/
theorem jmpSetsPC : Obligations.JmpSetsPC := by
  unfold Obligations.JmpSetsPC
  refine ⟨hasOpcodes_opcodesOf nofun, by unfold HasQueue; decide, fun w s => ?_⟩
  refine ⟨?_, fun v b h => ?_, fun f h => ?_⟩
  · exact ends_jmp rfl (operandAddr_abs w s)
  · exact ends_jmp rfl ((operandAddr_ind w s).trans h)
  · rw [exec_jmp rfl, operandAddr_ind, h, andThen_fault]

/-! ## JSR -/

/-- The two pushes of the return-address latch as bus writes (00_scope.md R15). -/
theorem pushRet_eq (s : State) :
    andThen (doPushPCH s) doPushPCL =
      andThen (s.bus.write (stackAddr s.sp) (hi8 s.ret)) fun b1 =>
        andThen (b1.write (stackAddr (s.sp - 1)) (lo8 s.ret)) fun b2 =>
          .next { s with sp := s.sp - 2, bus := b2 } := by
  have hsp : s.sp - 1 - 1 = s.sp - 2 := by bv_omega
  simp only [doPushPCH, doPushPCL, push, andThen_assoc, andThen_next, hsp]

/-- JSR as its two bus writes. -/
theorem exec_jsr_writes (w : Addr) (s : State) :
    exec (.jsr w) s =
      andThen (s.bus.write (stackAddr s.sp) (hi8 (s.pc - 1))) fun b1 =>
        andThen (b1.write (stackAddr (s.sp - 1)) (lo8 (s.pc - 1))) fun b2 =>
          .next (completed 4
            { loaded (.jsr w) 0x20 s with ea := w, ret := s.pc - 1, sp := s.sp - 2, pc := w, bus := b2 }) := by
  rw [exec_jsr, ← andThen_assoc, pushRet_eq]
  simp only [andThen_assoc, andThen_next]
  rfl

/-- Settles O40: the outcome is that of the two writes in order. -/
theorem jsrPushesAndJumps : Obligations.JsrPushesAndJumps := by
  unfold Obligations.JsrPushesAndJumps
  refine ⟨hasOpcodes_opcodesOf nofun, by unfold HasQueue; decide, fun w s => ?_⟩
  have hexec := exec_jsr_writes w s
  simp only [stackAddr, Config.stackBase] at hexec
  refine ⟨fun b1 b2 h1 h2 => ?_, fun f h1 => ?_, fun b1 f h1 h2 => ?_⟩
  · rw [h1, andThen_next, h2, andThen_next] at hexec
    have hends := endsIn_of_exec_completed hexec rfl rfl
    exact hends
  · rw [hexec, h1, andThen_fault]
  · rw [hexec, h1, andThen_next, h2, andThen_fault]

/-! ## RTS -/

/-- The two pulls of PC as bus reads (00_scope.md R15). -/
theorem pullPC_eq (s : State) :
    andThen (doPullPCL s) doPullPCH =
      andThen (s.bus.read (stackAddr (s.sp + 1))) fun lo =>
        andThen (lo.2.read (stackAddr (s.sp + 2))) fun hi =>
          .next { s with sp := s.sp + 2, pc := cat hi.1 lo.1, bus := hi.2 } := by
  have hsp : s.sp + 1 + 1 = s.sp + 2 := by bv_omega
  simp only [doPullPCL, doPullPCH, pull, andThen_assoc, andThen_next, hsp, lo8_cat]

/-- RTS as its two bus reads. -/
theorem exec_rts (s : State) :
    exec .rts s =
      andThen (s.bus.read (stackAddr (s.sp + 1))) fun lo =>
        andThen (lo.2.read (stackAddr (s.sp + 2))) fun hi =>
          .next (completed 6
            { loaded .rts 0x60 s with sp := s.sp + 2, pc := cat hi.1 lo.1 + 1, bus := hi.2 }) := by
  rw [exec_of_resolve (q := [.idle, .pullPCL, .pullPCH, .incPC]) rfl rfl rfl rfl]
  simp only [performAll, perform, andThen_assoc, andThen_next]
  rw [← andThen_assoc, pullPC_eq]
  simp only [andThen_assoc, andThen_next]
  rfl

/-- RTS from plain memory loads PC with the successor of the word stacked above SP. -/
theorem rts_of_memory {u v : State} (hlo : u.bus.kindAt (stackAddr (u.sp + 1)) = .memory)
    (hhi : u.bus.kindAt (stackAddr (u.sp + 2)) = .memory) (h : exec .rts u = .next v) :
    v.pc = cat (u.peek (stackAddr (u.sp + 2))) (u.peek (stackAddr (u.sp + 1))) + 1 ∧ v.sp = u.sp + 2 := by
  simp only [exec_rts, andThen_eq_next] at h
  obtain ⟨lo, hreadlo, hi, hreadhi, hv⟩ := h
  obtain ⟨hmap, hmem⟩ := Bus.read_frame hreadlo
  have hlov : lo.1 = u.peek (stackAddr (u.sp + 1)) := Bus.read_value hlo hreadlo
  have hhiv : hi.1 = u.peek (stackAddr (u.sp + 2)) := by
    rw [Bus.read_value ((Bus.kindAt_congr hmap _).trans hhi) hreadhi, hmem, Bus.cellAt_congr hmap]
    rfl
  cases hv
  rw [← hlov, ← hhiv]
  exact ⟨rfl, rfl⟩

/-- What a JSR leaves on a stack of plain memory: the address of its last byte, and SP below it. -/
theorem jsr_stacks_return {w : Addr} {s t : State} (hwf : s.bus.mem.wf = true)
    (hhi : s.bus.kindAt (stackAddr s.sp) = .memory) (hlo : s.bus.kindAt (stackAddr (s.sp - 1)) = .memory)
    (hne : s.bus.cellAt (stackAddr s.sp) ≠ s.bus.cellAt (stackAddr (s.sp - 1)))
    (h : exec (.jsr w) s = .next t) :
    t.sp = s.sp - 2 ∧ t.bus.map = s.bus.map ∧ t.peek (stackAddr s.sp) = hi8 (s.pc - 1) ∧
      t.peek (stackAddr (s.sp - 1)) = lo8 (s.pc - 1) := by
  simp only [exec_jsr, andThen_eq_next] at h
  obtain ⟨u, hu, v, hv, ht⟩ := h
  obtain ⟨hsp, -, hwrote⟩ := pushRet_wrote hu hv
  cases ht
  have hcell := Bus.cellAt_congr hwrote.map
  have hlast : ∀ x ∈ [(stackAddr (s.sp - 1), lo8 (s.pc - 1))],
      s.bus.cellAt x.1 ≠ s.bus.cellAt (stackAddr s.sp) := by simpa using hne.symm
  have hpch := Bus.Wrote.get_of_last (before := []) hwrote hwf hhi hlast
  have hpcl := Bus.Wrote.get_of_last (before := [_]) (after := []) hwrote hwf hlo nofun
  refine ⟨hsp, hwrote.map, ?_, ?_⟩
  · exact (congrArg v.bus.mem.get (hcell _)).trans hpch
  · exact (congrArg v.bus.mem.get (hcell _)).trans hpcl

/-- What the JSR stacked, RTS takes as the address before the one it returns to (45_control.md R293). -/
theorem jsrThenRtsReturns : JsrThenRtsReturns := by
  intro w s t u v hwf hhi hlo hne hjsr husp humap hpeekhi hpeeklo hrts
  obtain ⟨hsp, hmap, hstackhi, hstacklo⟩ := jsr_stacks_return hwf hhi hlo hne hjsr
  have hsp1 : u.sp + 1 = s.sp - 1 := by rw [husp, hsp]; bv_omega
  have hsp2 : u.sp + 2 = s.sp := by rw [husp, hsp]; bv_omega
  have hkind := Bus.kindAt_congr (humap.trans hmap)
  obtain ⟨hpc, hvsp⟩ := rts_of_memory (by rw [hsp1]; exact (hkind _).trans hlo)
    (by rw [hsp2]; exact (hkind _).trans hhi) hrts
  rw [hsp2] at hpc hvsp
  rw [hsp1] at hpc
  have hbytehi : u.peek (stackAddr s.sp) = hi8 (s.pc - 1) := hpeekhi.trans hstackhi
  have hbytelo : u.peek (stackAddr (s.sp - 1)) = lo8 (s.pc - 1) := hpeeklo.trans hstacklo
  rw [hbytehi, hbytelo, cat_hi8_lo8, BitVec.sub_add_cancel] at hpc
  exact ⟨hpc, hvsp⟩

/-- Settles O41: the outcome is that of the two reads in order, and what a JSR pushed they read back. -/
theorem rtsPullsPC : Obligations.RtsPullsPC := by
  unfold Obligations.RtsPullsPC
  refine ⟨hasOpcodes_opcodesOf nofun, by unfold HasQueue; decide, jsrThenRtsReturns, fun s => ?_⟩
  have hexec := exec_rts s
  simp only [stackAddr, Config.stackBase] at hexec
  refine ⟨fun lo b1 hi b2 h1 h2 => ?_, fun f h1 => ?_, fun r f h1 h2 => ?_⟩
  · rw [h1, andThen_next, h2, andThen_next] at hexec
    have hends := endsIn_of_exec_completed hexec rfl rfl
    exact hends
  · rw [hexec, h1, andThen_fault]
  · rw [hexec, h1, andThen_next, h2, andThen_fault]

/-! ## Branches -/

/-- A branch that is not taken does nothing. -/
theorem branch_false (s : State) : branch false s = s := rfl

theorem branch_same_page {s : State} (h : hi8 s.ea = hi8 s.pc) :
    branch true s = { s with pc := s.ea, q := s.q ++ [.idle] } := by
  rw [branch, if_pos rfl, if_pos h]

theorem branch_other_page {s : State} (h : hi8 s.ea ≠ hi8 s.pc) :
    branch true s = { s with pc := s.ea, q := s.q ++ [.idle, .idle] } := by
  rw [branch, if_pos rfl, if_neg h]

/-- The meaning of a branch (45_control.md R294). -/
theorem exec_of_mode_rel {i : Instr} {b b1 : Byte} (hop : i.opcode? = some b) (hm : i.mode = .rel)
    (ho : i.operandBytes = [b1]) (s : State) :
    exec i s =
      .next (completed
        (if takes i s.p then if hi8 (s.pc + sext16 b1) = hi8 s.pc then 2 else 3 else 1)
        { loaded i b s with
          ea := s.pc + sext16 b1
          pc := if takes i s.p then s.pc + sext16 b1 else s.pc }) := by
  rw [exec_eq_runInstr]
  exact runInstr_branch hop hm ho ((isBranch_iff_rel i).mpr hm) (execBody_of_rel hm)

/-- `mk` makes the branches whose condition on P is `taken`. -/
structure IsConditional (mk : Byte → Instr) (taken : Byte → Prop) : Prop where
  wf : ∀ b1, (mk b1).wf = true
  mode : ∀ b1, (mk b1).mode = .rel
  bytes : ∀ b1, (mk b1).operandBytes = [b1]
  condition : ∀ b1 p, takes (mk b1) p = true ↔ taken p

/-- Such a branch ends as `exec_of_mode_rel` says, and its Exec is `branch` under the same condition. -/
theorem IsConditional.branchRule {mk : Byte → Instr} {taken : Byte → Prop} (hi : IsConditional mk taken) :
    BranchRule mk taken := by
  intro b1 s
  obtain ⟨b, hop, hpair⟩ := Instr.opcode_of_wf (hi.wf b1)
  have hends := endsIn_of_exec_completed (exec_of_mode_rel hop (hi.mode b1) (hi.bytes b1) s) rfl rfl
  have htaken : taken s.p → takes (mk b1) s.p = true := (hi.condition b1 s.p).mpr
  have hnot : ¬ taken s.p → takes (mk b1) s.p = false := fun h =>
    Bool.eq_false_iff.mpr fun e => h ((hi.condition b1 s.p).mp e)
  have hqueue : buildQueue (mk b1).type .rel = [.resolve, .exec] := by
    have hq := buildQueue_branch b (by rw [hpair]; exact (isBranch_iff_rel _).mpr (hi.mode b1))
    rw [hpair, hi.mode b1] at hq
    exact hq.2
  refine ⟨fun h => ?_, fun h hpage => ?_, fun h hpage => ?_, hqueue, fun hins => ?_⟩
  · rw [hnot h] at hends
    exact hends
  · rw [htaken h, if_pos rfl, if_pos hpage] at hends
    exact hends
  · rw [htaken h, if_pos rfl, if_neg hpage] at hends
    exact hends
  · have hperform : perform .exec s = .next (branch (takes (mk b1) s.p) s) := by
      rw [perform, hins, execBody_of_rel (hi.mode b1)]
    refine ⟨fun h => ?_, fun h hpage => ?_, fun h hpage => ?_⟩
    · rw [hperform, hnot h, branch_false]
    · rw [hperform, htaken h, branch_same_page hpage]
    · rw [hperform, htaken h, branch_other_page hpage]

/-- Settles O42: each is a branch whose condition is on one flag. -/
theorem branchesTestOneFlag : Obligations.BranchesTestOneFlag := by
  unfold Obligations.BranchesTestOneFlag
  have hclear : ∀ x : Bool, (!x) = true ↔ x = false := by decide
  have hbpl : IsConditional .bpl (fun p => getFlag .n p = false) :=
    ⟨fun _ => rfl, fun _ => rfl, fun _ => rfl, fun _ _ => hclear _⟩
  have hbmi : IsConditional .bmi (fun p => getFlag .n p = true) :=
    ⟨fun _ => rfl, fun _ => rfl, fun _ => rfl, fun _ _ => Iff.rfl⟩
  have hbvc : IsConditional .bvc (fun p => getFlag .v p = false) :=
    ⟨fun _ => rfl, fun _ => rfl, fun _ => rfl, fun _ _ => hclear _⟩
  have hbvs : IsConditional .bvs (fun p => getFlag .v p = true) :=
    ⟨fun _ => rfl, fun _ => rfl, fun _ => rfl, fun _ _ => Iff.rfl⟩
  have hbcc : IsConditional .bcc (fun p => getFlag .c p = false) :=
    ⟨fun _ => rfl, fun _ => rfl, fun _ => rfl, fun _ _ => hclear _⟩
  have hbcs : IsConditional .bcs (fun p => getFlag .c p = true) :=
    ⟨fun _ => rfl, fun _ => rfl, fun _ => rfl, fun _ _ => Iff.rfl⟩
  have hbne : IsConditional .bne (fun p => getFlag .z p = false) :=
    ⟨fun _ => rfl, fun _ => rfl, fun _ => rfl, fun _ _ => hclear _⟩
  have hbeq : IsConditional .beq (fun p => getFlag .z p = true) :=
    ⟨fun _ => rfl, fun _ => rfl, fun _ => rfl, fun _ _ => Iff.rfl⟩
  exact ⟨hasOpcodes_opcodesOf nofun, hbpl.branchRule, hasOpcodes_opcodesOf nofun, hbmi.branchRule,
    hasOpcodes_opcodesOf nofun, hbvc.branchRule, hasOpcodes_opcodesOf nofun, hbvs.branchRule,
    hasOpcodes_opcodesOf nofun, hbcc.branchRule, hasOpcodes_opcodesOf nofun, hbcs.branchRule,
    hasOpcodes_opcodesOf nofun, hbne.branchRule, hasOpcodes_opcodesOf nofun, hbeq.branchRule⟩

end Sys2Proof.Machine

/-! PROOFS. The stack, the trap and the flags (46_stack_flags_system.md R320 to R335, 60_exceptions.md R364, R366):
pushes and pulls as bus accesses, BRK and RTI as trap entry and trap return, what these leave on and take from a
stack of plain memory, and one lemma for the seven flag instructions (`flagRule_of_isBare`). -/

namespace Sys2Proof.Machine

/-! ## The images of P -/

/-- Setting the bits 4 and 5 in the push does not show in the pull (10_state.md R37). -/
theorem pullImage_pushImage (p : Byte) : pullImage (pushImage p) = pullImage p := by
  refine BitVec.eq_of_getLsbD_eq fun k hk => ?_
  rw [(pushAndPullImages _ k hk).2, (pushAndPullImages p k hk).2, (pushAndPullImages p k hk).1]
  split
  · rfl
  · split
    · rfl
    · exact if_neg (by omega)

/-- Pulling P changes no flag but B. -/
theorem pullImage_onlyFlags (p : Byte) : OnlyFlags [.b] (p ||| 0x20) (pullImage p) := by
  intro k hk hne
  have hb : k ≠ 4 := by simpa [flagBit] using hne
  rw [(pushAndPullImages p k hk).2, if_neg hb]
  interval_cases k <;> simp

/-! ## Bytes of plain memory -/

/-- The last of the writes made to a cell of plain memory is the byte seen there. -/
theorem Bus.Wrote.peek_of_last {before after : List (Addr × Byte)} {a : Addr} {v : Byte} {s t : State}
    (h : s.bus.Wrote (before ++ (a, v) :: after) t.bus) (hwf : s.bus.mem.wf = true)
    (hk : s.bus.kindAt a = .memory) (hlast : ∀ w ∈ after, s.bus.cellAt w.1 ≠ s.bus.cellAt a) :
    t.peek a = v := by
  rw [State.peek, Bus.cellAt_congr h.map]
  exact h.get_of_last hwf hk hlast

/-- A read of plain memory answers the byte seen there before, where nothing was written since. -/
theorem Bus.Wrote.read_value {s : State} {b : Bus} {a : Addr} {r : Byte × Bus} (h : s.bus.Wrote [] b)
    (hk : s.bus.kindAt a = .memory) (hread : b.read a = .next r) : r.1 = s.peek a := by
  rw [Bus.read_value ((Bus.kindAt_congr h.map a).trans hk) hread, h.mem, Bus.cellAt_congr h.map]
  rfl

/-! ## PHA and PHP -/

/-- An instruction that only pushes ends as its one bus write does (00_scope.md R15). -/
theorem ends_of_exec_push {i : Instr} {n : Nat} {b v : Byte} {s : State} (hm : i.mode ≠ .rel)
    (h : exec i s = andThen (push v (loaded i b s)) fun t => .next (completed n t)) :
    (∀ b', s.bus.write (stackAddr s.sp) v = .next b' → Ends i s { s.regs with sp := s.sp - 1 } b') ∧
    (∀ f, s.bus.write (stackAddr s.sp) v = .fault f → exec i s = .fault f) := by
  refine ⟨fun b' hw => ?_, fun f hw => ?_⟩
  · rw [push_of_write (s := loaded i b s) hw, andThen_next] at h
    exact ends_of_exec_completed hm h rfl rfl
  · rw [h, push_of_write_fault (s := loaded i b s) hw, andThen_fault]

/-- Settles O43: each is a push, of A or of the push image of P. -/
theorem pushesWriteTheStack : Obligations.PushesWriteTheStack := by
  unfold Obligations.PushesWriteTheStack
  refine ⟨hasOpcodes_opcodesOf nofun, hasOpcodes_opcodesOf nofun, by unfold HasQueue; decide,
    by unfold HasQueue; decide, fun s => ?_⟩
  obtain ⟨hpha, hphaFault⟩ := ends_of_exec_push (i := .pha) nofun (exec_pha s)
  obtain ⟨hphp, hphpFault⟩ := ends_of_exec_push (i := .php) nofun (exec_php s)
  exact ⟨hpha, hphaFault, hphp, hphpFault⟩

/-! ## PLA and PLP -/

/-- PLA as its bus read. -/
theorem exec_pla (s : State) :
    exec .pla s = andThen (s.bus.read (stackAddr (s.sp + 1))) fun r =>
      .next (completed 4
        { loaded .pla 0x68 s with sp := s.sp + 1, a := r.1, p := setNZ r.1 s.p, bus := r.2 }) := by
  rw [exec_of_resolve (q := [.idle, .pullA]) rfl rfl rfl rfl]
  simp only [performAll, perform, doPullA, pull, andThen_assoc, andThen_next]
  rfl

/-- PLP as its bus read. -/
theorem exec_plp (s : State) :
    exec .plp s = andThen (s.bus.read (stackAddr (s.sp + 1))) fun r =>
      .next (completed 4 { loaded .plp 0x28 s with sp := s.sp + 1, p := pullImage r.1, bus := r.2 }) := by
  rw [exec_of_resolve (q := [.idle, .pullP]) rfl rfl rfl rfl]
  simp only [performAll, perform, doPullP, pull, andThen_assoc, andThen_next]
  rfl

/-- PLP from plain memory loads P from the byte stacked above SP. -/
theorem plp_of_memory {u v : State} (hk : u.bus.kindAt (stackAddr (u.sp + 1)) = .memory)
    (h : exec .plp u = .next v) :
    v.p = pullImage (u.peek (stackAddr (u.sp + 1))) ∧ v.sp = u.sp + 1 := by
  simp only [exec_plp, andThen_eq_next] at h
  obtain ⟨r, hread, hv⟩ := h
  have hr : r.1 = u.peek (stackAddr (u.sp + 1)) := Bus.read_value hk hread
  cases hv
  exact ⟨congrArg pullImage hr, rfl⟩

/-- What a PHP leaves on a stack of plain memory: the push image of P, and SP below it. -/
theorem php_stacks_status {s t : State} (hwf : s.bus.mem.wf = true)
    (hk : s.bus.kindAt (stackAddr s.sp) = .memory) (h : exec .php s = .next t) :
    t.sp = s.sp - 1 ∧ t.bus.map = s.bus.map ∧ t.peek (stackAddr s.sp) = pushImage s.p := by
  have hwrote : s.bus.Wrote [(stackAddr s.sp, pushImage s.p)] t.bus := exec_wrote h
  rw [exec_php, andThen_eq_next] at h
  obtain ⟨u, hpush, ht⟩ := h
  cases ht
  exact ⟨(push_frame hpush).1, hwrote.map, hwrote.peek_of_last (before := []) hwf hk nofun⟩

/-- The push image that the PHP stacked, PLP pulls (46_stack_flags_system.md R324). -/
theorem phpThenPlpRestoresStatus : PhpThenPlpRestoresStatus := by
  intro s t u v hwf hk hphp husp humap hpeek hplp
  obtain ⟨hsp, hmap, hstack⟩ := php_stacks_status hwf hk hphp
  have hsp1 : u.sp + 1 = s.sp := by rw [husp, hsp]; bv_omega
  have hku : u.bus.kindAt (stackAddr (u.sp + 1)) = .memory := by
    rw [hsp1]; exact (Bus.kindAt_congr (humap.trans hmap) _).trans hk
  obtain ⟨hp, hvsp⟩ := plp_of_memory hku hplp
  have hbyte : u.peek (stackAddr s.sp) = pushImage s.p := hpeek.trans hstack
  rw [hsp1] at hp hvsp
  rw [hbyte, pullImage_pushImage] at hp
  obtain ⟨hreserved, hbreak⟩ := pullImage_fixed s.p
  rw [hp]
  exact ⟨hvsp, pullImage_onlyFlags s.p, hbreak, hreserved⟩

/-- Settles O44: the outcome is that of the one read, and what a PHP pushed it reads back. -/
theorem pullsReadTheStack : Obligations.PullsReadTheStack := by
  unfold Obligations.PullsReadTheStack
  refine ⟨hasOpcodes_opcodesOf nofun, hasOpcodes_opcodesOf nofun, by unfold HasQueue; decide,
    by unfold HasQueue; decide, phpThenPlpRestoresStatus, fun s => ?_⟩
  have hpla := exec_pla s
  have hplp := exec_plp s
  simp only [stackAddr, Config.stackBase] at hpla hplp
  refine ⟨fun v b h => ⟨?_, ?_⟩, fun f h => ⟨?_, ?_⟩⟩
  · rw [h, andThen_next] at hpla
    exact ⟨_, loadPost_setNZ _ v s.regs, endsIn_of_exec_completed hpla rfl rfl⟩
  · rw [h, andThen_next] at hplp
    have hends := endsIn_of_exec_completed hplp rfl rfl
    exact hends
  · rw [hpla, h, andThen_fault]
  · rw [hplp, h, andThen_fault]

/-! ## BRK -/

/-- Trap entry as its three bus writes and the read of the vector (60_exceptions.md R364). -/
theorem takeTrap_eq (s : State) :
    takeTrap s =
      andThen (s.bus.write (stackAddr s.sp) (hi8 s.ret)) fun b1 =>
        andThen (b1.write (stackAddr (s.sp - 1)) (lo8 s.ret)) fun b2 =>
          andThen (b2.write (stackAddr (s.sp - 2)) (pushImage s.p)) fun b3 =>
            andThen (b3.readWord Config.irqVector) fun r =>
              .next { s with sp := s.sp - 3, pc := r.1, p := setFlag .i true s.p, bus := r.2 } := by
  have hsp : s.sp - 2 - 1 = s.sp - 3 := by bv_omega
  rw [takeTrap, ← andThen_assoc, pushRet_eq]
  simp only [doPushP, push, doVector, andThen_assoc, andThen_next, hsp]

/-- BRK as its bus accesses. -/
theorem exec_brk_accesses (s : State) :
    exec .brk s =
      andThen (s.bus.write (stackAddr s.sp) (hi8 (s.pc + 1))) fun b1 =>
        andThen (b1.write (stackAddr (s.sp - 1)) (lo8 (s.pc + 1))) fun b2 =>
          andThen (b2.write (stackAddr (s.sp - 2)) (pushImage s.p)) fun b3 =>
            andThen (b3.readWord Config.irqVector) fun r =>
              .next (completed 7 { loaded .brk 0x00 s with
                ret := s.pc + 1, sp := s.sp - 3, pc := r.1, p := setFlag .i true s.p, bus := r.2 }) := by
  rw [exec_brk, takeTrap_eq]
  simp only [andThen_assoc, andThen_next]
  rfl

/-- Settles O45: the outcome is that of the three writes and the vector read, in order. -/
theorem brkTakesTheTrap : Obligations.BrkTakesTheTrap := by
  unfold Obligations.BrkTakesTheTrap
  refine ⟨hasOpcodes_opcodesOf nofun, by unfold HasQueue; decide, fun s => ?_⟩
  have hexec := exec_brk_accesses s
  simp only [stackAddr, Config.stackBase, Config.irqVector, pushImage] at hexec
  refine ⟨fun b1 b2 b3 pc b4 h1 h2 h3 h4 => ?_, fun f h1 => ?_, fun b1 f h1 h2 => ?_,
    fun b1 b2 f h1 h2 h3 => ?_, fun b1 b2 b3 f h1 h2 h3 h4 => ?_⟩
  · rw [h1, andThen_next, h2, andThen_next, h3, andThen_next, h4, andThen_next] at hexec
    have hends := endsIn_of_exec_completed hexec rfl rfl
    exact hends
  · rw [hexec, h1, andThen_fault]
  · rw [hexec, h1, andThen_next, h2, andThen_fault]
  · rw [hexec, h1, andThen_next, h2, andThen_next, h3, andThen_fault]
  · rw [hexec, h1, andThen_next, h2, andThen_next, h3, andThen_next, h4, andThen_fault]

/-! ## RTI -/

/-- Trap return as its three bus reads (60_exceptions.md R366). -/
theorem returnFromTrap_eq (s : State) :
    returnFromTrap s =
      andThen (s.bus.read (stackAddr (s.sp + 1))) fun r =>
        andThen (r.2.read (stackAddr (s.sp + 2))) fun lo =>
          andThen (lo.2.read (stackAddr (s.sp + 3))) fun hi =>
            .next { s with sp := s.sp + 3, p := pullImage r.1, pc := cat hi.1 lo.1, bus := hi.2 } := by
  have hsp1 : s.sp + 1 + 1 = s.sp + 2 := by bv_omega
  have hsp2 : s.sp + 1 + 2 = s.sp + 3 := by bv_omega
  simp only [returnFromTrap, pullPC_eq, doPullP, pull, andThen_assoc, andThen_next, hsp1, hsp2]

/-- RTI is trap return (46_stack_flags_system.md R326). -/
theorem exec_rti (s : State) :
    exec .rti s = andThen (returnFromTrap (loaded .rti 0x40 s)) fun t => .next (completed 6 t) := by
  rw [exec_of_resolve (q := [.idle, .pullP, .pullPCL, .pullPCH]) rfl rfl rfl rfl]
  simp only [performAll, perform, returnFromTrap, andThen_assoc, andThen_next]
  rfl

/-- RTI as its bus reads. -/
theorem exec_rti_reads (s : State) :
    exec .rti s =
      andThen (s.bus.read (stackAddr (s.sp + 1))) fun r =>
        andThen (r.2.read (stackAddr (s.sp + 2))) fun lo =>
          andThen (lo.2.read (stackAddr (s.sp + 3))) fun hi =>
            .next (completed 6 { loaded .rti 0x40 s with
              sp := s.sp + 3, p := pullImage r.1, pc := cat hi.1 lo.1, bus := hi.2 }) := by
  rw [exec_rti, returnFromTrap_eq]
  simp only [andThen_assoc, andThen_next]
  rfl

/-- RTI from plain memory loads P and PC from the three bytes stacked above SP. -/
theorem rti_of_memory {u v : State} (hp : u.bus.kindAt (stackAddr (u.sp + 1)) = .memory)
    (hlo : u.bus.kindAt (stackAddr (u.sp + 2)) = .memory)
    (hhi : u.bus.kindAt (stackAddr (u.sp + 3)) = .memory) (h : exec .rti u = .next v) :
    v.p = pullImage (u.peek (stackAddr (u.sp + 1))) ∧
      v.pc = cat (u.peek (stackAddr (u.sp + 3))) (u.peek (stackAddr (u.sp + 2))) ∧ v.sp = u.sp + 3 := by
  simp only [exec_rti_reads, andThen_eq_next] at h
  obtain ⟨p, hreadp, lo, hreadlo, hi, hreadhi, hv⟩ := h
  have hwrotep : u.bus.Wrote [] p.2 := Bus.wrote_nil (Bus.read_frame hreadp)
  have hwrotelo : u.bus.Wrote [] lo.2 := hwrotep.trans (Bus.wrote_nil (Bus.read_frame hreadlo))
  have hpv : p.1 = u.peek (stackAddr (u.sp + 1)) := Bus.read_value hp hreadp
  have hlov : lo.1 = u.peek (stackAddr (u.sp + 2)) := hwrotep.read_value hlo hreadlo
  have hhiv : hi.1 = u.peek (stackAddr (u.sp + 3)) := hwrotelo.read_value hhi hreadhi
  cases hv
  rw [← hpv, ← hlov, ← hhiv]
  exact ⟨rfl, rfl, rfl⟩

/-- What a BRK leaves on a stack of plain memory: its address + 2 and the push image of P, and SP below them. -/
theorem brk_stacks_return {s t : State} (hwf : s.bus.mem.wf = true)
    (hhi : s.bus.kindAt (stackAddr s.sp) = .memory) (hlo : s.bus.kindAt (stackAddr (s.sp - 1)) = .memory)
    (hp : s.bus.kindAt (stackAddr (s.sp - 2)) = .memory)
    (hhilo : s.bus.cellAt (stackAddr s.sp) ≠ s.bus.cellAt (stackAddr (s.sp - 1)))
    (hhip : s.bus.cellAt (stackAddr s.sp) ≠ s.bus.cellAt (stackAddr (s.sp - 2)))
    (hlop : s.bus.cellAt (stackAddr (s.sp - 1)) ≠ s.bus.cellAt (stackAddr (s.sp - 2)))
    (h : exec .brk s = .next t) :
    t.sp = s.sp - 3 ∧ t.bus.map = s.bus.map ∧ t.peek (stackAddr s.sp) = hi8 (s.pc + 1) ∧
      t.peek (stackAddr (s.sp - 1)) = lo8 (s.pc + 1) ∧ t.peek (stackAddr (s.sp - 2)) = pushImage s.p := by
  have hwrote : s.bus.Wrote [(stackAddr s.sp, hi8 (s.pc + 1)), (stackAddr (s.sp - 1), lo8 (s.pc + 1)),
      (stackAddr (s.sp - 2), pushImage s.p)] t.bus := exec_wrote h
  simp only [exec_brk_accesses, andThen_eq_next] at h
  obtain ⟨b1, -, b2, -, b3, -, r, -, ht⟩ := h
  have hsp : t.sp = s.sp - 3 := by cases ht; rfl
  refine ⟨hsp, hwrote.map, ?_, ?_, ?_⟩
  · exact hwrote.peek_of_last (before := []) hwf hhi (by simpa using ⟨hhilo.symm, hhip.symm⟩)
  · exact hwrote.peek_of_last (before := [_]) hwf hlo (by simpa using hlop.symm)
  · exact hwrote.peek_of_last (before := [_, _]) hwf hp nofun

/-- What the BRK stacked, RTI takes back (46_stack_flags_system.md R326). -/
theorem brkThenRtiReturns : BrkThenRtiReturns := by
  intro s t u v hwf hkind hhilo hhip hlop hbrk husp humap hpeek hrti
  have hsp0 : s.sp - 0 = s.sp := BitVec.sub_zero s.sp
  have hkhi : s.bus.kindAt (stackAddr s.sp) = .memory := hsp0 ▸ hkind 0 (.inl rfl)
  have hklo := hkind 1 (.inr (.inl rfl))
  have hkp := hkind 2 (.inr (.inr rfl))
  obtain ⟨hsp, hmap, hhi, hlo, hp⟩ := brk_stacks_return hwf hkhi hklo hkp hhilo hhip hlop hbrk
  have hbytehi : u.peek (stackAddr s.sp) = hi8 (s.pc + 1) := (hsp0 ▸ hpeek 0 (.inl rfl)).trans hhi
  have hbytelo : u.peek (stackAddr (s.sp - 1)) = lo8 (s.pc + 1) := (hpeek 1 (.inr (.inl rfl))).trans hlo
  have hbytep : u.peek (stackAddr (s.sp - 2)) = pushImage s.p := (hpeek 2 (.inr (.inr rfl))).trans hp
  have hsp1 : u.sp + 1 = s.sp - 2 := by rw [husp, hsp]; bv_omega
  have hsp2 : u.sp + 2 = s.sp - 1 := by rw [husp, hsp]; bv_omega
  have hsp3 : u.sp + 3 = s.sp := by rw [husp, hsp]; bv_omega
  have hkindu := Bus.kindAt_congr (humap.trans hmap)
  obtain ⟨hvp, hvpc, hvsp⟩ := rti_of_memory (by rw [hsp1]; exact (hkindu _).trans hkp)
    (by rw [hsp2]; exact (hkindu _).trans hklo) (by rw [hsp3]; exact (hkindu _).trans hkhi) hrti
  rw [hsp1, hbytep, pullImage_pushImage] at hvp
  rw [hsp2, hsp3, hbytehi, hbytelo, cat_hi8_lo8] at hvpc
  exact ⟨hvpc, hvsp.trans hsp3, hvp⟩

/-- Settles O46: the outcome is that of the three reads in order, and what a BRK pushed they read back. -/
theorem rtiReturnsFromTheTrap : Obligations.RtiReturnsFromTheTrap := by
  unfold Obligations.RtiReturnsFromTheTrap
  refine ⟨hasOpcodes_opcodesOf nofun, by unfold HasQueue; decide, brkThenRtiReturns, fun s => ?_⟩
  have hexec := exec_rti_reads s
  simp only [stackAddr, Config.stackBase] at hexec
  refine ⟨fun v b1 lo b2 hi b3 h1 h2 h3 => ?_, fun f h1 => ?_, fun r f h1 h2 => ?_,
    fun r r' f h1 h2 h3 => ?_⟩
  · rw [h1, andThen_next, h2, andThen_next, h3, andThen_next] at hexec
    have hends := endsIn_of_exec_completed hexec rfl rfl
    exact hends
  · rw [hexec, h1, andThen_fault]
  · rw [hexec, h1, andThen_next, h2, andThen_fault]
  · rw [hexec, h1, andThen_next, h2, andThen_next, h3, andThen_fault]

/-! ## Flag instructions -/

/-- An instruction whose Exec writes one flag changes that flag alone. -/
theorem flagRule_of_isBare {i : Instr} {f : Flag} {v : Bool}
    (hi : IsBare i fun u => { u with p := setFlag f v u.p }) : FlagRule i f v :=
  hi.bareRule fun u => ⟨rfl, getFlag_setFlag f v u.p,
    (OnlyFlags.refl _ _).setFlag_right (List.mem_singleton_self f) v⟩

/-- Settles O48: the Exec of each writes its one flag. -/
theorem flagInstructionsWriteOneFlag : Obligations.FlagInstructionsWriteOneFlag := by
  unfold Obligations.FlagInstructionsWriteOneFlag
  have hclc : IsBare .clc clcBody := ⟨rfl, .inl rfl, rfl, rfl, fun _ => rfl, fun _ => rfl⟩
  have hsec : IsBare .sec secBody := ⟨rfl, .inl rfl, rfl, rfl, fun _ => rfl, fun _ => rfl⟩
  have hcli : IsBare .cli cliBody := ⟨rfl, .inl rfl, rfl, rfl, fun _ => rfl, fun _ => rfl⟩
  have hsei : IsBare .sei seiBody := ⟨rfl, .inl rfl, rfl, rfl, fun _ => rfl, fun _ => rfl⟩
  have hclv : IsBare .clv clvBody := ⟨rfl, .inl rfl, rfl, rfl, fun _ => rfl, fun _ => rfl⟩
  have hcld : IsBare .cld cldBody := ⟨rfl, .inl rfl, rfl, rfl, fun _ => rfl, fun _ => rfl⟩
  have hsed : IsBare .sed sedBody := ⟨rfl, .inl rfl, rfl, rfl, fun _ => rfl, fun _ => rfl⟩
  exact ⟨hasOpcodes_opcodesOf nofun, flagRule_of_isBare hclc,
    hasOpcodes_opcodesOf nofun, flagRule_of_isBare hsec,
    hasOpcodes_opcodesOf nofun, flagRule_of_isBare hcli,
    hasOpcodes_opcodesOf nofun, flagRule_of_isBare hsei,
    hasOpcodes_opcodesOf nofun, flagRule_of_isBare hclv,
    hasOpcodes_opcodesOf nofun, flagRule_of_isBare hcld,
    hasOpcodes_opcodesOf nofun, flagRule_of_isBare hsed⟩

/-! ## NOP and Illegal -/

theorem isBare_illegal {b : Byte} (h : isIllegalByte b = true) : IsBare (.illegal b) illegalBody :=
  ⟨h, .inr rfl, rfl, rfl, fun _ => rfl, fun _ => rfl⟩

/-- The matrix has Illegal, without a mode, at the bytes of 30_encoding.md R106. -/
theorem decodePair_illegal_iff (b : Byte) : decodePair b = (.illegal, .none) ↔ isIllegalByte b = true := by
  refine ⟨fun h => (decodePair_facts b).1.mp (congrArg Prod.fst h), fun h => ?_⟩
  have hop : (Instr.illegal b).opcode? = some b := if_pos ((decodePair_facts b).1.mpr h)
  exact Laws.OpcodeDecodes.illegal b b hop

/-- Settles O49: both are instructions whose Exec does nothing. -/
theorem nopAndIllegalDoNothing : Obligations.NopAndIllegalDoNothing := by
  unfold Obligations.NopAndIllegalDoNothing
  have hnop : IsBare .nop nopBody := ⟨rfl, .inl rfl, rfl, rfl, fun _ => rfl, fun _ => rfl⟩
  exact ⟨by unfold HasQueue; decide, by unfold HasQueue; decide, hasOpcodes_opcodesOf nofun,
    hnop.bareRule fun _ => rfl, decodePair_illegal_iff, fun b => (decodePair_facts b).1,
    fun b hb => (isBare_illegal hb).bareRule fun _ => rfl⟩

end Sys2Proof.Machine

/-! PROOFS. The trace sink (60_exceptions.md R371); BRK and RTI as the single trap operations (R364, R366); and the
run over a bus that maps every address (70_reset_and_hazards.md R401), from one relation that every bus access has
and that composes: the outcome keeps the map, or is a fault at an address the map leaves out
(`Bus.FaultsOnlyUnmapped`). -/

namespace Sys2Proof.Machine

/-! ## The trace sink -/

/-- A fetch is no completion: it does not call the sink. -/
theorem fetchByte_sink {s t : State} (h : fetchByte s = .next t) : t.sink = s.sink := by
  simp only [fetchByte, andThen_eq_next] at h
  obtain ⟨r, -, h⟩ := h
  cases hop : s.op <;> rw [hop] at h <;> cases h <;> rfl

/-- An execute step of an instruction's queue completes it and calls the sink, or does neither. -/
theorem executeStep_sink {limit : Nat} {s t : State} (h : executeStep limit s = .next t) (hop : s.op ≠ none) :
    (t.boundary ∧ t.sink = { regs := t.regs, cycles := t.cycles } :: s.sink) ∨
      (t.op ≠ none ∧ t.sink = s.sink) := by
  obtain ⟨-, -, ⟨-, hb, hsink⟩ | ⟨-, htop, -, hsink⟩⟩ := executeStep_end h
  · exact .inl ⟨hb, hsink⟩
  · exact .inr ⟨htop ▸ hop, hsink⟩

/-- Settles O23: an execute step of a queue completes the instruction and calls the sink, or leaves a queue; a fetch
with operand bytes still missing leaves the opcode slot filled. -/
theorem sinkIsCalledOncePerInstruction : Obligations.SinkIsCalledOncePerInstruction := by
  unfold Obligations.SinkIsCalledOncePerInstruction
  intro s t hs h
  by_cases hq : s.q = []
  · rw [tick_of_empty hq, andThen_eq_next] at h
    obtain ⟨u, hu, h⟩ := h
    obtain ⟨-, -, hop⟩ := fetchByte_frame hu
    rw [← fetchByte_sink hu]
    cases hc : operandsComplete u with
    | true =>
      rw [hc, if_pos rfl] at h
      have hend := executeStep_sink h hop
      exact hend
    | false =>
      rw [hc, if_neg Bool.false_ne_true] at h
      cases h
      exact .inr ⟨hop, rfl⟩
  · rw [tick_queued s hq] at h
    exact executeStep_sink h fun hop => hq (hs.slots.idle hop).2

/-! ## Trap entry and trap return -/

/-- Trap entry reads and writes no slot. -/
theorem takeTrap_loaded (i : Instr) (b : Byte) (s : State) :
    takeTrap (loaded i b s) = andThen (takeTrap s) fun u => .next (loaded i b u) := by
  simp only [takeTrap_eq, andThen_assoc, andThen_next]
  rfl

/-- Nor does trap return. -/
theorem returnFromTrap_loaded (i : Instr) (b : Byte) (s : State) :
    returnFromTrap (loaded i b s) = andThen (returnFromTrap s) fun u => .next (loaded i b u) := by
  simp only [returnFromTrap_eq, andThen_assoc, andThen_next]
  rfl

theorem takeTrap_frame {s u : State} (h : takeTrap s = .next u) : u.cycles = s.cycles ∧ u.sink = s.sink := by
  simp only [takeTrap_eq, andThen_eq_next] at h
  obtain ⟨_, -, _, -, _, -, _, -, hu⟩ := h
  cases hu
  exact ⟨rfl, rfl⟩

theorem returnFromTrap_frame {s u : State} (h : returnFromTrap s = .next u) :
    u.cycles = s.cycles ∧ u.sink = s.sink := by
  simp only [returnFromTrap_eq, andThen_eq_next] at h
  obtain ⟨_, -, _, -, _, -, hu⟩ := h
  cases hu
  exact ⟨rfl, rfl⟩

/-- BRK is trap entry from the state it began in, with `ret` staged, and completion. -/
theorem exec_brk_takeTrap (s : State) :
    exec .brk s = andThen (takeTrap { s with ret := s.pc + 1 }) fun u =>
      .next (completed 7 (loaded .brk 0x00 u)) := by
  have hret : { loaded .brk 0x00 s with ret := s.pc + 1 } = loaded .brk 0x00 { s with ret := s.pc + 1 } := rfl
  rw [exec_brk, hret, takeTrap_loaded, andThen_assoc]
  rfl

/-- RTI is trap return from the state it began in, and completion. -/
theorem exec_rti_returnFromTrap (s : State) :
    exec .rti s = andThen (returnFromTrap s) fun u => .next (completed 6 (loaded .rti 0x40 u)) := by
  rw [exec_rti, returnFromTrap_loaded, andThen_assoc]
  rfl

/-- Settles O47: both instructions are the single operation and completion. -/
theorem trapEntryAndReturnAreOneOperation : Obligations.TrapEntryAndReturnAreOneOperation := by
  unfold Obligations.TrapEntryAndReturnAreOneOperation
  intro s
  have hbrk := exec_brk_takeTrap s
  have hrti := exec_rti_returnFromTrap s
  refine ⟨fun u hu => ?_, fun f hf => ?_, fun u hu => ?_, fun f hf => ?_⟩
  · rw [hu, andThen_next] at hbrk
    obtain ⟨hcycles, hsink⟩ := takeTrap_frame hu
    exact ends_of_exec_completed (u := loaded .brk 0x00 u) nofun hbrk hcycles hsink
  · rw [hbrk, hf, andThen_fault]
  · rw [hu, andThen_next] at hrti
    obtain ⟨hcycles, hsink⟩ := returnFromTrap_frame hu
    exact ends_of_exec_completed (u := loaded .rti 0x40 u) nofun hrti hcycles hsink
  · rw [hrti, hf, andThen_fault]

/-! ## Bus faults and the map -/

/-- From the bus `b` on, an outcome with a result keeps the map, and a bus fault is at an address that `b` does not
map (20_memory.md R63); `bus` says where the result has its bus. -/
def Bus.FaultsOnlyUnmapped {α : Type} (b : Bus) (bus : α → Bus) : Res α → Prop
  | .next v => (bus v).map = b.map
  | .fault (.busFault a) => b.kindAt a = .unmapped
  | .fault (.internalFault _) => True
  | .refused _ => True

theorem Bus.FaultsOnlyUnmapped.bind {α β : Type} {b : Bus} {f : α → Bus} {g : β → Bus} {r : Res α}
    {k : α → Res β} (h : b.FaultsOnlyUnmapped f r) (hk : ∀ v, (f v).FaultsOnlyUnmapped g (k v)) :
    b.FaultsOnlyUnmapped g (andThen r k) := by
  match r, h with
  | .next v, (hmap : (f v).map = b.map) =>
    rw [andThen_next]
    have hv := hk v
    match k v, hv with
    | .next _, hv => exact Eq.trans hv hmap
    | .fault (.busFault a), hv => exact (Bus.kindAt_congr hmap a).symm.trans hv
    | .fault (.internalFault _), _ => trivial
    | .refused _, _ => trivial
  | .fault (.busFault _), h => exact h
  | .fault (.internalFault _), _ => trivial
  | .refused _, _ => trivial

/-- An outcome that leaves the bus as it was, and is no bus fault. -/
theorem Bus.faultsOnlyUnmapped_of_same {b : Bus} {r : Res State} (hbus : ∀ u, r = .next u → u.bus = b)
    (hfault : ∀ a, r ≠ .fault (.busFault a)) : b.FaultsOnlyUnmapped State.bus r := by
  match r with
  | .next u => exact congrArg Bus.map (hbus u rfl)
  | .fault (.busFault a) => exact absurd rfl (hfault a)
  | .fault (.internalFault _) => trivial
  | .refused _ => trivial

theorem Bus.read_faultsOnlyUnmapped (b : Bus) (a : Addr) : b.FaultsOnlyUnmapped Prod.snd (b.read a) := by
  rcases Bus.read_outcome b a with ⟨r, hr, -⟩ | hr
  · rw [hr]
    exact (Bus.read_frame hr).1
  · rw [hr]
    exact (Bus.read_fault hr).2

theorem Bus.write_faultsOnlyUnmapped (b : Bus) (a : Addr) (v : Byte) :
    b.FaultsOnlyUnmapped id (b.write a v) := by
  cases hw : b.write a v with
  | next b' => exact (Bus.write_frame hw).1
  | fault f =>
    obtain ⟨rfl, hk⟩ := Bus.write_fault hw
    exact hk
  | refused e => trivial

theorem Bus.readWord_faultsOnlyUnmapped (b : Bus) (a : Addr) :
    b.FaultsOnlyUnmapped Prod.snd (b.readWord a) :=
  (b.read_faultsOnlyUnmapped a).bind fun lo => (lo.2.read_faultsOnlyUnmapped _).bind fun _ => rfl

/-! ## The micro-ops -/

theorem effAddr_faultsOnlyUnmapped (md : Mode) (l : List Byte) (s : State) :
    s.bus.FaultsOnlyUnmapped Prod.snd (effAddr md l s) := by
  unfold effAddr
  split
  case h_4 | h_10 => exact s.bus.readWord_faultsOnlyUnmapped _
  case h_5 => exact (s.bus.readWord_faultsOnlyUnmapped _).bind fun _ => rfl
  case h_11 => trivial
  all_goals rfl

theorem resolveMode_faultsOnlyUnmapped (md : Mode) (l : List Byte) (s : State) :
    s.bus.FaultsOnlyUnmapped State.bus (resolveMode md l s) := by
  unfold resolveMode
  split
  case h_4 =>
    split
    · rfl
    · trivial
  case h_1 | h_2 | h_3 => rfl
  all_goals exact (effAddr_faultsOnlyUnmapped _ l s).bind fun _ => rfl

theorem push_faultsOnlyUnmapped (v : Byte) (s : State) : s.bus.FaultsOnlyUnmapped State.bus (push v s) :=
  (s.bus.write_faultsOnlyUnmapped _ v).bind fun _ => rfl

theorem pull_faultsOnlyUnmapped (s : State) :
    s.bus.FaultsOnlyUnmapped (fun r : Byte × State => r.2.bus) (pull s) :=
  (s.bus.read_faultsOnlyUnmapped _).bind fun _ => rfl

/-- An Exec makes no bus access. -/
theorem execBody_ne_busFault (t : InstrType) (s : State) (a : Addr) :
    execBody t s ≠ .fault (.busFault a) := by
  cases t <;> nofun

theorem modifyBody_ne_busFault (t : InstrType) (s : State) (a : Addr) :
    modifyBody t s ≠ .fault (.busFault a) := by
  cases t <;> nofun

theorem perform_faultsOnlyUnmapped (k : MicroOp) (s : State) :
    s.bus.FaultsOnlyUnmapped State.bus (perform k s) := by
  cases k
  case resolve =>
    exact (resolveMode_faultsOnlyUnmapped _ _ s).bind fun u => congrArg Bus.map (stage_bus _ u)
  case exec => exact Bus.faultsOnlyUnmapped_of_same (fun _ => execBody_bus) (execBody_ne_busFault _ s)
  case modify => exact Bus.faultsOnlyUnmapped_of_same (fun _ => modifyBody_bus) (modifyBody_ne_busFault _ s)
  case idle | jump | incPC => rfl
  case read => exact (s.bus.read_faultsOnlyUnmapped _).bind fun _ => rfl
  case write => exact (s.bus.write_faultsOnlyUnmapped _ _).bind fun _ => rfl
  case vector => exact (s.bus.readWord_faultsOnlyUnmapped _).bind fun _ => rfl
  case pushA | pushP | pushPCH | pushPCL => exact push_faultsOnlyUnmapped _ s
  case pullA | pullP | pullPCL | pullPCH => exact (pull_faultsOnlyUnmapped s).bind fun _ => rfl

/-! ## Tick and step -/

theorem drain_faultsOnlyUnmapped (fuel limit spent : Nat) (s : State) :
    s.bus.FaultsOnlyUnmapped State.bus (drain fuel limit spent s) := by
  induction fuel generalizing spent s with
  | zero =>
    unfold drain
    split
    · rfl
    · split
      · trivial
      · rfl
  | succ fuel ih =>
    unfold drain
    split
    · rfl
    · split
      · exact (perform_faultsOnlyUnmapped _ { s with q := _ }).bind fun u => ih _ u
      · rfl

theorem endTick_bus (active : Bool) (s : State) : (endTick active s).bus = s.bus := by
  unfold endTick
  exact (apply_ite State.bus ..).trans (ite_self _)

theorem executeStep_faultsOnlyUnmapped (limit : Nat) (s : State) :
    s.bus.FaultsOnlyUnmapped State.bus (executeStep limit s) :=
  (drain_faultsOnlyUnmapped _ limit 0 s).bind fun u => congrArg Bus.map (endTick_bus _ u)

theorem fetchByte_faultsOnlyUnmapped (s : State) : s.bus.FaultsOnlyUnmapped State.bus (fetchByte s) := by
  refine (s.bus.read_faultsOnlyUnmapped s.pc).bind fun r => ?_
  cases s.op <;> rfl

theorem tick_faultsOnlyUnmapped (s : State) : s.bus.FaultsOnlyUnmapped State.bus (tick s) := by
  by_cases hq : s.q = []
  · rw [tick_of_empty hq]
    refine (fetchByte_faultsOnlyUnmapped s).bind fun u => ?_
    split
    · exact executeStep_faultsOnlyUnmapped 1 { u with q := _ }
    · rfl
  · rw [tick_queued s hq]
    exact executeStep_faultsOnlyUnmapped 2 s

theorem tickN_faultsOnlyUnmapped (n : Nat) (s : State) : s.bus.FaultsOnlyUnmapped State.bus (tickN n s) := by
  induction n generalizing s with
  | zero => rfl
  | succ n ih => exact (tick_faultsOnlyUnmapped s).bind ih

theorem step_faultsOnlyUnmapped {s : State} (hs : s.Inv) : s.bus.FaultsOnlyUnmapped State.bus (step s) := by
  obtain ⟨n, -, hn, -⟩ := (step_ticksTo hs).exists_tickN
  exact hn ▸ tickN_faultsOnlyUnmapped n s

/-! ## The run over a total bus -/

theorem Bus.total.congr {b b' : Bus} (h : b.total) (hmap : b'.map = b.map) : b'.total := fun a =>
  Bus.kindAt_congr hmap a ▸ h a

/-- Over a total bus a step ends in a next state, which has the invariant and a total bus again. -/
theorem step_next_of_total {s : State} (hs : s.Inv) (htotal : s.bus.total) :
    ∃ t, step s = .next t ∧ t.Inv ∧ t.bus.total := by
  have hmapped := step_faultsOnlyUnmapped hs
  rcases step_good hs with ⟨t, ht, hinv⟩ | ⟨a, ha⟩
  · rw [ht] at hmapped
    exact ⟨t, ht, hinv, htotal.congr hmapped⟩
  · rw [ha] at hmapped
    exact absurd hmapped (htotal a)

theorem core_run_succ_of_next (M : Host.Core) {s t : M.State} (n : Nat) (h : M.step s = .next t) :
    M.run (n + 1) s = M.run n t := by
  rw [Host.Core.run, h]

/-- Settles O16: the step lemma over a total bus, along the run. -/
theorem totalBusNeverStops : Obligations.TotalBusNeverStops := by
  unfold Obligations.TotalBusNeverStops
  intro s n
  induction n generalizing s with
  | zero => exact fun _ _ => ⟨s, rfl⟩
  | succ n ih =>
    intro hs htotal
    obtain ⟨t, ht, hinv, htotal'⟩ := step_next_of_total hs htotal
    obtain ⟨u, hu⟩ := ih t hinv htotal'
    exact ⟨u, (core_run_succ_of_next Sys2Proof.core n ht).trans hu⟩

end Sys2Proof.Machine
